-- ==== Sys2Proof/Word.lean ====
section
/-! DEFINITION. The word types of TGARLE: the byte every channel and PB access moves (20_memory R50), and the 64-bit value
of the register port (10_state R25). Everything else that is computed stands in `Machine/Operands.lean`. -/

namespace Sys2Proof

/-- One byte: "A byte is 8 bits everywhere" (R40). -/
abbrev Byte := BitVec 8

/-- A value on the register port, 64 bits (R25). -/
abbrev Word := BitVec 64

end Sys2Proof
end

