-- ==== Sys2Proof/Machine/State.lean ====
section
/-! DEFINITION. The state of TGARLE as plain data: every storage element of the block (10_state R10), the environment state
its rules read or write (R26), the level of its reset input (70 R185), and two fields of the model's own (`hostData`, `turns`).
After it the reasons a step can stop, and the state after reset (R28). -/

namespace Sys2Proof.Machine

/-- MODE: which unit is active (R11). The codes 5 and 6 are never taken, so they have no constructor. -/
inductive Mode where
  /-- 0 `M_IDLE` -/
  | idle
  /-- 1 `M_HPARSE`, header parse running -/
  | hparse
  /-- 2 `M_HSER`, header serialize running -/
  | hser
  /-- 3 `M_DEC`, decoder running -/
  | dec
  /-- 4 `M_ENC`, encoder running -/
  | enc
  /-- 7 `M_FAULT` -/
  | fault
deriving DecidableEq, Repr

/-- DSTATE, the decoder's sub-state (R12). -/
inductive DState where
  /-- 0 `D_HDR`, waiting for a packet-header byte -/
  | hdr
  /-- 1 `D_RUN_PIX`, reading the one pixel of a run packet -/
  | runPix
  /-- 2 `D_RUN_OUT`, writing that pixel repeatedly -/
  | runOut
  /-- 3 `D_RAW`, copying literal bytes -/
  | raw
deriving DecidableEq, Repr

/-- ESTATE, the encoder's sub-state (R13). -/
inductive EState where
  /-- 0 `E_LOAD`, reading the current pixel -/
  | load
  /-- 1 `E_SCAN`, comparing following pixels with it -/
  | scan
  /-- 2 `E_EMIT_HDR`, pushing the packet-header byte -/
  | emitHdr
  /-- 3 `E_EMIT_PIX`, pushing the pixel bytes -/
  | emitPix
deriving DecidableEq, Repr

/-- An item of the input channel IN (R45). -/
inductive InItem where
  /-- A byte of the stream. -/
  | byte (b : Byte)
  /-- `EOS`, the end marker. -/
  | eos
deriving DecidableEq, Repr

/-- The twelve header field registers, in the order of R21. -/
structure Header where
  /-- 0x10 HDR_ID_LENGTH -/
  idLength : BitVec 8
  /-- 0x11 HDR_COLOR_MAP_TYPE -/
  colorMapType : BitVec 8
  /-- 0x12 HDR_IMAGE_TYPE -/
  imageType : BitVec 8
  /-- 0x13 HDR_CMAP_ORIGIN -/
  cmapOrigin : BitVec 16
  /-- 0x14 HDR_CMAP_LENGTH -/
  cmapLength : BitVec 16
  /-- 0x15 HDR_CMAP_DEPTH -/
  cmapDepth : BitVec 8
  /-- 0x16 HDR_X_ORIGIN -/
  xOrigin : BitVec 16
  /-- 0x17 HDR_Y_ORIGIN -/
  yOrigin : BitVec 16
  /-- 0x18 HDR_WIDTH -/
  width : BitVec 16
  /-- 0x19 HDR_HEIGHT -/
  height : BitVec 16
  /-- 0x1A HDR_BITS_PER_PIXEL -/
  bitsPerPixel : BitVec 8
  /-- 0x1B HDR_IMAGE_DESCRIPTOR -/
  imageDescriptor : BitVec 8
deriving DecidableEq, Repr

/-- The host-visible registers of the map R25, each under its name. -/
inductive Reg where
  | cmd | status | err | errarg
  | geomW | geomH | geomBpp
  | ipos | opos | prod | pidx
  | hdrIdLength | hdrColorMapType | hdrImageType
  | hdrCmapOrigin | hdrCmapLength | hdrCmapDepth
  | hdrXOrigin | hdrYOrigin | hdrWidth | hdrHeight
  | hdrBitsPerPixel | hdrImageDescriptor
  | hdrBppView | hdrOriginView
deriving DecidableEq, Repr

/-- The six faults of the block (60 R160). Taking one is a NEXT state of the model (R173), never a stop. -/
inductive BlockFault where
  /-- code 1: the stream ended before 18 header bytes (R161) -/
  | formatError
  /-- code 2: the stream ended while pixels were owed (R162) -/
  | truncatedStream
  /-- code 3: GEOM_BPP is not 3 or 4 (R163) -/
  | configError
  /-- code 4: a reserved command code (R164) -/
  | cmdIllegal
  /-- code 5: a command while BUSY (R165) -/
  | cmdWhileBusy
  /-- code 6: a GEOM_* or HDR_* write while BUSY (R166) -/
  | writeWhileBusy
deriving DecidableEq, Repr

/-- One turn of the interleaving of host and block (60 R169): a host action, the platform moving `rst`, or one atomic step
of the block. -/
inductive Turn where
  /-- The block makes one atomic step (00 R6). -/
  | blockStep
  /-- `RegWrite(n, v)` (43 R141). -/
  | regWrite (n : Nat) (v : Word)
  /-- `RegRead(n)` (43 R140). -/
  | regRead (n : Nat)
  /-- The host appends an item to IN (20 R45). -/
  | supply (item : InItem)
  /-- The host takes an item from IN itself, between commands (70 R200; log entry 14 for the rest). -/
  | takeIn
  /-- The host empties IN, its end marker included: "the next reset of the channel" (20 R45, 70 R187; DESIGN CHOICE, log entry 19). -/
  | clearIn
  /-- The host starts or stops accepting OUT (20 R47). -/
  | acceptOut (ready : Bool)
  /-- The host removes a byte from the front of OUT (20 R47). -/
  | takeOut
  /-- The host writes a byte of PB (20 R44). -/
  | pbWrite (a : BitVec 34) (v : Byte)
  /-- The host reads a byte of PB (20 R44). -/
  | pbRead (a : BitVec 34)
  /-- The platform asserts (true) or releases (false) the reset input (70 R185). -/
  | rst (level : Bool)
deriving DecidableEq, Repr

/-- Bytes of memory with their addresses; the canonical form is `Memory.wf` of `Machine/Ops.lean`. -/
abbrev Memory := List Host.Cell

/-- The whole state. -/
structure State where
  /-- MODE (R11) -/
  mode : Mode
  /-- DSTATE (R12) -/
  dstate : DState
  /-- ESTATE (R13) -/
  estate : EState
  /-- HCNT (R14) -/
  hcnt : BitVec 5
  /-- HB[0..17] (R14) -/
  hb : Vector Byte 18
  /-- PKT_RUN (R15) -/
  pktRun : Bool
  /-- PKT_LEFT (R15) -/
  pktLeft : BitVec 8
  /-- PIX[0..3] (R15) -/
  pix : Vector Byte 4
  /-- DBI (R15) -/
  dbi : BitVec 2
  /-- CUR[0..3] (R16) -/
  cur : Vector Byte 4
  /-- RUN (R16) -/
  run : BitVec 8
  /-- EBI (R16) -/
  ebi : BitVec 2
  /-- STATUS.DONE (R18) -/
  done : Bool
  /-- STATUS.OVR (R18) -/
  ovr : Bool
  /-- STATUS.LASTCMD (R18) -/
  lastCmd : BitVec 3
  /-- ERR.CODE (R19) -/
  errCode : BitVec 8
  /-- ERR.FMODE (R19) -/
  errFmode : BitVec 3
  /-- ERRARG (R20) -/
  errarg : BitVec 64
  /-- GEOM_W (R23) -/
  geomW : BitVec 16
  /-- GEOM_H (R23) -/
  geomH : BitVec 16
  /-- GEOM_BPP (R23) -/
  geomBpp : BitVec 3
  /-- The twelve HDR_* registers (R21) -/
  hdr : Header
  /-- IPOS (R24) -/
  ipos : BitVec 35
  /-- OPOS (R24) -/
  opos : BitVec 35
  /-- PROD (R24) -/
  prod : BitVec 34
  /-- PIDX (R24) -/
  pidx : BitVec 32
  /-- PB, the pixel buffer (R26, 20 R41) -/
  pb : Memory
  /-- INQ, the items of IN not yet popped (R26, 20 R45) -/
  inq : List InItem
  /-- OUTQ, the bytes on OUT, oldest first (R26, 20 R47) -/
  outq : List Byte
  /-- The host accepts what is pushed to OUT (20 R47) -/
  outReady : Bool
  /-- The level of the reset input (70 R185) -/
  rst : Bool
  /-- The model's own: what the host's latest read returned (DESIGN CHOICE, log entry 5) -/
  hostData : Word
  /-- The model's own: the coming turns, next first (DESIGN CHOICE, log entry 6) -/
  turns : List Turn
deriving DecidableEq, Repr

/-- Why the machine stops with a fault of the MODEL. None of these is a fault of the block (those are next states, R173). All
are safe: the model stops where the spec gives no value or says the access does not happen. -/
inductive Fault where
  /-- The encoder reads a PB byte no agent has written: "A model should refuse, or fault on, an encode that reads a PB byte no one
  has written" (70 R190, 93 U8). Raised by `blockRead` alone; a host's read returns a free value. Safe. -/
  | pbUnwritten (a : Nat)
  /-- The block's PB access is not in 0 to CAP-1, where "both are defined only" (20 R41). The decoder and the encoder raise it
  only in states no run reaches (41 R111, 42 R131). Safe. -/
  | pbOutside (a : Nat)
  /-- The header unit steps with HCNT of 18 or more, where HB has no byte; only in states no run reaches (10 R14, R29). Safe. -/
  | hbOutside (k : Nat)
deriving DecidableEq, Repr

/-- Why a step is refused. -/
inductive Refusal where
  /-- An instruction without a meaning yet; raised by `exec`'s refused arms alone. Safe. -/
  | notModelled (mnemonic : String)
  /-- A host turn accesses PB while a decode or encode is BUSY: "A model gives the host no PB move while a decode or encode is
  BUSY" (70 R193). Raised by `Turn.pbWrite` and `Turn.pbRead`, by no instruction. Safe. -/
  | hostPbWhileBusy
  /-- A host turn appends to IN after EOS: "once it has appended EOS it appends nothing more until the next reset of the
  channel" (20 R45). Raised by `Turn.supply`, by no instruction. Safe. -/
  | supplyAfterEos
  /-- A host turn takes items off IN or clears it while a parse or a decode is popping it; the spec lets a host do so "between
  commands" (70 R200, 20 R46). Raised by `Turn.takeIn` and `Turn.clearIn`, by no instruction. Safe. -/
  | hostInWhileBusy
deriving DecidableEq, Repr

/-- The header registers after reset: 0 each (R28). -/
def Header.zero : Header :=
  { idLength := 0, colorMapType := 0, imageType := 0, cmapOrigin := 0, cmapLength := 0, cmapDepth := 0
    xOrigin := 0, yOrigin := 0, width := 0, height := 0, bitsPerPixel := 0, imageDescriptor := 0 }

/-- The machine right after reset: every storage element of the block 0 (R28, 70 R186). What reset does not touch (PB, INQ, OUTQ,
70 R187) and the model's own fields stand as the log says: nothing written, nothing supplied (DESIGN CHOICE, log entries 1 to 6). -/
def State.reset : State :=
  { mode := .idle, dstate := .hdr, estate := .load, hcnt := 0, hb := Vector.replicate 18 0
    pktRun := false, pktLeft := 0, pix := Vector.replicate 4 0, dbi := 0
    cur := Vector.replicate 4 0, run := 0, ebi := 0
    done := false, ovr := false, lastCmd := 0, errCode := 0, errFmode := 0, errarg := 0
    geomW := 0, geomH := 0, geomBpp := 0, hdr := Header.zero
    ipos := 0, opos := 0, prod := 0, pidx := 0
    pb := [], inq := [], outq := [], outReady := true, rst := false, hostData := 0, turns := [] }

end Sys2Proof.Machine
end

