-- ==== Sys2Proof/Machine/Flags.lean ====
section
/-! DEFINITION. The status words and level outputs, all of them views of the state: STATUS (10_state R18), ERR (R19),
done_o and fault_o (60 R168), and the codes of MODE (R11) and of the six faults (60 R160). -/

namespace Sys2Proof.Machine

/-- The 3-bit code of MODE (R11). -/
def Mode.code : Mode → BitVec 3
  | .idle => 0
  | .hparse => 1
  | .hser => 2
  | .dec => 3
  | .enc => 4
  | .fault => 7

/-- "The block is BUSY exactly when MODE is 1, 2, 3 or 4" (R11). -/
def Mode.busy : Mode → Bool
  | .idle => false
  | .hparse => true
  | .hser => true
  | .dec => true
  | .enc => true
  | .fault => false

/-- While MODE is M_DEC or M_ENC the block owns PB (20 R44). -/
def Mode.ownsPb : Mode → Bool
  | .idle => false
  | .hparse => false
  | .hser => false
  | .dec => true
  | .enc => true
  | .fault => false

/-- The units that pop IN: the header parser and the decoder (20 R40, R55). -/
def Mode.popsIn : Mode → Bool
  | .idle => false
  | .hparse => true
  | .hser => false
  | .dec => true
  | .enc => false
  | .fault => false

/-- The fault code that ERR.CODE takes (60 R160). -/
def BlockFault.code : BlockFault → BitVec 8
  | .formatError => 1
  | .truncatedStream => 2
  | .configError => 3
  | .cmdIllegal => 4
  | .cmdWhileBusy => 5
  | .writeWhileBusy => 6

/-- STATUS.BUSY, a view of MODE (R18). -/
def State.busy (s : State) : Bool := s.mode.busy

/-- STATUS.FAULT, a view of MODE (R18). -/
def State.faulted (s : State) : Bool := s.mode == .fault

/-- STATUS: bit 0 BUSY, 1 DONE, 2 FAULT, 3 OVR, 6:4 LASTCMD, the rest 0 (R18). -/
def statusWord (s : State) : Word :=
  (0#57 ++ s.lastCmd ++ BitVec.ofBool s.ovr ++ BitVec.ofBool s.faulted ++ BitVec.ofBool s.done ++ BitVec.ofBool s.busy : BitVec 64)

/-- ERR: bits 7:0 CODE, 10:8 FMODE, the rest 0 (R19). -/
def errWord (s : State) : Word := (0#53 ++ s.errFmode ++ s.errCode : BitVec 64)

/-- The level output `done_o` = STATUS.DONE (60 R168). -/
def doneO (s : State) : Bool := s.done

/-- The level output `fault_o` = STATUS.FAULT (60 R168). -/
def faultO (s : State) : Bool := s.faulted

end Sys2Proof.Machine
end

