-- ==== Sys2Proof/Config.lean ====
section
/-! DEFINITION. The parameters the spec fixes (00_scope R4: "None is configurable"), and the model's bounds on the number
of atomic steps of one instruction, and the one free value: what PB holds at a byte no agent has written. The spec leaves no result
of an instruction undefined. -/

namespace Sys2Proof.Config

/-- `HDR_LEN`: bytes in the file header (R4). -/
def hdrLen : Nat := 18

/-- `MAX_RUN`: largest pixel count of one packet (R4). -/
def maxRun : Nat := 128

/-- `BPP_SET`: the legal bytes per pixel (R4). -/
def legalBpp (b : Nat) : Bool := b == 3 || b == 4

/-- `TYPE_RAW`: an `image_type` value of the File Driver (R4); the block never looks at it (R62). -/
def typeRaw : Byte := 2

/-- `TYPE_RLE`: an `image_type` value of the File Driver (R4); the block never looks at it (R62). -/
def typeRle : Byte := 10

/-- `DESC_TOP_LEFT`: the `image_descriptor` the File Driver writes on save (R4, R64). -/
def descTopLeft : Byte := 0x20

/-- The largest number of atomic steps a run packet takes after its header byte: four pixel bytes read and
128 pixels of four bytes written (R98, R99, R100). -/
def runPacketSteps : Nat := 516

/-- The largest number of atomic steps a raw packet takes after its header byte: 128 pixels of four bytes (R101, R102). -/
def rawPacketSteps : Nat := 512

/-- The largest number of atomic steps of an emitted packet: its header byte and four pixel bytes (R126, R127). -/
def emitSteps : Nat := 5

/-- FREE VALUE: what PB holds at an address no agent has written, "whatever the host left there" (20 R41; 70 R187; 93 U8 "any value").
Nothing constrains it, and it is one byte for each address, since PB's reads are idempotent (R41) (DESIGN CHOICE, log entry 1). -/
opaque unwrittenByte : Nat → Byte

end Sys2Proof.Config
end

