-- ==== Sys2Proof/Syntax.lean ====
section
/-! DEFINITION. The instructions of TGARLE (00_scope R8, opcode_table.json): one constructor per row of the table. -/

namespace Sys2Proof

/-- The eleven instructions. A packet's pixel bytes are data of the stream, not part of the instruction: how many there are
depends on GEOM_BPP, which is not in the stream (30_encoding R68), and each is popped by a step of its own (41 R99, R102). -/
inductive Instr where
  /-- DEC.RUN, a run packet of `n + 1` pixels read by the decoder (41 R98). -/
  | decRun (n : BitVec 7)
  /-- DEC.RAW, a raw packet of `n + 1` pixels read by the decoder (41 R101). -/
  | decRaw (n : BitVec 7)
  /-- ENC.EMIT_RUN, a run packet of `n + 1` pixels emitted by the encoder, `n` from 1 to 127 (42 R124). -/
  | encEmitRun (n : BitVec 7)
  /-- ENC.EMIT_RAW1, a raw packet of one pixel emitted by the encoder (42 R125). -/
  | encEmitRaw1
  /-- HDR.PARSE, the 18-byte record from IN to the header registers (40 R80). -/
  | hdrParse
  /-- HDR.SERIALIZE, the packed header from the block to OUT (40 R83). -/
  | hdrSerialize
  /-- CMD.NOP, CMD value 0 (43 R144). -/
  | cmdNop
  /-- CMD.HDR_PARSE, CMD value 1 (43 R145). -/
  | cmdHdrParse
  /-- CMD.HDR_SERIALIZE, CMD value 2 (43 R146). -/
  | cmdHdrSerialize
  /-- CMD.DECODE, CMD value 3 (43 R147). -/
  | cmdDecode
  /-- CMD.ENCODE, CMD value 4 (43 R148). -/
  | cmdEncode
deriving DecidableEq, Repr

end Sys2Proof
end

