-- ==== Sys2Proof/WellFormed.lean ====
section
/-! DEFINITION. Which terms of `Instr` are instructions of the table. The one check: an emitted run has at least two pixels,
since header 0x80 "is never emitted" (30_encoding R71, opcode_table.json row ENC.EMIT_RUN, range 1 to 127 of `n`). -/

namespace Sys2Proof

/-- The instruction has operands its row of the table admits. -/
def Instr.wf : Instr → Bool
  | .decRun _ => true
  | .decRaw _ => true
  | .encEmitRun n => n != 0
  | .encEmitRaw1 => true
  | .hdrParse => true
  | .hdrSerialize => true
  | .cmdNop => true
  | .cmdHdrParse => true
  | .cmdHdrSerialize => true
  | .cmdDecode => true
  | .cmdEncode => true

end Sys2Proof
end

