-- ==== Sys2Proof/Decode.lean ====
section
/-! DEFINITION. Decoding and encoding (30_encoding R65 to R73, R79; opcode_table.json). The table's rows lie in five spaces
of words, and the same bits mean different instructions in different spaces: a byte 0x83 popped by the decoder is DEC.RUN,
pushed by the encoder it is ENC.EMIT_RUN, and as a CMD value it is reserved. So a word carries its space. -/

namespace Sys2Proof

/-- A word of one of the five spaces of opcode_table.json (its column "space"). -/
inductive Encoded where
  /-- The packet-header byte the decoder pops from IN in state D_HDR. -/
  | packetIn (p : BitVec 8)
  /-- The packet-header byte the encoder pushes to OUT in state E_EMIT_HDR. -/
  | packetOut (h : BitVec 8)
  /-- The value the host writes to register 0x00 (CMD); all 64 bits count (R72). -/
  | command (v : BitVec 64)
  /-- The 18-byte record popped from IN while MODE = M_HPARSE: every value of it is legal (40 R82, R87). -/
  | recordIn
  /-- The 18-byte record pushed to OUT while MODE = M_HSER: every value of it is legal (40 R85, R87). -/
  | recordOut
deriving DecidableEq, Repr

/-- Why a word is no instruction. -/
inductive Reject where
  /-- A CMD value of 5 or more (R73). -/
  | reservedCommand (v : BitVec 64)
  /-- A header byte the encoder never emits: 0x80 or 0x01 to 0x7F (R71). -/
  | neverEmitted (h : BitVec 8)
deriving DecidableEq, Repr

/-- Bit 7 of a packet-header byte: 1 for a run packet, 0 for a raw packet (R65). -/
def packetIsRun (p : BitVec 8) : Bool := p.msb

/-- Bits 6:0 of a packet-header byte: the pixel count minus one (R65). -/
def packetCountField (p : BitVec 8) : BitVec 7 := p.extractLsb' 0 7

/-- A packet-header byte from its two fields (R65). -/
def packetByte (isRun : Bool) (n : BitVec 7) : BitVec 8 := BitVec.ofBool isRun ++ n

/-- The decoder's reading of a packet-header byte: every one of the 256 values is legal (R65, R70). -/
def decodePacketIn (p : BitVec 8) : Instr :=
  if packetIsRun p then .decRun (packetCountField p) else .decRaw (packetCountField p)

/-- The packet form an emitted header byte stands for; the encoder emits only 0x81 to 0xFF and 0x00 (R71). -/
def decodePacketOut (h : BitVec 8) : Except Reject Instr :=
  if packetIsRun h && packetCountField h != 0 then .ok (.encEmitRun (packetCountField h))
  else if h == 0 then .ok .encEmitRaw1
  else .error (.neverEmitted h)

/-- The command a CMD value selects: "The whole 64-bit written value is compared, not a sub-field" (R72). -/
def decodeCommand (v : BitVec 64) : Except Reject Instr :=
  if v = 0 then .ok .cmdNop
  else if v = 1 then .ok .cmdHdrParse
  else if v = 2 then .ok .cmdHdrSerialize
  else if v = 3 then .ok .cmdDecode
  else if v = 4 then .ok .cmdEncode
  else .error (.reservedCommand v)

/-- The decoder, total on every word of every space, rejecting by name. -/
def decode : Encoded → Except Reject Instr
  | .packetIn p => .ok (decodePacketIn p)
  | .packetOut h => decodePacketOut h
  | .command v => decodeCommand v
  | .recordIn => .ok .hdrParse
  | .recordOut => .ok .hdrSerialize

/-- The encoder, from the same tables (R65 to R67, R71, R72). -/
def encode : Instr → Encoded
  | .decRun n => .packetIn (packetByte true n)
  | .decRaw n => .packetIn (packetByte false n)
  | .encEmitRun n => .packetOut (packetByte true n)
  | .encEmitRaw1 => .packetOut 0x00
  | .hdrParse => .recordIn
  | .hdrSerialize => .recordOut
  | .cmdNop => .command 0
  | .cmdHdrParse => .command 1
  | .cmdHdrSerialize => .command 2
  | .cmdDecode => .command 3
  | .cmdEncode => .command 4

/-- The pixel count a count field stands for, 1 to 128, as the 8-bit value of the latches: `zext_8(p[6:0]) + 1` (R69). -/
def packetCount (n : BitVec 7) : BitVec 8 := n.zeroExtend 8 + 1

/-- The length in bytes of a packet, from its header byte and the bytes per pixel, which is not in the stream (R68). -/
def packetLength (p : BitVec 8) (bpp : Nat) : Nat :=
  if packetIsRun p then 1 + bpp else 1 + (packetCount (packetCountField p)).toNat * bpp

/-- The space a word of the opcode table is read in when only its width is known: eight bits are a packet-header byte as the
DECODER pops it, 64 bits a CMD value, 144 bits the record HDR.PARSE pops. What the encoder pushes (ENC.EMIT_RUN, ENC.EMIT_RAW1)
and what HDR.SERIALIZE pushes is read by no unit of the block, so no width selects those spaces (DEDUCED, log entry 10). -/
def tableWord (nbits w : Nat) : Option Encoded :=
  if nbits = 8 then some (.packetIn (BitVec.ofNat 8 w))
  else if nbits = 64 then some (.command (BitVec.ofNat 64 w))
  else if nbits = 144 then some .recordIn
  else none

/-- What the decoder reads from an instruction word numbered as opcode_table.json numbers it. -/
def decodeTableWord (nbits w : Nat) : Option Instr :=
  match tableWord nbits w with
  | none => none
  | some e =>
    match decode e with
    | .ok i => some i
    | .error _ => none

end Sys2Proof
end

