-- ==== Sys2Proof/Machine/Operands.lean ====
section
/-! DEFINITION. Operand assembly (30_encoding R69) and the values computed from registers: byte order, geometry, pack and
unpack of the header, the header views, the register map, PB addresses, the emitted packet-header byte. -/

namespace Sys2Proof.Machine

/-! ## Byte order (20 R48, 00 R9) -/

/-- `lo8(v) = v mod 256`, the byte at the lower offset (R48). -/
def lo8 (v : BitVec 16) : Byte := v.extractLsb' 0 8

/-- `hi8(v) = (v div 256) mod 256`, the byte at the higher offset (R48). -/
def hi8 (v : BitVec 16) : Byte := v.extractLsb' 8 8

/-- `u16le(b0, b1) = b0 + 256 × b1` (R48, R61). -/
def u16le (b0 b1 : Byte) : BitVec 16 := b1 ++ b0

/-! ## Geometry (00 R9, 10 R27): functions of the geometry registers, not state -/

/-- `BPP` as a number. -/
def State.bpp (s : State) : Nat := s.geomBpp.toNat

/-- `NPIX = W × H`, at most 4,294,836,225 (00 R5). -/
def State.npix (s : State) : Nat := s.geomW.toNat * s.geomH.toNat

/-- `CAP = W × H × BPP`, the bytes of the pixel buffer (00 R5, R9). -/
def State.cap (s : State) : Nat := s.geomW.toNat * s.geomH.toNat * s.geomBpp.toNat

/-- The address of byte `j` of pixel `k`: `k × BPP + j` (20 R42). -/
def pixelAddr (bpp k j : Nat) : Nat := k * bpp + j

/-- The index of pixel (x, y) of a buffer of width `w`: `x + y × W` (20 R42). -/
def pixelIndex (w x y : Nat) : Nat := x + y * w

/-! ## The header record (40 R82, R85) -/

/-- `unpack(B)`: the twelve fields at the offsets of 30 R60 (R82). -/
def unpack (b : Vector Byte 18) : Header :=
  { idLength := b[0], colorMapType := b[1], imageType := b[2]
    cmapOrigin := u16le b[3] b[4], cmapLength := u16le b[5] b[6], cmapDepth := b[7]
    xOrigin := u16le b[8] b[9], yOrigin := u16le b[10] b[11]
    width := u16le b[12] b[13], height := u16le b[14] b[15]
    bitsPerPixel := b[16], imageDescriptor := b[17] }

/-- `pack(h)`: the eighteen bytes of the header (R85). -/
def pack (h : Header) : Vector Byte 18 :=
  #v[h.idLength, h.colorMapType, h.imageType,
     lo8 h.cmapOrigin, hi8 h.cmapOrigin, lo8 h.cmapLength, hi8 h.cmapLength, h.cmapDepth,
     lo8 h.xOrigin, hi8 h.xOrigin, lo8 h.yOrigin, hi8 h.yOrigin,
     lo8 h.width, hi8 h.width, lo8 h.height, hi8 h.height,
     h.bitsPerPixel, h.imageDescriptor]

/-- HDR_BPP_VIEW: `HDR_BITS_PER_PIXEL[7:3]`, the quotient by 8 (R22). -/
def bppView (h : Header) : BitVec 5 := h.bitsPerPixel.extractLsb' 3 5

/-- HDR_ORIGIN_VIEW: `HDR_IMAGE_DESCRIPTOR[5:4]`, bit 4 the less significant (R22, R64). -/
def originView (h : Header) : BitVec 2 := h.imageDescriptor.extractLsb' 4 2

/-! ## Latch arrays: `HB[0..17]`, `PIX[0..3]`, `CUR[0..3]` (00 R9) -/

/-- Element `k` of a pixel latch; a 2-bit index is always in range. -/
def pixelByte (v : Vector Byte 4) (k : BitVec 2) : Byte := v[k.toNat]'(k.isLt)

/-- `v[k] <- b` on a pixel latch. -/
def setPixelByte (v : Vector Byte 4) (k : BitVec 2) (b : Byte) : Vector Byte 4 := v.set k.toNat b k.isLt

/-! ## The emitted packet-header byte (30 R69, 42 R126) -/

/-- `(0x80 | (RUN − 1)) if RUN >= 2 else 0x00` (R126). -/
def emitHeader (run : BitVec 8) : Byte := if 2 ≤ run.toNat then 0x80 ||| (run - 1) else 0x00

/-! ## The register map (10 R25) -/

/-- The register of a number; `none` for an unmapped number (R25). -/
def regOfNumber : Nat → Option Reg
  | 0x00 => some .cmd
  | 0x01 => some .status
  | 0x02 => some .err
  | 0x03 => some .errarg
  | 0x04 => some .geomW
  | 0x05 => some .geomH
  | 0x06 => some .geomBpp
  | 0x07 => some .ipos
  | 0x08 => some .opos
  | 0x09 => some .prod
  | 0x0A => some .pidx
  | 0x10 => some .hdrIdLength
  | 0x11 => some .hdrColorMapType
  | 0x12 => some .hdrImageType
  | 0x13 => some .hdrCmapOrigin
  | 0x14 => some .hdrCmapLength
  | 0x15 => some .hdrCmapDepth
  | 0x16 => some .hdrXOrigin
  | 0x17 => some .hdrYOrigin
  | 0x18 => some .hdrWidth
  | 0x19 => some .hdrHeight
  | 0x1A => some .hdrBitsPerPixel
  | 0x1B => some .hdrImageDescriptor
  | 0x1C => some .hdrBppView
  | 0x1D => some .hdrOriginView
  | _ => none

/-- "The writable registers are GEOM_W, GEOM_H, GEOM_BPP and the twelve HDR_* registers" (R141). -/
def regWritable : Reg → Bool
  | .cmd | .status | .err | .errarg | .ipos | .opos | .prod | .pidx | .hdrBppView | .hdrOriginView => false
  | .geomW | .geomH | .geomBpp
  | .hdrIdLength | .hdrColorMapType | .hdrImageType | .hdrCmapOrigin | .hdrCmapLength | .hdrCmapDepth
  | .hdrXOrigin | .hdrYOrigin | .hdrWidth | .hdrHeight | .hdrBitsPerPixel | .hdrImageDescriptor => true

/-- The width of a register in bits, the map's column "bits" (R25). -/
def regWidth : Reg → Nat
  | .cmd => 64
  | .status => 7
  | .err => 11
  | .errarg => 64
  | .geomW => 16
  | .geomH => 16
  | .geomBpp => 3
  | .ipos => 35
  | .opos => 35
  | .prod => 34
  | .pidx => 32
  | .hdrIdLength => 8
  | .hdrColorMapType => 8
  | .hdrImageType => 8
  | .hdrCmapOrigin => 16
  | .hdrCmapLength => 16
  | .hdrCmapDepth => 8
  | .hdrXOrigin => 16
  | .hdrYOrigin => 16
  | .hdrWidth => 16
  | .hdrHeight => 16
  | .hdrBitsPerPixel => 8
  | .hdrImageDescriptor => 8
  | .hdrBppView => 5
  | .hdrOriginView => 2

end Sys2Proof.Machine
end

