-- ==== Sys2Proof/Machine/Ops.lean ====
section
/-! DEFINITION. The named operations of the block: PB as a memory, the channels IN and OUT, taking a fault, finishing a command,
accepting one, register access, reset. Every instruction's meaning is made of these. -/

namespace Sys2Proof.Machine

/-! ## The outcome of an attempt at an atomic step (00 R7) -/

/-- "Every attempt at a block step has exactly one of three outcomes" (R7), beside two that are no attempt of the spec's: the
block has no step to take (R149, R152), and the model stops. -/
inductive Attempt where
  /-- STEP: the state changes as the unit's rule says. -/
  | stepped (s : State)
  /-- HOLD: nothing changes; a host action lifts it. -/
  | held
  /-- FAULT: the fault has been taken (R173). -/
  | faulted (s : State)
  /-- The block has no step: it is idle or in M_FAULT (R203). -/
  | quiescent
  /-- The model stops (see `Fault`). -/
  | stop (r : Fault)
deriving DecidableEq, Repr

/-! ## PB: a memory of bytes in one canonical form -/

/-- Addresses strictly rise. The list holds exactly the bytes some agent has written; an unlisted address holds a free value, which no
listed byte can be compared with (DESIGN CHOICE, log entry 1). -/
def Memory.wf : Memory → Bool
  | [] => true
  | [_] => true
  | (a, _) :: (b, w) :: m => decide (a < b) && Memory.wf ((b, w) :: m)

/-- The byte some agent has written at an address, `none` where none has (70 R187, R190). -/
def memRead : Memory → Nat → Option Byte
  | [], _ => none
  | (b, w) :: m, a => if a = b then some w else memRead m a

/-- What a read of PB returns: "the value of the most recent write to that address, by either agent; a location never written holds
whatever the host left there" (20 R41), which is the free value (DESIGN CHOICE, log entry 1). -/
def pbByte (m : Memory) (a : Nat) : Byte := (memRead m a).getD (Config.unwrittenByte a)

/-- The memory with one byte replaced, the addresses still rising (20 R41). -/
def memWrite : Memory → Nat → Byte → Memory
  | [], a, v => [(a, v)]
  | (b, w) :: m, a, v =>
    if a < b then (a, v) :: (b, w) :: m
    else if a = b then (a, v) :: m
    else (b, w) :: memWrite m a v

/-- `MemRead(addr, 1)` of the block, then `k` with the byte: defined for `0 ≤ addr < CAP` (20 R41). Only the encoder reads, and at a byte
no one has written it stops: "A model should refuse, or fault on, an encode that reads a PB byte no one has written" (70 R190). -/
def blockRead (s : State) (a : Nat) (k : Byte → Attempt) : Attempt :=
  if a < s.cap then
    match memRead s.pb a with
    | some b => k b
    | none => .stop (.pbUnwritten a)
  else .stop (.pbOutside a)

/-- `MemWrite(addr, 1, v)` of the block, then `k` on the state after it: defined for `0 ≤ addr < CAP` (20 R41). -/
def blockWrite (s : State) (a : Nat) (v : Byte) (k : State → Attempt) : Attempt :=
  if a < s.cap then k { s with pb := memWrite s.pb a v }
  else .stop (.pbOutside a)

/-! ## Taking a fault (60 R173) -/

/-- `raise F(arg)`: FMODE, CODE, ERRARG and MODE, and "nothing else changes" (R173). There is no return (R174): only `resetBlock`
leaves M_FAULT. -/
def raise (f : BlockFault) (arg : Word) (s : State) : State :=
  { s with errFmode := s.mode.code, errCode := f.code, errarg := arg, mode := .fault }

/-! ## The channels (20 R45, R47) -/

/-- `InPop()` with the count that every pop of the block makes: HOLD on an empty IN; at EOS the fault `f` with its argument, EOS left
in place; a byte is removed, IPOS counts it, and `k` goes on with it (R45; 40 R81, 41 R97, R99, R102). -/
def inPop (s : State) (f : BlockFault) (arg : Word) (k : Byte → State → Attempt) : Attempt :=
  match s.inq with
  | [] => .held
  | .eos :: _ => .faulted (raise f arg s)
  | .byte b :: rest => k b { s with inq := rest, ipos := s.ipos + 1 }

/-- `OutPush(b)` with the count that every push of the block makes: HOLD while the host does not accept; otherwise the byte is
appended, OPOS counts it, and `k` goes on (R47; 40 R84, 42 R126, R127). -/
def outPush (s : State) (b : Byte) (k : State → Attempt) : Attempt :=
  if s.outReady then k { s with outq := s.outq ++ [b], opos := s.opos + 1 } else .held

/-! ## Accepting and finishing a command (43 R149, R150) -/

/-- `finish()`: `MODE <- M_IDLE ; DONE <- 1`, nothing else (R149). -/
def finish (s : State) : State := { s with mode := .idle, done := true }

/-- The common part of `start(c)`: DONE, OVR and the four counters cleared, LASTCMD written (R150). -/
def acceptCommand (c : BitVec 3) (s : State) : State :=
  { s with done := false, ovr := false, lastCmd := c, ipos := 0, opos := 0, prod := 0, pidx := 0 }

/-- `start(1)` (R150, 40 R81). -/
def startParse (s : State) : State := { acceptCommand 1 s with mode := .hparse, hcnt := 0 }

/-- `start(2)`: the header is packed in the accepting step (R150, 40 R84). -/
def startSerialize (s : State) : State := { acceptCommand 2 s with mode := .hser, hcnt := 0, hb := pack s.hdr }

/-- `start(3)`: at once complete when `CAP = 0` (R150, 41 R96, R108). -/
def startDecode (s : State) : State :=
  if s.cap = 0 then finish (acceptCommand 3 s)
  else { acceptCommand 3 s with mode := .dec, dstate := .hdr, dbi := 0 }

/-- `start(4)`: at once complete when `NPIX = 0` (R150, 42 R121, R137). -/
def startEncode (s : State) : State :=
  if s.npix = 0 then finish (acceptCommand 4 s)
  else { acceptCommand 4 s with mode := .enc, estate := .load, ebi := 0 }

/-- Test 4 of R143: a decode or an encode starts only with GEOM_BPP 3 or 4, else ConfigError with that value (60 R163). -/
def needLegalBpp (start : State → State) (s : State) : State :=
  if Config.legalBpp s.bpp then start s else raise .configError (s.geomBpp.zeroExtend 64) s

/-- The tests every non-zero CMD write passes first, in the order of R141 and R143: M_FAULT ignores it (R152), a busy block raises
CmdWhileBusy (60 R165), and otherwise `act` decides. -/
def cmdSlot (v : Word) (act : State → State) (s : State) : State :=
  if s.mode = .fault then s
  else if s.busy then raise .cmdWhileBusy v s
  else act s

/-- A reserved value written to CMD: CmdIllegal where nothing comes before it (R143 test 3, 30 R73, 60 R164). -/
def cmdReserved (v : Word) (s : State) : State := cmdSlot v (raise .cmdIllegal v) s

/-! ## Register access (43 R140 to R142) -/

/-- The value of a register on the 64-bit port, zero-extended (R25, R140). -/
def regValue (r : Reg) (s : State) : Word :=
  match r with
  | .cmd => 0
  | .status => statusWord s
  | .err => errWord s
  | .errarg => s.errarg
  | .geomW => s.geomW.zeroExtend 64
  | .geomH => s.geomH.zeroExtend 64
  | .geomBpp => s.geomBpp.zeroExtend 64
  | .ipos => s.ipos.zeroExtend 64
  | .opos => s.opos.zeroExtend 64
  | .prod => s.prod.zeroExtend 64
  | .pidx => s.pidx.zeroExtend 64
  | .hdrIdLength => s.hdr.idLength.zeroExtend 64
  | .hdrColorMapType => s.hdr.colorMapType.zeroExtend 64
  | .hdrImageType => s.hdr.imageType.zeroExtend 64
  | .hdrCmapOrigin => s.hdr.cmapOrigin.zeroExtend 64
  | .hdrCmapLength => s.hdr.cmapLength.zeroExtend 64
  | .hdrCmapDepth => s.hdr.cmapDepth.zeroExtend 64
  | .hdrXOrigin => s.hdr.xOrigin.zeroExtend 64
  | .hdrYOrigin => s.hdr.yOrigin.zeroExtend 64
  | .hdrWidth => s.hdr.width.zeroExtend 64
  | .hdrHeight => s.hdr.height.zeroExtend 64
  | .hdrBitsPerPixel => s.hdr.bitsPerPixel.zeroExtend 64
  | .hdrImageDescriptor => s.hdr.imageDescriptor.zeroExtend 64
  | .hdrBppView => (bppView s.hdr).zeroExtend 64
  | .hdrOriginView => (originView s.hdr).zeroExtend 64

/-- `RegRead(n)`: 0 for an unmapped number; allowed in every MODE, without side effect (R140). -/
def regRead (n : Nat) (s : State) : Word :=
  match regOfNumber n with
  | some r => regValue r s
  | none => 0

/-- A writable register takes the low bits of the value, "the upper bits of `v` are discarded" (R142); the other registers are not
written. -/
def regStore (r : Reg) (v : Word) (s : State) : State :=
  match r with
  | .geomW => { s with geomW := v.setWidth 16 }
  | .geomH => { s with geomH := v.setWidth 16 }
  | .geomBpp => { s with geomBpp := v.setWidth 3 }
  | .hdrIdLength => { s with hdr := { s.hdr with idLength := v.setWidth 8 } }
  | .hdrColorMapType => { s with hdr := { s.hdr with colorMapType := v.setWidth 8 } }
  | .hdrImageType => { s with hdr := { s.hdr with imageType := v.setWidth 8 } }
  | .hdrCmapOrigin => { s with hdr := { s.hdr with cmapOrigin := v.setWidth 16 } }
  | .hdrCmapLength => { s with hdr := { s.hdr with cmapLength := v.setWidth 16 } }
  | .hdrCmapDepth => { s with hdr := { s.hdr with cmapDepth := v.setWidth 8 } }
  | .hdrXOrigin => { s with hdr := { s.hdr with xOrigin := v.setWidth 16 } }
  | .hdrYOrigin => { s with hdr := { s.hdr with yOrigin := v.setWidth 16 } }
  | .hdrWidth => { s with hdr := { s.hdr with width := v.setWidth 16 } }
  | .hdrHeight => { s with hdr := { s.hdr with height := v.setWidth 16 } }
  | .hdrBitsPerPixel => { s with hdr := { s.hdr with bitsPerPixel := v.setWidth 8 } }
  | .hdrImageDescriptor => { s with hdr := { s.hdr with imageDescriptor := v.setWidth 8 } }
  | .cmd | .status | .err | .errarg | .ipos | .opos | .prod | .pidx | .hdrBppView | .hdrOriginView => s

/-- `RegWrite(n, v)` for a number other than CMD's: M_FAULT ignores it, a read-only or unmapped number ignores it, a busy block raises
WriteWhileBusy with the number, and otherwise the register is written (R141, R142, R151). -/
def regWriteOther (n : Nat) (v : Word) (s : State) : State :=
  if s.mode = .fault then s
  else
    match regOfNumber n with
    | none => s
    | some r =>
      if regWritable r then
        if s.busy then raise .writeWhileBusy (BitVec.ofNat 64 n) s
        else regStore r v s
      else s

/-! ## Reset (70 R185 to R188) -/

/-- Every storage element of the block to its reset value; PB, INQ and OUTQ are not touched (R186, R187), nor are the host's own
readiness and data, the reset line and the coming turns. -/
def resetBlock (s : State) : State :=
  { State.reset with
    pb := s.pb, inq := s.inq, outq := s.outq
    outReady := s.outReady, rst := s.rst, hostData := s.hostData, turns := s.turns }

/-! ## Running a unit -/

/-- An attempt as an outcome of the machine: a hold and a block without a step change nothing (R7, R203); a fault taken is a next
state (R173). -/
def Attempt.outcome (s : State) : Attempt → Host.Outcome State Fault Refusal
  | .stepped s' => .next s'
  | .held => .next s
  | .faulted s' => .next s'
  | .quiescent => .next s
  | .stop r => .fault r

/-- Atomic steps of a unit, one after the other with no host action between (70 R202), while `going` says that the instruction
has not ended; it ends early at a hold, a fault or a stop. -/
def runUnit (unitStep : State → Attempt) (going : State → Bool) : Nat → State → Host.Outcome State Fault Refusal
  | 0, s => .next s
  | k + 1, s =>
    if going s then
      match unitStep s with
      | .stepped s' => runUnit unitStep going k s'
      | .held => .next s
      | .faulted s' => .next s'
      | .quiescent => .next s
      | .stop r => .fault r
    else .next s

end Sys2Proof.Machine
end

