-- ==== Sys2Proof/Machine/Commands.lean ====
section
/-! DEFINITION. The five host commands (43_commands R143 to R150): what writing their code to CMD does, whole in the one step of the
write. The unit a command starts runs in the steps after it. -/

namespace Sys2Proof.Machine

/-- CMD.NOP (43 R144): no state changes, in any MODE. -/
def execCmdNop (s : State) : Host.Outcome State Fault Refusal := .next s

/-- CMD.HDR_PARSE (43 R145): `start(1)`. -/
def execCmdHdrParse (s : State) : Host.Outcome State Fault Refusal := .next (cmdSlot 1 startParse s)

/-- CMD.HDR_SERIALIZE (43 R146): `start(2)`. -/
def execCmdHdrSerialize (s : State) : Host.Outcome State Fault Refusal := .next (cmdSlot 2 startSerialize s)

/-- CMD.DECODE (43 R147): `start(3)` with a legal GEOM_BPP, ConfigError with another. -/
def execCmdDecode (s : State) : Host.Outcome State Fault Refusal := .next (cmdSlot 3 (needLegalBpp startDecode) s)

/-- CMD.ENCODE (43 R148): `start(4)` with a legal GEOM_BPP, ConfigError with another. -/
def execCmdEncode (s : State) : Host.Outcome State Fault Refusal := .next (cmdSlot 4 (needLegalBpp startEncode) s)

end Sys2Proof.Machine
end

