-- ==== Sys2Proof/Machine/Decoder.lean ====
section
/-! DEFINITION. The RLE decoder (41_rle_decoder): its byte-per-step state machine, and the packet instructions DEC.RUN and DEC.RAW
made of it. -/

namespace Sys2Proof.Machine

/-- What a packet-header byte with kind `isRun` and count field `n` does in D_HDR once it has been popped (41 R97). -/
def dispatchPacket (isRun : Bool) (n : BitVec 7) (s : State) : State :=
  { s with
    pktRun := isRun, pktLeft := packetCount n, dbi := 0
    dstate := if isRun then .runPix else .raw }

/-- `pixel_done()` (41 R103): the capacity test comes first. -/
def pixelDone (s : State) : State :=
  let s1 := { s with pktLeft := s.pktLeft - 1 }
  if s1.prod.toNat = s1.cap then
    finish { s1 with ovr := s1.ovr || s1.pktLeft != 0 }
  else if s1.pktLeft = 0 then { s1 with dstate := .hdr }
  else s1

/-- After a byte has been written to PB: the next byte of the pixel, or `pixel_done()` at its last (41 R100, R102). -/
def pixelByteDone (s : State) : State :=
  if s.dbi.toNat + 1 = s.bpp then pixelDone { s with dbi := 0 }
  else { s with dbi := s.dbi + 1 }

/-- The fault argument of a truncated stream: IPOS, the bytes consumed (60 R162). -/
def iposArg (s : State) : Word := s.ipos.zeroExtend 64

/-- Step in D_HDR (41 R97). -/
def decHdrStep (s : State) : Attempt :=
  inPop s .truncatedStream (iposArg s) fun p s1 =>
    .stepped (dispatchPacket (packetIsRun p) (packetCountField p) s1)

/-- Step in D_RUN_PIX (41 R99). -/
def decRunPixStep (s : State) : Attempt :=
  inPop s .truncatedStream (iposArg s) fun b s1 =>
    let s2 := { s1 with pix := setPixelByte s.pix s.dbi b }
    if s.dbi.toNat + 1 = s.bpp then .stepped { s2 with dbi := 0, dstate := .runOut }
    else .stepped { s2 with dbi := s.dbi + 1 }

/-- Step in D_RUN_OUT (41 R100). -/
def decRunOutStep (s : State) : Attempt :=
  blockWrite s s.prod.toNat (pixelByte s.pix s.dbi) fun s1 =>
    .stepped (pixelByteDone { s1 with prod := s.prod + 1 })

/-- Step in D_RAW (41 R102). -/
def decRawStep (s : State) : Attempt :=
  inPop s .truncatedStream (iposArg s) fun b s1 =>
    blockWrite s1 s.prod.toNat b fun s2 =>
      .stepped (pixelByteDone { s2 with prod := s.prod + 1 })

/-- One step of the decoder, by DSTATE (10 R12). -/
def decoderStep (s : State) : Attempt :=
  match s.dstate with
  | .hdr => decHdrStep s
  | .runPix => decRunPixStep s
  | .runOut => decRunOutStep s
  | .raw => decRawStep s

/-- A packet is in progress: the decoder runs and is past the packet-header byte. -/
def packetGoing (s : State) : Bool := s.mode == .dec && s.dstate != .hdr

/-- The decoder waits for a packet-header byte, the only state a packet is dispatched in (41 R97). -/
def awaitsPacket (s : State) : Bool := s.mode == .dec && s.dstate == .hdr

/-- DEC.RUN (41 R98), on the state after its header byte has been popped: dispatch, then the packet's steps until it ends, the decode
ends, the stream ends or a hold. Where the decoder does not wait for a packet nothing happens (DESIGN CHOICE, log entry 9). -/
def execDecRun (n : BitVec 7) (s : State) : Host.Outcome State Fault Refusal :=
  if awaitsPacket s then runUnit decoderStep packetGoing Config.runPacketSteps (dispatchPacket true n s)
  else .next s

/-- DEC.RAW (41 R101), on the state after its header byte has been popped; as DEC.RUN. -/
def execDecRaw (n : BitVec 7) (s : State) : Host.Outcome State Fault Refusal :=
  if awaitsPacket s then runUnit decoderStep packetGoing Config.rawPacketSteps (dispatchPacket false n s)
  else .next s

end Sys2Proof.Machine
end

