-- ==== Sys2Proof/Machine/Encoder.lean ====
section
/-! DEFINITION. The RLE encoder (42_rle_encoder): its byte-per-step state machine, and the emitted packet forms ENC.EMIT_RUN and
ENC.EMIT_RAW1 made of it. -/

namespace Sys2Proof.Machine

/-- Step in E_LOAD (42 R122): a byte of pixel PIDX into CUR; after the last one the run so far is that one pixel. -/
def encLoadStep (s : State) : Attempt :=
  blockRead s (pixelAddr s.bpp s.pidx.toNat s.ebi.toNat) fun b =>
    let s1 := { s with cur := setPixelByte s.cur s.ebi b }
    if s.ebi.toNat + 1 = s.bpp then
      .stepped { s1 with ebi := 0, run := 1, estate := if s.pidx.toNat + 1 < s.npix then .scan else .emitHdr }
    else .stepped { s1 with ebi := s.ebi + 1 }

/-- Step in E_SCAN (42 R123): a byte of pixel PIDX + RUN against CUR; the tests use the new RUN. -/
def encScanStep (s : State) : Attempt :=
  blockRead s (pixelAddr s.bpp (s.pidx.toNat + s.run.toNat) s.ebi.toNat) fun b =>
    if b ≠ pixelByte s.cur s.ebi then .stepped { s with ebi := 0, estate := .emitHdr }
    else if s.ebi.toNat + 1 = s.bpp then
      let r := s.run + 1
      .stepped { s with
        ebi := 0, run := r
        estate := if r.toNat = Config.maxRun ∨ s.pidx.toNat + r.toNat = s.npix then .emitHdr else .scan }
    else .stepped { s with ebi := s.ebi + 1 }

/-- Step in E_EMIT_HDR (42 R126). -/
def encEmitHdrStep (s : State) : Attempt :=
  outPush s (emitHeader s.run) fun s1 => .stepped { s1 with ebi := 0, estate := .emitPix }

/-- Step in E_EMIT_PIX (42 R127): the test uses the new PIDX. -/
def encEmitPixStep (s : State) : Attempt :=
  outPush s (pixelByte s.cur s.ebi) fun s1 =>
    if s.ebi.toNat + 1 = s.bpp then
      let s2 := { s1 with ebi := 0, pidx := s.pidx + s.run.zeroExtend 32 }
      if s2.pidx.toNat = s.npix then .stepped (finish s2) else .stepped { s2 with estate := .load }
    else .stepped { s1 with ebi := s.ebi + 1 }

/-- One step of the encoder, by ESTATE (10 R13). -/
def encoderStep (s : State) : Attempt :=
  match s.estate with
  | .load => encLoadStep s
  | .scan => encScanStep s
  | .emitHdr => encEmitHdrStep s
  | .emitPix => encEmitPixStep s

/-- A packet is being emitted. -/
def emitGoing (s : State) : Bool := s.mode == .enc && (s.estate == .emitHdr || s.estate == .emitPix)

/-- The encoder is about to emit a packet: its run has been counted (42 R126). -/
def awaitsEmit (s : State) : Bool := s.mode == .enc && s.estate == .emitHdr

/-- ENC.EMIT_RUN (42 R124): the header byte of a run of `n + 1` pixels, the bytes of CUR, and PIDX advanced by the run; it ends early
at a hold. Where the encoder is not about to emit nothing happens (DESIGN CHOICE, log entry 9). -/
def execEncEmitRun (n : BitVec 7) (s : State) : Host.Outcome State Fault Refusal :=
  if awaitsEmit s then runUnit encoderStep emitGoing Config.emitSteps { s with run := packetCount n }
  else .next s

/-- ENC.EMIT_RAW1 (42 R125): header byte 0x00, the bytes of CUR, and PIDX advanced by one; as ENC.EMIT_RUN. -/
def execEncEmitRaw1 (s : State) : Host.Outcome State Fault Refusal :=
  if awaitsEmit s then runUnit encoderStep emitGoing Config.emitSteps { s with run := 1 }
  else .next s

end Sys2Proof.Machine
end

