-- ==== Sys2Proof/Machine/HeaderCodec.lean ====
section
/-! DEFINITION. The header unit (40_header_codec): its two byte-per-step state machines, and the instructions HDR.PARSE and
HDR.SERIALIZE made of them. -/

namespace Sys2Proof.Machine

/-- One step of the parser (40 R81): the byte into HB[HCNT]; with the eighteenth byte all twelve registers at once and `finish()`. -/
def parseStep (s : State) : Attempt :=
  inPop s .formatError (s.hcnt.zeroExtend 64) fun b s1 =>
    if h : s.hcnt.toNat < 18 then
      let s2 := { s1 with hb := s.hb.set s.hcnt.toNat b h, hcnt := s.hcnt + 1 }
      if s.hcnt = 17 then .stepped (finish { s2 with hdr := unpack s2.hb })
      else .stepped s2
    else .stop (.hbOutside s.hcnt.toNat)

/-- One step of the serializer (40 R84): HB[HCNT] to OUT; `finish()` with the eighteenth byte. -/
def serializeStep (s : State) : Attempt :=
  if h : s.hcnt.toNat < 18 then
    outPush s (s.hb[s.hcnt.toNat]'h) fun s1 =>
      let s2 := { s1 with hcnt := s.hcnt + 1 }
      if s.hcnt = 17 then .stepped (finish s2) else .stepped s2
  else .stop (.hbOutside s.hcnt.toNat)

/-- HDR.PARSE (40 R80): the parser runs until `finish()`, FormatError or a hold. Outside M_HPARSE the parser is not active and
nothing happens (DESIGN CHOICE, log entry 9). -/
def execHdrParse (s : State) : Host.Outcome State Fault Refusal :=
  runUnit parseStep (fun t => t.mode == .hparse) Config.hdrLen s

/-- HDR.SERIALIZE (40 R83): the serializer runs until `finish()` or a hold. Outside M_HSER the serializer is not active and nothing
happens (DESIGN CHOICE, log entry 9). -/
def execHdrSerialize (s : State) : Host.Outcome State Fault Refusal :=
  runUnit serializeStep (fun t => t.mode == .hser) Config.hdrLen s

end Sys2Proof.Machine
end

