-- ==== Sys2Proof/Machine/Dispatch.lean ====
section
/-! DEFINITION. exec: one arm per instruction, each one direct call of its meaning. -/

namespace Sys2Proof.Machine

def exec (i : Instr) (s : State) : Host.Outcome State Fault Refusal :=
  match i with
  | .decRun n => Sys2Proof.Machine.execDecRun n s
  | .decRaw n => Sys2Proof.Machine.execDecRaw n s
  | .encEmitRun n => Sys2Proof.Machine.execEncEmitRun n s
  | .encEmitRaw1 => Sys2Proof.Machine.execEncEmitRaw1 s
  | .hdrParse => Sys2Proof.Machine.execHdrParse s
  | .hdrSerialize => Sys2Proof.Machine.execHdrSerialize s
  | .cmdNop => Sys2Proof.Machine.execCmdNop s
  | .cmdHdrParse => Sys2Proof.Machine.execCmdHdrParse s
  | .cmdHdrSerialize => Sys2Proof.Machine.execCmdHdrSerialize s
  | .cmdDecode => Sys2Proof.Machine.execCmdDecode s
  | .cmdEncode => Sys2Proof.Machine.execCmdEncode s

end Sys2Proof.Machine
end

