-- ==== Sys2Proof/Machine/Turns.lean ====
section
/-! DEFINITION. What a step runs: one atomic step of the block (00_scope R6, R7), the instruction at hand, a host action (R6;
20 R44 to R47; 43 R140, R141), or a move of the reset input (70 R185); and how a word of the opcode table is laid out
where the next step fetches it. `Machine/Step.lean` only calls these. -/

namespace Sys2Proof.Machine

/-! ## The block -/

/-- One atomic step of whichever unit is active (R6); an idle block and one in M_FAULT have no step (43 R149, R152). -/
def blockStep (s : State) : Attempt :=
  match s.mode with
  | .idle => .quiescent
  | .hparse => parseStep s
  | .hser => serializeStep s
  | .dec => decoderStep s
  | .enc => encoderStep s
  | .fault => .quiescent

/-- One atomic step of the block as a step of the machine. -/
def tick (s : State) : Host.Outcome State Fault Refusal := Attempt.outcome s (blockStep s)

/-- The instruction the block is at, with the state after its fetch. The decoder pops the packet-header byte and counts it (41 R97); the
encoder's next packet is the one its counted run selects (42 R126); the header unit is at HDR.PARSE or HDR.SERIALIZE. `none` where
the next step is no whole instruction: idle or faulted, inside a packet, scanning, IN empty or ended. -/
def fetchUnit (s : State) : Option (Instr × State) :=
  match s.mode with
  | .hparse => some (.hdrParse, s)
  | .hser => some (.hdrSerialize, s)
  | .dec =>
    match s.dstate, s.inq with
    | .hdr, .byte p :: rest =>
      match decode (.packetIn p) with
      | .ok i => some (i, { s with inq := rest, ipos := s.ipos + 1 })
      | .error _ => none
    | _, _ => none
  | .enc =>
    match s.estate with
    | .emitHdr =>
      match decode (.packetOut (emitHeader s.run)) with
      | .ok i => some (i, s)
      | .error _ => none
    | _ => none
  | .idle => none
  | .fault => none

/-- The block undisturbed by the host: the instruction at hand as a whole, else one atomic step (70 R202). -/
def runBlock (s : State) : Host.Outcome State Fault Refusal :=
  match fetchUnit s with
  | some (i, s') => exec i s'
  | none => tick s

/-! ## The host -/

/-- The value written to CMD (43 R143): the instruction it selects, or a reserved code. -/
def cmdWrite (v : Word) (s : State) : Host.Outcome State Fault Refusal :=
  match decode (.command v) with
  | .ok i => exec i s
  | .error _ => .next (cmdReserved v s)

/-- `RegWrite(n, v)` (43 R141). -/
def regWrite (n : Nat) (v : Word) (s : State) : Host.Outcome State Fault Refusal :=
  if n = 0 then cmdWrite v s else .next (regWriteOther n v s)

/-- The host has ended IN (20 R45). -/
def inEnded (s : State) : Bool := s.inq.contains .eos

/-- The host appends an item to IN, nothing after EOS (20 R45). -/
def supplyIn (item : InItem) (s : State) : Host.Outcome State Fault Refusal :=
  if inEnded s then .refused .supplyAfterEos else .next { s with inq := s.inq ++ [item] }

/-- The host takes the next byte of IN itself, between commands (70 R200) or while the running unit does not pop IN (DESIGN CHOICE, log entry
14); at EOS or on an empty IN there is nothing to take. -/
def takeIn (s : State) : Host.Outcome State Fault Refusal :=
  if s.mode.popsIn then .refused .hostInWhileBusy
  else
    match s.inq with
    | .byte b :: rest => .next { s with inq := rest, hostData := b.zeroExtend 64 }
    | .eos :: _ => .next s
    | [] => .next s

/-- The host resets the channel IN, which is its business (20 R45, 70 R187): it empties it, its end marker included (DESIGN CHOICE, log entry
19), while no running unit pops IN (DESIGN CHOICE, log entry 14). -/
def clearIn (s : State) : Host.Outcome State Fault Refusal :=
  if s.mode.popsIn then .refused .hostInWhileBusy else .next { s with inq := [] }

/-- The host removes a byte from the front of OUT (20 R47); from an empty OUT there is nothing to remove. -/
def takeOut (s : State) : Host.Outcome State Fault Refusal :=
  match s.outq with
  | b :: rest => .next { s with outq := rest, hostData := b.zeroExtend 64 }
  | [] => .next s

/-- The host writes a byte of PB, while it owns PB (20 R44, 70 R193). -/
def hostPbWrite (a : BitVec 34) (v : Byte) (s : State) : Host.Outcome State Fault Refusal :=
  if s.mode.ownsPb then .refused .hostPbWhileBusy else .next { s with pb := memWrite s.pb a.toNat v }

/-- The host reads a byte of PB, while it owns PB (20 R41, R44, 70 R193). -/
def hostPbRead (a : BitVec 34) (s : State) : Host.Outcome State Fault Refusal :=
  if s.mode.ownsPb then .refused .hostPbWhileBusy
  else .next { s with hostData := (pbByte s.pb a.toNat).zeroExtend 64 }

/-- The reset input moves (70 R185, R186): the block is in its reset state when it is released, and from its assertion on (DESIGN CHOICE, log entry 4). -/
def setRst (level : Bool) (s : State) : State :=
  if level then { resetBlock s with rst := true }
  else if s.rst then { resetBlock s with rst := false }
  else s

/-- One turn, already taken off the list. While `rst` is asserted the block takes no step and ignores the register port (70 R185). -/
def takeTurn (t : Turn) (s : State) : Host.Outcome State Fault Refusal :=
  match t with
  | .blockStep => if s.rst then .next s else tick s
  | .regWrite n v => if s.rst then .next s else regWrite n v s
  | .regRead n => if s.rst then .next s else .next { s with hostData := regRead n s }
  | .supply item => supplyIn item s
  | .takeIn => takeIn s
  | .clearIn => clearIn s
  | .acceptOut ready => .next { s with outReady := ready }
  | .takeOut => takeOut s
  | .pbWrite a v => hostPbWrite a v s
  | .pbRead a => hostPbRead a s
  | .rst level => .next (setRst level s)

/-- The next step of the machine: the next turn, or, with none coming, the block undisturbed (DESIGN CHOICE, log entry 6). -/
def advance (s : State) : Host.Outcome State Fault Refusal :=
  match s.turns with
  | t :: rest => takeTurn t { s with turns := rest }
  | [] => if s.rst then .next s else runBlock s

/-- The instruction the next step runs, with the state it runs it on: a CMD write that comes next and selects one, or, with no turn
coming, the one the block is at; none while `rst` is asserted (70 R185). -/
def fetch (s : State) : Option (Instr × State) :=
  if s.rst then none
  else
    match s.turns with
    | [] => fetchUnit s
    | .regWrite n v :: rest =>
      if n = 0 then
        match decode (.command v) with
        | .ok i => some (i, { s with turns := rest })
        | .error _ => none
      else none
    | _ :: _ => none

/-! ## Laying a word of the opcode table where the next step fetches it -/

/-- The 18 bytes of a 144-bit record, the first byte the least significant (30 R60). -/
def recordBytes (w : Nat) : Nat → List InItem
  | 0 => []
  | k + 1 => .byte (BitVec.ofNat 8 w) :: recordBytes (w / 256) k

/-- `n` zero bytes on IN. -/
def zeroBytes : Nat → List InItem
  | 0 => []
  | k + 1 => .byte 0 :: zeroBytes k

/-- `s` with a word of the opcode table where the next step fetches it (DESIGN CHOICE, log entry 11): a packet-header byte at the head of IN, followed by
the zero pixel bytes of the longest packet, before a decoder waiting for a packet with room for 128 pixels of three bytes; a CMD value
as the next turn; a record at the head of IN before a parser at its first byte. A width that selects no space leaves `s` as it is. -/
def layWord (s : State) (nbits w : Nat) : State :=
  match tableWord nbits w with
  | some (.packetIn p) =>
    { s with
      rst := false, turns := [], mode := .dec, dstate := .hdr
      geomW := 128, geomH := 1, geomBpp := 3, prod := 0
      inq := .byte p :: zeroBytes 384 }
  | some (.command v) => { s with rst := false, turns := [.regWrite 0 v] }
  | some .recordIn => { s with rst := false, turns := [], mode := .hparse, hcnt := 0, inq := recordBytes w 18 }
  | some (.packetOut _) => s
  | some .recordOut => s
  | none => s

end Sys2Proof.Machine
end

