-- ==== Sys2Proof/Machine/Reference.lean ====
section
/-! DEFINITION. The spec's own functions beside its state machines: packets and their bytes (30_encoding R66 to R68), `decode`
(41 R109), `runlen` (42 R128) and `encode` (42 R129). The machine does not call them; statements compare it with them. -/

namespace Sys2Proof.Machine

/-! ## Packets (30 R66, R67) -/

/-- A packet of the stream as pixels: a run of `n + 1` copies of one pixel, or literal pixels (at most 128). -/
inductive Packet where
  /-- RUN count, (x): the count field is `n`, the count `n + 1`. -/
  | run (n : BitVec 7) (x : List Byte)
  /-- RAW count, (x0) (x1) ...: the count is the number of pixels. -/
  | raw (xs : List (List Byte))
deriving DecidableEq, Repr

/-- The packet is one of the format for `bpp` bytes a pixel: every pixel has `bpp` bytes, and a raw packet has 1 to 128 pixels (R66, R67). -/
def Packet.wf (bpp : Nat) : Packet → Bool
  | .run _ x => x.length == bpp
  | .raw xs => 1 ≤ xs.length && xs.length ≤ Config.maxRun && xs.all (fun x => x.length == bpp)

/-- The bytes of a packet: its header byte, then one pixel or all of them (R66, R67). -/
def Packet.bytes : Packet → List Byte
  | .run n x => packetByte true n :: x
  | .raw xs => packetByte false (BitVec.ofNat 7 (xs.length - 1)) :: xs.flatten

/-- The pixels a packet stands for (R66, R67). -/
def Packet.pixels : Packet → List (List Byte)
  | .run n x => List.replicate (packetCount n).toNat x
  | .raw xs => xs

/-! ## `decode(BPP, CAP, S)` (41 R109) -/

/-- What `decode` returns. -/
inductive DecodeResult where
  /-- The bytes written to PB, the stream bytes consumed, and OVR. -/
  | done (out : List Byte) (used : Nat) (ovr : Bool)
  /-- The bytes written to PB and the stream bytes consumed when the stream ended. -/
  | truncated (out : List Byte) (used : Nat)
deriving DecidableEq, Repr

/-- `loop(out, i)` of R109. The first argument bounds the passes: each pass that goes on consumes at least one byte of `S`, so
`len(S) + 1` of them are enough and the case 0 is never reached from `decodeFn`. -/
def decodeLoop (bpp cap : Nat) (S : List Byte) : Nat → List Byte → Nat → DecodeResult
  | 0, out, i => .truncated out i
  | fuel + 1, out, i =>
    if out.length = cap then .done out i false
    else
      match S.drop i with
      | [] => .truncated out i
      | p :: rest =>
        let count := (packetCount (packetCountField p)).toNat
        let room := (cap - out.length) / bpp
        let m := min count room
        if packetIsRun p then
          if rest.length < bpp then .truncated out S.length
          else
            let out' := out ++ (List.replicate m (rest.take bpp)).flatten
            let i' := i + 1 + bpp
            if room < count then .done out' i' true else decodeLoop bpp cap S fuel out' i'
        else if rest.length < m * bpp then .truncated (out ++ rest) S.length
        else
          let out' := out ++ rest.take (m * bpp)
          let i' := i + 1 + m * bpp
          if room < count then .done out' i' true else decodeLoop bpp cap S fuel out' i'

/-- `decode(BPP, CAP, S)` (R109). -/
def decodeFn (bpp cap : Nat) (S : List Byte) : DecodeResult := decodeLoop bpp cap S (S.length + 1) [] 0

/-! ## `runlen(i)` and `encode(BPP, NPIX, P)` (42 R128, R129) -/

/-- Pixel `k` of a buffer: its bytes `P[k×BPP .. k×BPP + BPP − 1]` (R128). -/
def pixelOf (bpp : Nat) (P : List Byte) (k : Nat) : List Byte := (P.drop (k * bpp)).take bpp

/-- Counts on from `r` while the next pixel is there and equals pixel `i`, for at most the first argument's number of pixels. -/
def countRun (bpp npix : Nat) (P : List Byte) (i : Nat) : Nat → Nat → Nat
  | 0, r => r
  | fuel + 1, r =>
    if i + r < npix ∧ pixelOf bpp P (i + r) = pixelOf bpp P i then countRun bpp npix P i fuel (r + 1) else r

/-- `runlen(i)` (R128): the run counts pixel `i` itself and is capped at 128. -/
def runLen (bpp npix : Nat) (P : List Byte) (i : Nat) : Nat := countRun bpp npix P i (Config.maxRun - 1) 1

/-- `enc(i)` of R129. The first argument bounds the packets; `npix` of them are enough, each covers a pixel. -/
def encodeFrom (bpp npix : Nat) (P : List Byte) : Nat → Nat → List Byte
  | 0, _ => []
  | fuel + 1, i =>
    if npix ≤ i then []
    else
      let r := runLen bpp npix P i
      emitHeader (BitVec.ofNat 8 r) :: (pixelOf bpp P i ++ encodeFrom bpp npix P fuel (i + r))

/-- `encode(BPP, NPIX, P)` (R129). -/
def encodeFn (bpp npix : Nat) (P : List Byte) : List Byte := encodeFrom bpp npix P npix 0

/-- The `k` bytes PB holds from address `a` on, `none` where one of them has not been written. -/
def pbBytes (pb : Memory) : Nat → Nat → Option (List Byte)
  | 0, _ => some []
  | k + 1, a =>
    match memRead pb a, pbBytes pb k (a + 1) with
    | some b, some bs => some (b :: bs)
    | _, _ => none

end Sys2Proof.Machine
end

