-- ==== Sys2Proof/Safety.lean ====
section
/-! DEFINITION. What counts as a safe run, in the terms statements use: the invariants of 10_state R29, 41 R111 and 42 R131 with what keeps
them inductive, and the notions of quiescence and of a run. -/

namespace Sys2Proof.Machine

/-- "The block is then quiescent (it has no step)" (70 R203). -/
def Quiescent (s : State) : Prop := s.mode = .idle ∨ s.mode = .fault

/-- A step that goes on: neither a model fault nor a refusal. -/
def Safe (s : State) : Prop := ∃ t, step s = .next t

/-- `n` atomic steps of the block, with nothing between them; a hold or a block without a step changes nothing (00 R7). -/
def ticks : Nat → State → Host.Outcome State Fault Refusal
  | 0, s => .next s
  | n + 1, s =>
    match tick s with
    | .next s' => ticks n s'
    | .fault r => .fault r
    | .refused r => .refused r

/-- `n` steps of the machine, stopping at the first that does not go on; `Host.Core.run` of the machine (`Laws/Run.lean`). -/
def steps : Nat → State → Host.Outcome State Fault Refusal
  | 0, s => .next s
  | n + 1, s =>
    match step s with
    | .next s' => steps n s'
    | .fault r => .fault r
    | .refused r => .refused r

/-- `EOS` is last on IN, if it is there at all (20 R45). -/
def eosLast : List InItem → Bool
  | [] => true
  | .byte _ :: q => eosLast q
  | .eos :: q => q.isEmpty

/-- The bytes `xs`, then `rest`, on IN. -/
def onIn (xs : List Byte) (rest : List InItem) : List InItem := xs.map InItem.byte ++ rest

/-- The bytes `xs` stand in memory from address `a` on. -/
def HoldsAt (m : Memory) (a : Nat) (xs : List Byte) : Prop := ∀ i, i < xs.length → memRead m (a + i) = xs[i]?

/-- Outside the `len` bytes from address `a` on, `m'` reads as `m`. -/
def SameOutside (m m' : Memory) (a len : Nat) : Prop := ∀ c, c < a ∨ a + len ≤ c → memRead m' c = memRead m c

/-- The register numbers a host may write besides CMD's: GEOM_W, GEOM_H, GEOM_BPP and the twelve HDR_* (43 R141). -/
def WritableNumber (n : Nat) : Prop := (0x04 ≤ n ∧ n ≤ 0x06) ∨ (0x10 ≤ n ∧ n ≤ 0x1B)

/-- Pixel `k` of PB is the first `BPP` bytes of CUR (42 R131). -/
def PixelIsCur (s : State) (k : Nat) : Prop :=
  ∀ j : BitVec 2, j.toNat < s.bpp → memRead s.pb (pixelAddr s.bpp k j.toNat) = some (pixelByte s.cur j)

/-- The first `EBI` bytes of pixel `k` of PB are those of CUR. -/
def PixelStartsCur (s : State) (k : Nat) : Prop :=
  ∀ j : BitVec 2, j.toNat < s.ebi.toNat → memRead s.pb (pixelAddr s.bpp k j.toNat) = some (pixelByte s.cur j)

/-- Pixel `k` of PB has a byte that differs from CUR's (42 R123). -/
def PixelDiffers (s : State) (k : Nat) : Prop :=
  ∃ j : BitVec 2, j.toNat < s.bpp ∧ ∃ b, memRead s.pb (pixelAddr s.bpp k j.toNat) = some b ∧ b ≠ pixelByte s.cur j

/-- The decoder's invariant (41 R111, 10 R29), with the bound on IPOS that R113 gives. -/
structure DecInv (s : State) : Prop where
  /-- R111 (a) -/
  bpp : s.bpp = 3 ∨ s.bpp = 4
  /-- R111 (b) -/
  room : s.prod.toNat < s.cap
  /-- R111 (c) -/
  dbi : s.dbi.toNat < s.bpp
  /-- R111 (d), and DBI is 0 while a header byte is awaited -/
  hdr : s.dstate = .hdr → s.prod.toNat % s.bpp = 0 ∧ s.dbi = 0
  /-- R111 (d) -/
  runPix : s.dstate = .runPix → s.prod.toNat % s.bpp = 0
  /-- R111 (d) -/
  writing : s.dstate = .runOut ∨ s.dstate = .raw → s.prod.toNat % s.bpp = s.dbi.toNat
  /-- R111 (e) -/
  left : s.dstate ≠ .hdr → 1 ≤ s.pktLeft.toNat ∧ s.pktLeft.toNat ≤ 128
  /-- PKT_RUN is the kind of the packet in progress (10 R15) -/
  kind : (s.dstate = .runPix ∨ s.dstate = .runOut → s.pktRun = true) ∧ (s.dstate = .raw → s.pktRun = false)
  /-- OVR is set at completion only (10 R18) -/
  ovr : s.ovr = false
  /-- the bound of R113, by the whole pixels produced -/
  used :
    (s.dstate = .hdr → s.ipos.toNat ≤ s.prod.toNat / s.bpp * (1 + s.bpp)) ∧
    (s.dstate = .runPix → s.ipos.toNat ≤ s.prod.toNat / s.bpp * (1 + s.bpp) + 1 + s.dbi.toNat) ∧
    (s.dstate = .runOut → s.ipos.toNat ≤ (s.prod.toNat / s.bpp + 1) * (1 + s.bpp)) ∧
    (s.dstate = .raw → s.ipos.toNat ≤ s.prod.toNat / s.bpp * (1 + s.bpp) + 1 + s.dbi.toNat)

/-- The encoder's invariant (42 R131, 10 R29), with the bound on OPOS that R134 gives. -/
structure EncInv (s : State) : Prop where
  /-- R131 (a) -/
  bpp : s.bpp = 3 ∨ s.bpp = 4
  /-- R131 (b) -/
  pidx : s.pidx.toNat < s.npix
  /-- R131 (c) -/
  ebi : s.ebi.toNat < s.bpp
  /-- CUR is filled from the first byte on (R122) -/
  load : s.estate = .load → PixelStartsCur s s.pidx.toNat
  /-- R131 (d), and the bytes of the next pixel compared so far are equal -/
  scan : s.estate = .scan →
    1 ≤ s.run.toNat ∧ s.run.toNat ≤ 127 ∧ s.pidx.toNat + s.run.toNat < s.npix ∧
    (∀ k, k < s.run.toNat → PixelIsCur s (s.pidx.toNat + k)) ∧
    PixelStartsCur s (s.pidx.toNat + s.run.toNat)
  /-- R131 (e): RUN is the run length: all its pixels equal CUR, and it cannot be longer -/
  emit : s.estate = .emitHdr ∨ s.estate = .emitPix →
    1 ≤ s.run.toNat ∧ s.run.toNat ≤ 128 ∧ s.pidx.toNat + s.run.toNat ≤ s.npix ∧
    (∀ k, k < s.run.toNat → PixelIsCur s (s.pidx.toNat + k)) ∧
    (s.run.toNat = 128 ∨ s.pidx.toNat + s.run.toNat = s.npix ∨ PixelDiffers s (s.pidx.toNat + s.run.toNat))
  /-- the byte index is 0 when a packet's header byte is due -/
  first : s.estate = .emitHdr → s.ebi = 0
  /-- the bound of R134, by the pixels covered -/
  made :
    (s.estate ≠ .emitPix → s.opos.toNat ≤ s.pidx.toNat * (1 + s.bpp)) ∧
    (s.estate = .emitPix → s.opos.toNat ≤ s.pidx.toNat * (1 + s.bpp) + 1 + s.ebi.toNat)

/-- 10 R29, fourth line, on PROD and PIDX: a completed decode has produced CAP bytes and a completed encode has covered NPIX pixels. CAP and
NPIX are functions of the geometry registers (10 R27), so a geometry write of the idle host (43 R142) ends it, and it is kept by every
other step (DEDUCED, log entry 12). -/
structure CompletionCounts (s : State) : Prop where
  /-- "When MODE = M_IDLE and DONE = 1 and LASTCMD = 3: `PROD = CAP`" -/
  decode : s.mode = .idle → s.done = true → s.lastCmd = 3 → s.prod.toNat = s.cap
  /-- "When MODE = M_IDLE and DONE = 1 and LASTCMD = 4: `PIDX = NPIX`" -/
  encode : s.mode = .idle → s.done = true → s.lastCmd = 4 → s.pidx.toNat = s.npix

/-- The next turn is a write of GEOM_W, GEOM_H or GEOM_BPP that stores its value: to an idle block with rst released (43 R141, 70 R185). -/
def GeometryWriteNext (s : State) : Prop :=
  s.rst = false ∧ s.mode = .idle ∧ ∃ n v rest, s.turns = .regWrite n v :: rest ∧ 0x04 ≤ n ∧ n ≤ 0x06

/-- The invariant of the machine: 10 R29 but for the clauses of `CompletionCounts`, with 10 R18's exclusions, 10 R19, 20 R45 and the form of PB. -/
structure MachineInv (s : State) : Prop where
  /-- PB is in its canonical form -/
  memory : Memory.wf s.pb = true
  /-- PB addresses have 34 bits (20 R40) -/
  pbAddr : ∀ c ∈ s.pb, c.1 < 2 ^ 34
  /-- EOS is last on IN (20 R45) -/
  inEnd : eosLast s.inq = true
  /-- "MODE = M_FAULT if and only if ERR.CODE ≠ 0" (10 R29) -/
  fault : s.mode = .fault ↔ s.errCode ≠ 0
  /-- ERR and ERRARG are 0 while no fault has occurred (10 R19, 43 R150) -/
  noFault : s.mode ≠ .fault → s.errFmode = 0 ∧ s.errarg = 0
  /-- BUSY excludes DONE (10 R18) -/
  busyDone : s.busy = true → s.done = false
  /-- a busy MODE is that of the command accepted last (43 R150) -/
  lastCmd : s.busy = true → s.lastCmd = s.mode.code
  /-- LASTCMD is 0 to 4, and not 0 once a command is done (10 R18) -/
  lastCmdRange : s.lastCmd.toNat ≤ 4 ∧ (s.done = true → s.lastCmd ≠ 0)
  /-- HCNT is below 18 while a header moves (10 R29), and counts the bytes received (40 R88) -/
  parse : s.mode = .hparse → s.hcnt.toNat < 18 ∧ s.ipos.toNat = s.hcnt.toNat
  /-- HCNT counts the bytes sent, and HB holds the packed header (40 R84) -/
  serialize : s.mode = .hser → s.hcnt.toNat < 18 ∧ s.opos.toNat = s.hcnt.toNat ∧ s.hb = pack s.hdr
  /-- "When DONE = 1 and LASTCMD = 1: IPOS = 18" (10 R29) -/
  doneParse : s.done = true → s.lastCmd = 1 → s.ipos = 18
  /-- "When DONE = 1 and LASTCMD = 2: OPOS = 18" (10 R29) -/
  doneSerialize : s.done = true → s.lastCmd = 2 → s.opos = 18
  /-- 41 R111 -/
  dec : s.mode = .dec → DecInv s
  /-- 42 R131 -/
  enc : s.mode = .enc → EncInv s

end Sys2Proof.Machine
end

