-- ==== Sys2Proof/Certificates/Slice0/Obligations.lean ====
section
/-! DEFINITION. The statements for the provers, in the order of OBLIGATIONS.json. Each docstring says which rule of spec/ it formalises. -/

open Sys2Proof Sys2Proof.Machine

/-! ## Encodings -/

/-- Decoding the encoding of an instruction of the table gives it back, every operand at every value (30 R65 to R67, R71, R72;
opcode_table.json). -/
def Obligations.DecodeInvertsEncode : Prop :=
  ∀ i : Instr, i.wf = true → decode (encode i) = .ok i

/-- Every byte is a packet-header byte of the decoder: bit 7 gives the kind, `(p & 0x7F) + 1` the count, which is `p + 1` for a raw
packet (30 R65). -/
def Obligations.EveryByteIsAPacketHeader : Prop :=
  ∀ p : Byte, ∃ n : BitVec 7,
    (packetCount n).toNat = (p &&& 0x7F).toNat + 1 ∧
    1 ≤ (packetCount n).toNat ∧ (packetCount n).toNat ≤ 128 ∧
    (p.getLsbD 7 = true → decode (.packetIn p) = .ok (.decRun n)) ∧
    (p.getLsbD 7 = false → decode (.packetIn p) = .ok (.decRaw n) ∧ (packetCount n).toNat = p.toNat + 1)

/-- The emitted header byte of every run length, and the form it stands for (42 R126; 30 R69). -/
def Obligations.EmittedHeaderByteOfEveryRun : Prop :=
  ∀ r : BitVec 8, 1 ≤ r.toNat → r.toNat ≤ 128 →
    (r.toNat = 1 → emitHeader r = 0x00 ∧ decode (.packetOut (emitHeader r)) = .ok .encEmitRaw1) ∧
    (2 ≤ r.toNat → (emitHeader r).toNat = 128 + (r.toNat - 1) ∧ 0x81 ≤ (emitHeader r).toNat ∧
      ∃ n : BitVec 7, packetCount n = r ∧ decode (.packetOut (emitHeader r)) = .ok (.encEmitRun n))

/-- "The encoder emits only a subset: run packets with header 0x81 to 0xFF and raw packets with header exactly 0x00" (30 R71): what
E_EMIT_HDR pushes is one of these, never 0x01 to 0x7F and never 0x80. -/
def Obligations.EncoderPushesOnlyItsTwoHeaderForms : Prop :=
  ∀ s : State, MachineInv s → s.mode = .enc → s.estate = .emitHdr → s.outReady = true →
    ∃ (t : State) (h : Byte), tick s = .next t ∧ t.outq = s.outq ++ [h] ∧
      ((h = 0x00 ∧ s.run.toNat = 1) ∨ (0x81 ≤ h.toNat ∧ 2 ≤ s.run.toNat ∧ s.run.toNat ≤ 128))

/-- Words written out from the encodings of 30 R65 and R72 decode to the instructions they stand for; a sanity statement. -/
def Obligations.SampleWordsDecode : Prop :=
  decode (.packetIn 0b10000011) = .ok (.decRun 3) ∧
  decode (.packetIn 0b00000001) = .ok (.decRaw 1) ∧
  decode (.packetOut 0b10000001) = .ok (.encEmitRun 1) ∧
  decode (.packetOut 0b00000000) = .ok .encEmitRaw1 ∧
  decode (.packetOut 0b10000000) = .error (.neverEmitted 0x80) ∧
  decode (.command 1) = .ok .cmdHdrParse ∧
  decode (.command 4) = .ok .cmdEncode ∧
  decode (.command 5) = .error (.reservedCommand 5) ∧
  decode .recordIn = .ok .hdrParse ∧
  decode .recordOut = .ok .hdrSerialize

/-- The whole 64-bit CMD value selects the command (30 R72), and every value of 5 or more is reserved (30 R73). -/
def Obligations.CommandIsSelectedByTheWholeValue : Prop :=
  ∀ v : Word,
    (v.toNat = 0 → decode (.command v) = .ok .cmdNop) ∧
    (v.toNat = 1 → decode (.command v) = .ok .cmdHdrParse) ∧
    (v.toNat = 2 → decode (.command v) = .ok .cmdHdrSerialize) ∧
    (v.toNat = 3 → decode (.command v) = .ok .cmdDecode) ∧
    (v.toNat = 4 → decode (.command v) = .ok .cmdEncode) ∧
    (5 ≤ v.toNat → decode (.command v) = .error (.reservedCommand v))

/-- `pack` and `unpack` are inverse bijections (40 R86). -/
def Obligations.PackAndUnpackAreInverse : Prop :=
  (∀ h : Header, unpack (pack h) = h) ∧ (∀ b : Vector Byte 18, pack (unpack b) = b)

/-- The fields of the 18-byte record, as numbers: little-endian, at the offsets of 30 R60 (40 R82, R85). -/
def Obligations.HeaderRecordFields : Prop :=
  (∀ b : Vector Byte 18,
    (unpack b).idLength = b[0] ∧ (unpack b).colorMapType = b[1] ∧ (unpack b).imageType = b[2] ∧
    (unpack b).cmapOrigin.toNat = b[3].toNat + 256 * b[4].toNat ∧
    (unpack b).cmapLength.toNat = b[5].toNat + 256 * b[6].toNat ∧
    (unpack b).cmapDepth = b[7] ∧
    (unpack b).xOrigin.toNat = b[8].toNat + 256 * b[9].toNat ∧
    (unpack b).yOrigin.toNat = b[10].toNat + 256 * b[11].toNat ∧
    (unpack b).width.toNat = b[12].toNat + 256 * b[13].toNat ∧
    (unpack b).height.toNat = b[14].toNat + 256 * b[15].toNat ∧
    (unpack b).bitsPerPixel = b[16] ∧ (unpack b).imageDescriptor = b[17]) ∧
  (∀ h : Header,
    (pack h)[0] = h.idLength ∧ (pack h)[1] = h.colorMapType ∧ (pack h)[2] = h.imageType ∧
    (pack h)[3].toNat = h.cmapOrigin.toNat % 256 ∧ (pack h)[4].toNat = h.cmapOrigin.toNat / 256 % 256 ∧
    (pack h)[5].toNat = h.cmapLength.toNat % 256 ∧ (pack h)[6].toNat = h.cmapLength.toNat / 256 % 256 ∧
    (pack h)[7] = h.cmapDepth ∧
    (pack h)[8].toNat = h.xOrigin.toNat % 256 ∧ (pack h)[9].toNat = h.xOrigin.toNat / 256 % 256 ∧
    (pack h)[10].toNat = h.yOrigin.toNat % 256 ∧ (pack h)[11].toNat = h.yOrigin.toNat / 256 % 256 ∧
    (pack h)[12].toNat = h.width.toNat % 256 ∧ (pack h)[13].toNat = h.width.toNat / 256 % 256 ∧
    (pack h)[14].toNat = h.height.toNat % 256 ∧ (pack h)[15].toNat = h.height.toNat / 256 % 256 ∧
    (pack h)[16] = h.bitsPerPixel ∧ (pack h)[17] = h.imageDescriptor)

/-- A packet's length can be told from its header byte and BPP alone, and is 4 to 513 bytes (30 R68). -/
def Obligations.PacketLengthFromItsHeaderByte : Prop :=
  ∀ (bpp : Nat) (k : Packet), bpp = 3 ∨ bpp = 4 → k.wf bpp = true →
    ∃ (p : Byte) (xs : List Byte), k.bytes = p :: xs ∧ k.bytes.length = packetLength p bpp ∧
      4 ≤ k.bytes.length ∧ k.bytes.length ≤ 513

/-! ## The step -/

/-- A step runs the decoded instruction: a CMD write that comes next (43 R143); with the host passive, the packet whose header byte is at the
head of IN (popped and counted), the packet form the counted run selects, and the header operation of the running unit. That one step
with no turn coming runs a whole instruction is the MODEL'S CHOICE (log entry 6; 70 R202 lets several atomic steps be done at once), and that
the fetch pops and counts the packet-header byte is the MODEL'S CHOICE (log entry 20). -/
def Obligations.StepRunsTheDecodedInstruction : Prop :=
  ∀ s : State, s.rst = false →
    (∀ v rest i, s.turns = .regWrite 0 v :: rest → decode (.command v) = .ok i →
      step s = exec i { s with turns := rest }) ∧
    (∀ p q i, s.turns = [] → s.mode = .dec → s.dstate = .hdr → s.inq = .byte p :: q → decode (.packetIn p) = .ok i →
      step s = exec i { s with inq := q, ipos := s.ipos + 1 }) ∧
    (∀ i, s.turns = [] → s.mode = .enc → s.estate = .emitHdr → decode (.packetOut (emitHeader s.run)) = .ok i →
      step s = exec i s) ∧
    (s.turns = [] → s.mode = .hparse → step s = exec .hdrParse s) ∧
    (s.turns = [] → s.mode = .hser → step s = exec .hdrSerialize s)

/-- A turn of the block is one atomic step, and an idle block or one in M_FAULT has no step and keeps all its state (00 R6; 43 R149,
R152; 70 R203). -/
def Obligations.BlockTurnIsOneAtomicStep : Prop :=
  ∀ s : State, s.rst = false →
    (∀ rest, s.turns = .blockStep :: rest → step s = tick { s with turns := rest }) ∧
    (Quiescent s → tick s = .next s) ∧
    (Quiescent s → s.turns = [] → step s = .next s)

/-- An undisturbed step is nothing but a number of atomic steps: the instruction as a whole does what its byte-per-step state machine does
(70 R202, 00 R6). -/
def Obligations.UndisturbedStepIsAtomicSteps : Prop :=
  ∀ s : State, MachineInv s → s.turns = [] → s.rst = false →
    ∃ k, 1 ≤ k ∧ k ≤ 517 ∧ step s = ticks k s

/-! ## Reset -/

/-- After reset every storage element of the block holds 0, and PB, INQ and OUTQ are as they were (10 R28, 70 R186). -/
def Obligations.ResetClearsEveryStorageElement : Prop :=
  ∀ s : State, let r := resetBlock s
    (r.mode = .idle ∧ r.dstate = .hdr ∧ r.estate = .load ∧ r.hcnt = 0 ∧ r.hb = Vector.replicate 18 0 ∧
      r.pktRun = false ∧ r.pktLeft = 0 ∧ r.pix = Vector.replicate 4 0 ∧ r.dbi = 0 ∧
      r.cur = Vector.replicate 4 0 ∧ r.run = 0 ∧ r.ebi = 0 ∧
      r.done = false ∧ r.ovr = false ∧ r.lastCmd = 0 ∧ r.errCode = 0 ∧ r.errFmode = 0 ∧ r.errarg = 0 ∧
      r.geomW = 0 ∧ r.geomH = 0 ∧ r.geomBpp = 0 ∧ r.ipos = 0 ∧ r.opos = 0 ∧ r.prod = 0 ∧ r.pidx = 0) ∧
    (∀ n, regRead n r = 0) ∧
    (r.pb = s.pb ∧ r.inq = s.inq ∧ r.outq = s.outq) ∧
    (∀ n, regRead n State.reset = 0) ∧ State.reset.mode = .idle ∧
    (∀ t, exec .cmdDecode r = .next t → t.errCode = 3) ∧ (∀ t, exec .cmdEncode r = .next t → t.errCode = 3)

/-- The reset input asserted and released, whatever the block was doing, and whatever block step or register write is tried in between:
the block is in its reset state, and PB, INQ and OUTQ are untouched (70 R185, R187, R188). That it holds its reset values from the assertion on
is the MODEL'S CHOICE (log entry 4). -/
def Obligations.ResetLineAbandonsWhateverRuns : Prop :=
  ∀ (s : State) (t : Turn) (rest : List Turn),
    t = .blockStep ∨ (∃ n v, t = .regWrite n v) →
    steps 3 { s with turns := .rst true :: t :: .rst false :: rest } =
      .next { resetBlock s with rst := false, turns := rest }

/-! ## Commands -/

/-- CMD.NOP changes nothing, in any MODE, as an instruction and as a write (43 R144). -/
def Obligations.NopChangesNothing : Prop :=
  ∀ s : State, exec .cmdNop s = .next s ∧
    (∀ rest, s.turns = .regWrite 0 0 :: rest → step s = .next { s with turns := rest })

/-- An idle block accepts a command in the one step of the write (43 R150; 41 R96, R108; 42 R121, R137). -/
def Obligations.IdleBlockStartsTheCommand : Prop :=
  ∀ s : State, s.mode = .idle →
    exec .cmdHdrParse s = .next { s with
      done := false, ovr := false, lastCmd := 1, ipos := 0, opos := 0, prod := 0, pidx := 0
      mode := .hparse, hcnt := 0 } ∧
    exec .cmdHdrSerialize s = .next { s with
      done := false, ovr := false, lastCmd := 2, ipos := 0, opos := 0, prod := 0, pidx := 0
      mode := .hser, hcnt := 0, hb := pack s.hdr } ∧
    (s.bpp = 3 ∨ s.bpp = 4 →
      (s.cap = 0 → exec .cmdDecode s = .next { s with
        done := true, ovr := false, lastCmd := 3, ipos := 0, opos := 0, prod := 0, pidx := 0 }) ∧
      (s.cap ≠ 0 → exec .cmdDecode s = .next { s with
        done := false, ovr := false, lastCmd := 3, ipos := 0, opos := 0, prod := 0, pidx := 0
        mode := .dec, dstate := .hdr, dbi := 0 }) ∧
      (s.npix = 0 → exec .cmdEncode s = .next { s with
        done := true, ovr := false, lastCmd := 4, ipos := 0, opos := 0, prod := 0, pidx := 0 }) ∧
      (s.npix ≠ 0 → exec .cmdEncode s = .next { s with
        done := false, ovr := false, lastCmd := 4, ipos := 0, opos := 0, prod := 0, pidx := 0
        mode := .enc, estate := .load, ebi := 0 }))

/-- A non-zero value written to CMD while BUSY raises CmdWhileBusy with the value and the running unit's MODE (60 R165). -/
def Obligations.CommandWhileBusyFaults : Prop :=
  ∀ (s : State) (v : Word) (rest : List Turn),
    s.rst = false → s.busy = true → v ≠ 0 → s.turns = .regWrite 0 v :: rest →
    step s = .next { s with
      turns := rest, errFmode := s.mode.code, errCode := 5, errarg := v, mode := .fault }

/-- A value of 5 or more written to CMD while idle raises CmdIllegal with the whole value (60 R164). -/
def Obligations.ReservedCommandFaults : Prop :=
  ∀ (s : State) (v : Word) (rest : List Turn),
    s.rst = false → s.mode = .idle → 5 ≤ v.toNat → s.turns = .regWrite 0 v :: rest →
    step s = .next { s with turns := rest, errFmode := 0, errCode := 4, errarg := v, mode := .fault }

/-- CMD.DECODE and CMD.ENCODE with another GEOM_BPP than 3 or 4 raise ConfigError with it, and start nothing; with 3 or 4 they raise nothing,
whatever the width and height (60 R163). -/
def Obligations.IllegalBytesPerPixelFaults : Prop :=
  ∀ s : State, s.mode = .idle →
    (s.bpp ≠ 3 → s.bpp ≠ 4 →
      exec .cmdDecode s = .next { s with
        errFmode := 0, errCode := 3, errarg := BitVec.ofNat 64 s.bpp, mode := .fault } ∧
      exec .cmdEncode s = .next { s with
        errFmode := 0, errCode := 3, errarg := BitVec.ofNat 64 s.bpp, mode := .fault }) ∧
    (s.bpp = 3 ∨ s.bpp = 4 →
      (∃ t, exec .cmdDecode s = .next t ∧ t.mode ≠ .fault ∧ t.errCode = s.errCode) ∧
      (∃ t, exec .cmdEncode s = .next t ∧ t.mode ≠ .fault ∧ t.errCode = s.errCode))

/-- The tests of a CMD write, in their order (43 R143). -/
def Obligations.CommandTestsInTheirOrder : Prop :=
  ∀ (s : State) (v : Word) (rest : List Turn),
    s.rst = false → s.mode ≠ .fault → s.turns = .regWrite 0 v :: rest →
    let s' := { s with turns := rest }
    step s = .next
      (if v.toNat = 0 then s'
       else if s.mode ≠ .idle then raise .cmdWhileBusy v s'
       else if 5 ≤ v.toNat then raise .cmdIllegal v s'
       else if (v.toNat = 3 ∨ v.toNat = 4) ∧ ¬(s.bpp = 3 ∨ s.bpp = 4) then
         raise .configError (BitVec.ofNat 64 s.bpp) s'
       else if v.toNat = 1 then startParse s'
       else if v.toNat = 2 then startSerialize s'
       else if v.toNat = 3 then startDecode s'
       else startEncode s')

/-- Taking a fault records MODE, the code and the argument, enters M_FAULT, and changes nothing else (60 R173), with the codes of 60 R160. -/
def Obligations.TakingAFaultRecordsItAndStops : Prop :=
  ∀ (s : State) (f : BlockFault) (arg : Word),
    raise f arg s = { s with errFmode := s.mode.code, errCode := f.code, errarg := arg, mode := .fault } ∧
    statusWord (raise f arg s) &&& 5 = 4 ∧
    (BlockFault.formatError.code = 1 ∧ BlockFault.truncatedStream.code = 2 ∧ BlockFault.configError.code = 3 ∧
      BlockFault.cmdIllegal.code = 4 ∧ BlockFault.cmdWhileBusy.code = 5 ∧ BlockFault.writeWhileBusy.code = 6)

/-- "In M_FAULT every register write, CMD included, has no effect, and the block takes no step. Reads work as in every other MODE"
(43 R152). -/
def Obligations.FaultStateIgnoresWritesAndSteps : Prop :=
  ∀ s : State, s.rst = false → s.mode = .fault →
    (∀ n v rest, s.turns = .regWrite n v :: rest → step s = .next { s with turns := rest }) ∧
    (∀ rest, s.turns = .blockStep :: rest → step s = .next { s with turns := rest }) ∧
    (∀ n rest, s.turns = .regRead n :: rest →
      step s = .next { s with turns := rest, hostData := regRead n s }) ∧
    (s.turns = [] → step s = .next s) ∧
    statusWord s &&& 5 = 4

/-- No command, register write or block step leaves M_FAULT or clears ERR: only reset does (60 R174). The last clause is said of the release
of rst, which is where 70 R185 gives the state. -/
def Obligations.OnlyResetLeavesTheFaultState : Prop :=
  ∀ s : State, s.mode = .fault → s.rst = false →
    (∀ t, step s = .next t → (∀ rest, s.turns ≠ .rst true :: rest) →
      t.mode = .fault ∧ t.rst = false ∧ t.errCode = s.errCode ∧ t.errFmode = s.errFmode ∧ t.errarg = s.errarg ∧
      regRead 0x02 t = regRead 0x02 s ∧ regRead 0x03 t = regRead 0x03 s) ∧
    (∀ rest, s.turns = .rst true :: .rst false :: rest →
      ∃ t, steps 2 s = .next t ∧ t.rst = false ∧ t.mode = .idle ∧ regRead 0x02 t = 0 ∧ regRead 0x03 t = 0)

/-- A write to a geometry or header register while BUSY raises WriteWhileBusy with the register's number; the register is not written
(60 R166). -/
def Obligations.RegisterWriteWhileBusyFaults : Prop :=
  ∀ (s : State) (n : Nat) (v : Word) (rest : List Turn),
    s.rst = false → s.busy = true → WritableNumber n → s.turns = .regWrite n v :: rest →
    step s = .next { s with
      turns := rest, errFmode := s.mode.code, errCode := 6, errarg := BitVec.ofNat 64 n, mode := .fault }

/-- A write to a read-only register, a view or an unmapped number has no effect in any MODE (43 R142). -/
def Obligations.WriteElsewhereHasNoEffect : Prop :=
  ∀ (s : State) (n : Nat) (v : Word) (rest : List Turn),
    n ≠ 0 → ¬ WritableNumber n → s.turns = .regWrite n v :: rest →
    step s = .next { s with turns := rest }

/-- A write to a writable register of an idle block stores the value's low bits, as many as the register has; every other register but the
views reads as before, and nothing but a geometry or header register changes (43 R141, R142). -/
def Obligations.IdleWriteStoresTheLowBits : Prop :=
  ∀ (s : State) (n : Nat) (v : Word) (rest : List Turn),
    s.rst = false → s.mode = .idle → WritableNumber n → s.turns = .regWrite n v :: rest →
    ∃ (r : Reg) (t : State), regOfNumber n = some r ∧ step s = .next t ∧
      (regRead n t).toNat = v.toNat % 2 ^ regWidth r ∧
      (∀ k, k ≠ n → k ≠ 0x1C → k ≠ 0x1D → regRead k t = regRead k s) ∧
      t = { s with geomW := t.geomW, geomH := t.geomH, geomBpp := t.geomBpp, hdr := t.hdr, turns := rest }

/-- A register read returns the register zero-extended, 0 for CMD and for an unmapped number, in every MODE, and changes nothing of the
block (43 R140). -/
def Obligations.ReadReturnsTheRegisterAndChangesNothing : Prop :=
  ∀ s : State,
    (∀ n rest, s.rst = false → s.turns = .regRead n :: rest →
      step s = .next { s with turns := rest, hostData := regRead n s }) ∧
    regRead 0x00 s = 0 ∧
    (∀ n, (0x0B ≤ n ∧ n ≤ 0x0F) ∨ 0x1E ≤ n → regRead n s = 0) ∧
    regRead 0x01 s = statusWord s ∧ regRead 0x02 s = errWord s ∧ regRead 0x03 s = s.errarg ∧
    (regRead 0x04 s).toNat = s.geomW.toNat ∧ (regRead 0x05 s).toNat = s.geomH.toNat ∧
    (regRead 0x06 s).toNat = s.geomBpp.toNat ∧ (regRead 0x07 s).toNat = s.ipos.toNat ∧
    (regRead 0x08 s).toNat = s.opos.toNat ∧ (regRead 0x09 s).toNat = s.prod.toNat ∧
    (regRead 0x0A s).toNat = s.pidx.toNat ∧
    (regRead 0x10 s).toNat = s.hdr.idLength.toNat ∧ (regRead 0x11 s).toNat = s.hdr.colorMapType.toNat ∧
    (regRead 0x12 s).toNat = s.hdr.imageType.toNat ∧ (regRead 0x13 s).toNat = s.hdr.cmapOrigin.toNat ∧
    (regRead 0x14 s).toNat = s.hdr.cmapLength.toNat ∧ (regRead 0x15 s).toNat = s.hdr.cmapDepth.toNat ∧
    (regRead 0x16 s).toNat = s.hdr.xOrigin.toNat ∧ (regRead 0x17 s).toNat = s.hdr.yOrigin.toNat ∧
    (regRead 0x18 s).toNat = s.hdr.width.toNat ∧ (regRead 0x19 s).toNat = s.hdr.height.toNat ∧
    (regRead 0x1A s).toNat = s.hdr.bitsPerPixel.toNat ∧ (regRead 0x1B s).toNat = s.hdr.imageDescriptor.toNat ∧
    (regRead 0x1C s).toNat = (bppView s.hdr).toNat ∧ (regRead 0x1D s).toNat = (originView s.hdr).toNat

/-- The fields of STATUS (10 R18). -/
def Obligations.StatusFields : Prop :=
  ∀ s : State,
    ((statusWord s).getLsbD 0 = true ↔ s.mode = .hparse ∨ s.mode = .hser ∨ s.mode = .dec ∨ s.mode = .enc) ∧
    (statusWord s).getLsbD 1 = s.done ∧
    ((statusWord s).getLsbD 2 = true ↔ s.mode = .fault) ∧
    (statusWord s).getLsbD 3 = s.ovr ∧
    (statusWord s).toNat / 16 = s.lastCmd.toNat

/-- The fields of ERR (10 R19). -/
def Obligations.ErrFields : Prop :=
  ∀ s : State, (errWord s).toNat = s.errFmode.toNat * 256 + s.errCode.toNat

/-- HDR_BPP_VIEW is the quotient of HDR_BITS_PER_PIXEL by 8 and HDR_ORIGIN_VIEW bits 5:4 of HDR_IMAGE_DESCRIPTOR, bit 4 the less
significant; writes to them are ignored (10 R22). -/
def Obligations.HeaderViews : Prop :=
  ∀ s : State,
    (regRead 0x1C s).toNat = s.hdr.bitsPerPixel.toNat / 8 ∧
    (regRead 0x1D s).toNat = s.hdr.imageDescriptor.toNat / 16 % 4 ∧
    (∀ n v rest, n = 0x1C ∨ n = 0x1D → s.turns = .regWrite n v :: rest → step s = .next { s with turns := rest })

/-! ## Header codec -/

/-- HDR.PARSE with 18 bytes on IN loads all twelve registers, removes the 18 bytes and completes (40 R80): from a parser at its first byte,
and from the command on, where IPOS ends at 18. -/
def Obligations.ParseLoadsTheHeader : Prop :=
  ∀ (s : State) (x : Vector Byte 18) (rest : List InItem), s.inq = onIn x.toList rest →
    (s.mode = .hparse → s.hcnt = 0 →
      exec .hdrParse s = .next { s with
        mode := .idle, done := true, hcnt := 18, hb := x, hdr := unpack x, ipos := s.ipos + 18, inq := rest }) ∧
    (s.mode = .idle → ∃ s1, exec .cmdHdrParse s = .next s1 ∧
      exec .hdrParse s1 = .next { s with
        mode := .idle, done := true, ovr := false, lastCmd := 1, hcnt := 18, hb := x, hdr := unpack x
        ipos := 18, opos := 0, prod := 0, pidx := 0, inq := rest })

/-- Fewer than 18 bytes before EOS: FormatError with the count of bytes received; they are in HB and gone from IN, EOS is still at its head,
and the header registers are unchanged (40 R88, 60 R161). -/
def Obligations.ShortHeaderRaisesFormatError : Prop :=
  ∀ (s : State) (x : List Byte) (rest : List InItem),
    s.mode = .hparse → s.hcnt = 0 → s.ipos = 0 → x.length < 18 → s.inq = onIn x (.eos :: rest) →
    ∃ t, exec .hdrParse s = .next t ∧
      t.mode = .fault ∧ t.errCode = 1 ∧ t.errFmode = 1 ∧ t.errarg.toNat = x.length ∧
      t.hcnt.toNat = x.length ∧ t.ipos.toNat = x.length ∧ t.inq = .eos :: rest ∧
      (∀ i, i < x.length → t.hb[i]? = x[i]?) ∧ (∀ i, x.length ≤ i → t.hb[i]? = s.hb[i]?) ∧
      t = { s with
        mode := .fault, errCode := 1, errFmode := 1, errarg := t.errarg
        hcnt := t.hcnt, ipos := t.ipos, inq := t.inq, hb := t.hb }

/-- One step of the parser: a byte into HB, the twelve registers together and only with the eighteenth, FormatError at EOS, a hold on an
empty IN (40 R81). -/
def Obligations.ParserStepMovesOneByte : Prop :=
  ∀ s : State,
    (s.mode = .idle → ∃ t, exec .cmdHdrParse s = .next t ∧ t.mode = .hparse ∧ t.hcnt = 0) ∧
    (s.mode = .hparse →
      (s.inq = [] → tick s = .next s) ∧
      (∀ q, s.inq = .eos :: q → tick s = .next { s with
        mode := .fault, errCode := 1, errFmode := 1, errarg := BitVec.ofNat 64 s.hcnt.toNat }) ∧
      (∀ b q, s.inq = .byte b :: q → s.hcnt.toNat < 17 → tick s = .next { s with
        inq := q, ipos := s.ipos + 1, hb := s.hb.setIfInBounds s.hcnt.toNat b, hcnt := s.hcnt + 1 }) ∧
      (∀ b q, s.inq = .byte b :: q → s.hcnt.toNat = 17 → tick s = .next { s with
        inq := q, ipos := s.ipos + 1, hb := s.hb.setIfInBounds 17 b, hcnt := 18
        hdr := unpack (s.hb.setIfInBounds 17 b), mode := .idle, done := true }))

/-- HDR.SERIALIZE pushes the bytes of HB, in offset order, and completes; from the command on, which packs the header at once, these are the
18 packed header bytes, and OPOS ends at 18 (40 R83). A serializer that held goes on at HCNT; its single step pushes HB[HCNT] and completes with the eighteenth byte, and holds
while the host does not accept (40 R84). -/
def Obligations.SerializePushesThePackedHeader : Prop :=
  ∀ s : State,
    (s.outReady = true → s.mode = .idle → ∃ s1, exec .cmdHdrSerialize s = .next s1 ∧
      s1.mode = .hser ∧ s1.hcnt = 0 ∧ s1.hb = pack s.hdr ∧
      exec .hdrSerialize s1 = .next { s with
        mode := .idle, done := true, ovr := false, lastCmd := 2, hcnt := 18, hb := pack s.hdr
        ipos := 0, opos := 18, prod := 0, pidx := 0, outq := s.outq ++ (pack s.hdr).toList }) ∧
    (s.outReady = true → s.mode = .hser → s.hcnt.toNat < 18 →
      exec .hdrSerialize s = .next { s with
        mode := .idle, done := true, hcnt := 18
        outq := s.outq ++ s.hb.toList.drop s.hcnt.toNat, opos := s.opos + BitVec.ofNat 35 (18 - s.hcnt.toNat) }) ∧
    (s.outReady = true → s.mode = .hser → ∀ b, s.hb[s.hcnt.toNat]? = some b →
      (s.hcnt.toNat < 17 → tick s = .next { s with
        outq := s.outq ++ [b], opos := s.opos + 1, hcnt := s.hcnt + 1 }) ∧
      (s.hcnt.toNat = 17 → tick s = .next { s with
        outq := s.outq ++ [b], opos := s.opos + 1, hcnt := 18, mode := .idle, done := true })) ∧
    (s.outReady = false → s.mode = .hser → s.hcnt.toNat < 18 → tick s = .next s ∧ exec .hdrSerialize s = .next s)

/-! ## Decoder -/

/-- DEC.RUN as a whole (41 R98): with its header byte and its one pixel `x` on IN, `min count room` copies of the pixel are written at PROD,
`1 + BPP` bytes are consumed, OVR is set when the packet stands for more pixels than there is room for, and the decode completes
exactly when capacity is reached (R103). `s` is the state with the header byte still at the head of IN, `s1` the one after its fetch. -/
def Obligations.RunPacketExpandsItsPixel : Prop :=
  ∀ (s : State) (n : BitVec 7) (x : List Byte) (rest : List InItem),
    s.mode = .dec → s.dstate = .hdr → s.bpp = 3 ∨ s.bpp = 4 → s.prod.toNat < s.cap → s.prod.toNat % s.bpp = 0 →
    x.length = s.bpp → s.inq = .byte (packetByte true n) :: onIn x rest →
    let count := (packetCount n).toNat
    let room := (s.cap - s.prod.toNat) / s.bpp
    let m := min count room
    let full : Bool := s.prod.toNat + m * s.bpp = s.cap
    let s1 := { s with inq := onIn x rest, ipos := s.ipos + 1 }
    fetchUnit s = some (.decRun n, s1) ∧
    ∃ t, exec (.decRun n) s1 = .next t ∧
      HoldsAt t.pb s.prod.toNat (List.replicate m x).flatten ∧
      SameOutside s.pb t.pb s.prod.toNat (m * s.bpp) ∧
      t.prod.toNat = s.prod.toNat + m * s.bpp ∧
      (∀ j : BitVec 2, pixelByte t.pix j = if j.toNat < s.bpp then (x[j.toNat]?).getD 0 else pixelByte s.pix j) ∧
      t = { s with
        pb := t.pb, prod := t.prod, pix := t.pix, inq := rest
        ipos := s.ipos + 1 + BitVec.ofNat 35 s.bpp
        pktRun := true, pktLeft := BitVec.ofNat 8 (count - m), dbi := 0
        dstate := if full then .runOut else .hdr
        ovr := s.ovr || decide (room < count)
        mode := if full then .idle else .dec
        done := s.done || full }

/-- DEC.RAW as a whole (41 R101): with its header byte and the literals that fit on IN, those are copied to PROD on, `1 + m × BPP` bytes are
consumed, the literals that do not fit stay on IN, OVR is set then, and the decode completes exactly when capacity is reached. -/
def Obligations.RawPacketCopiesItsPixels : Prop :=
  ∀ (s : State) (n : BitVec 7) (x : List Byte) (rest : List InItem),
    s.mode = .dec → s.dstate = .hdr → s.bpp = 3 ∨ s.bpp = 4 → s.prod.toNat < s.cap → s.prod.toNat % s.bpp = 0 →
    x.length = min (packetCount n).toNat ((s.cap - s.prod.toNat) / s.bpp) * s.bpp →
    s.inq = .byte (packetByte false n) :: onIn x rest →
    let count := (packetCount n).toNat
    let room := (s.cap - s.prod.toNat) / s.bpp
    let m := min count room
    let full : Bool := s.prod.toNat + m * s.bpp = s.cap
    let s1 := { s with inq := onIn x rest, ipos := s.ipos + 1 }
    fetchUnit s = some (.decRaw n, s1) ∧
    ∃ t, exec (.decRaw n) s1 = .next t ∧
      HoldsAt t.pb s.prod.toNat x ∧
      SameOutside s.pb t.pb s.prod.toNat (m * s.bpp) ∧
      t.prod.toNat = s.prod.toNat + m * s.bpp ∧
      t = { s with
        pb := t.pb, prod := t.prod, inq := rest
        ipos := s.ipos + 1 + BitVec.ofNat 35 (m * s.bpp)
        pktRun := false, pktLeft := BitVec.ofNat 8 (count - m), dbi := 0
        dstate := if full then .raw else .hdr
        ovr := s.ovr || decide (room < count)
        mode := if full then .idle else .dec
        done := s.done || full }

/-- A run packet whose pixel is cut short by the end of the stream: TruncatedStream with IPOS, the bytes read in PIX and nothing written to PB
for the packet (41 R98 faults, R99, R106; 60 R162). -/
def Obligations.RunPacketCutShortFaults : Prop :=
  ∀ (s : State) (n : BitVec 7) (x : List Byte) (rest : List InItem),
    s.mode = .dec → s.dstate = .hdr → s.bpp = 3 ∨ s.bpp = 4 → x.length < s.bpp → s.inq = onIn x (.eos :: rest) →
    ∃ t, exec (.decRun n) s = .next t ∧
      t.pb = s.pb ∧ t.prod = s.prod ∧ t.errarg = t.ipos.zeroExtend 64 ∧
      (∀ j : BitVec 2, pixelByte t.pix j = if j.toNat < x.length then (x[j.toNat]?).getD 0 else pixelByte s.pix j) ∧
      t = { s with
        pix := t.pix, inq := .eos :: rest, ipos := s.ipos + BitVec.ofNat 35 x.length
        pktRun := true, pktLeft := packetCount n, dbi := BitVec.ofNat 2 x.length, dstate := .runPix
        errCode := 2, errFmode := 3, errarg := t.errarg, mode := .fault }

/-- A raw packet whose needed literals are cut short by the end of the stream: the literals read have been written, one byte per step, and
then TruncatedStream is raised with IPOS (41 R101 faults, R106; 60 R162). -/
def Obligations.RawPacketCutShortFaults : Prop :=
  ∀ (s : State) (n : BitVec 7) (x : List Byte) (rest : List InItem),
    s.mode = .dec → s.dstate = .hdr → s.bpp = 3 ∨ s.bpp = 4 → s.prod.toNat < s.cap → s.prod.toNat % s.bpp = 0 →
    x.length < min (packetCount n).toNat ((s.cap - s.prod.toNat) / s.bpp) * s.bpp →
    s.inq = onIn x (.eos :: rest) →
    ∃ t, exec (.decRaw n) s = .next t ∧
      HoldsAt t.pb s.prod.toNat x ∧ SameOutside s.pb t.pb s.prod.toNat x.length ∧
      t.prod.toNat = s.prod.toNat + x.length ∧ t.errarg = t.ipos.zeroExtend 64 ∧
      t = { s with
        pb := t.pb, prod := t.prod, inq := .eos :: rest, ipos := s.ipos + BitVec.ofNat 35 x.length
        pktRun := false, pktLeft := BitVec.ofNat 8 ((packetCount n).toNat - x.length / s.bpp)
        dbi := BitVec.ofNat 2 (x.length % s.bpp), dstate := .raw
        errCode := 2, errFmode := 3, errarg := t.errarg, mode := .fault }

/-- "The decoder raises TruncatedStream in exactly three places, each an `InPop()` that returns EOS", with IPOS as its argument, PB keeping
what was written and EOS staying at the head of IN (41 R106; 60 R171). -/
def Obligations.TruncatedStreamInExactlyThreePlaces : Prop :=
  ∀ s : State, s.mode = .dec →
    (∀ q, s.inq = .eos :: q → s.dstate ≠ .runOut → tick s = .next { s with
      errCode := 2, errFmode := 3, errarg := s.ipos.zeroExtend 64, mode := .fault }) ∧
    (∀ t, tick s = .next t → t.mode = .fault → s.dstate ≠ .runOut ∧ ∃ q, s.inq = .eos :: q)

/-- The decoder agrees with the function `decode` (41 R110), with the host passive once it has written 3 to CMD and supplied `S` and EOS; the
number of steps is bounded as 41 R114 bounds it (and one for the CMD write). -/
def Obligations.DecodeAgreesWithTheFunction : Prop :=
  ∀ (s : State) (S : List Byte),
    s.mode = .idle → s.rst = false → s.bpp = 3 ∨ s.bpp = 4 → s.inq = onIn S [.eos] → s.turns = [.regWrite 0 3] →
    ∃ (k : Nat) (t : State), k ≤ 2 * (s.cap + s.npix) + 2 ∧ steps k s = .next t ∧
      t.hdr = s.hdr ∧ t.geomW = s.geomW ∧ t.geomH = s.geomH ∧ t.geomBpp = s.geomBpp ∧ t.outq = s.outq ∧
      match decodeFn s.bpp s.cap S with
      | .done out used ovr =>
        t.mode = .idle ∧ t.done = true ∧ t.ovr = ovr ∧ t.prod.toNat = s.cap ∧ t.ipos.toNat = used ∧
        out.length = s.cap ∧ HoldsAt t.pb 0 out ∧ SameOutside s.pb t.pb 0 s.cap ∧
        t.inq = onIn (S.drop used) [.eos]
      | .truncated out used =>
        t.mode = .fault ∧ t.errCode = 2 ∧ t.errFmode = 3 ∧ t.errarg.toNat = used ∧ t.ipos.toNat = used ∧
        t.prod.toNat = out.length ∧ HoldsAt t.pb 0 out ∧ SameOutside s.pb t.pb 0 out.length ∧
        t.inq = [.eos]

/-- A decode writes PB addresses in strictly increasing order, one byte per writing step, and never reads PB (41 R112): a step that writes,
writes one byte at PROD and moves PROD by one; and whatever PB holds, the step does the same to everything else and writes the same byte. -/
def Obligations.DecodeWritesInOrderAndNeverReads : Prop :=
  ∀ s t : State, s.mode = .dec → tick s = .next t →
    (t.prod = s.prod ∧ t.pb = s.pb ∧ ∀ m : Memory, tick { s with pb := m } = .next { t with pb := m }) ∨
    (t.prod = s.prod + 1 ∧ ∃ v : Byte, t.pb = memWrite s.pb s.prod.toNat v ∧
      ∀ m : Memory, tick { s with pb := m } = .next { t with pb := memWrite m s.prod.toNat v })

/-- A stream of packets of the format, followed by anything, decodes to exactly the pixels they stand for when those fill the buffer, and
what follows is not consumed (30 R66, R67, R74; 41 R107, R109). -/
def Obligations.PacketStreamDecodesToItsPixels : Prop :=
  ∀ (bpp : Nat) (ks : List Packet) (tail : List Byte), bpp = 3 ∨ bpp = 4 → (∀ k ∈ ks, k.wf bpp = true) →
    let body := (ks.map Packet.bytes).flatten
    let pixels := (ks.map Packet.pixels).flatten
    decodeFn bpp (pixels.length * bpp) (body ++ tail) = .done pixels.flatten body.length false

/-! ## Encoder -/

/-- ENC.EMIT_RUN as a whole (42 R124): the header byte `0x80 | (run - 1)` and the pixel's bytes are appended to OUT, OPOS and PIDX move, and the
encode completes exactly when the last pixel has been covered (R127). `run` is `n + 1`, 2 to 128. RUN holds it already on every step of the machine;
where RUN holds another value, the clauses on RUN, the header byte and PIDX rest on log entry 13 (DEDUCED): exec takes the run from its operand. -/
def Obligations.EmitRunPacket : Prop :=
  ∀ (s : State) (n : BitVec 7),
    s.mode = .enc → s.estate = .emitHdr → s.bpp = 3 ∨ s.bpp = 4 → s.outReady = true →
    1 ≤ n.toNat → s.pidx.toNat + (n.toNat + 1) ≤ s.npix →
    let last : Bool := s.pidx.toNat + (n.toNat + 1) = s.npix
    exec (.encEmitRun n) s = .next { s with
      outq := s.outq ++ (0x80 ||| n.zeroExtend 8) :: s.cur.toList.take s.bpp
      opos := s.opos + 1 + BitVec.ofNat 35 s.bpp
      pidx := s.pidx + BitVec.ofNat 32 (n.toNat + 1)
      run := BitVec.ofNat 8 (n.toNat + 1), ebi := 0
      estate := if last then .emitPix else .load
      mode := if last then .idle else .enc
      done := s.done || last }

/-- ENC.EMIT_RAW1 as a whole (42 R125): header byte 0x00 and the pixel's bytes, PIDX moved by one. RUN is 1 already on every step of the machine;
where RUN holds another value, the clauses on RUN, the header byte and PIDX rest on log entry 13 (DEDUCED). -/
def Obligations.EmitSinglePixelPacket : Prop :=
  ∀ s : State,
    s.mode = .enc → s.estate = .emitHdr → s.bpp = 3 ∨ s.bpp = 4 → s.outReady = true → s.pidx.toNat + 1 ≤ s.npix →
    let last : Bool := s.pidx.toNat + 1 = s.npix
    exec .encEmitRaw1 s = .next { s with
      outq := s.outq ++ 0x00 :: s.cur.toList.take s.bpp
      opos := s.opos + 1 + BitVec.ofNat 35 s.bpp
      pidx := s.pidx + 1
      run := 1, ebi := 0
      estate := if last then .emitPix else .load
      mode := if last then .idle else .enc
      done := s.done || last }

/-- The encoder never writes PB, never pops IN, and raises no fault of its own (42 R131 (g), R138). -/
def Obligations.EncoderOnlyReadsPbAndPushes : Prop :=
  ∀ s t : State, s.mode = .enc → tick s = .next t →
    t.mode ≠ .fault ∧
    t = { s with
      estate := t.estate, cur := t.cur, run := t.run, ebi := t.ebi, opos := t.opos, pidx := t.pidx
      outq := t.outq, mode := t.mode, done := t.done } ∧
    (t.outq = s.outq ∧ t.opos = s.opos ∨ ∃ b, t.outq = s.outq ++ [b] ∧ t.opos = s.opos + 1)

/-- The encoder agrees with the function `encode` (42 R130), with the host passive once it has written 4 to CMD, and accepting OUT. -/
def Obligations.EncodeAgreesWithTheFunction : Prop :=
  ∀ (s : State) (P : List Byte),
    s.mode = .idle → s.rst = false → s.outReady = true → s.bpp = 3 ∨ s.bpp = 4 →
    P.length = s.cap → HoldsAt s.pb 0 P → s.turns = [.regWrite 0 4] →
    ∃ (k : Nat) (t : State), steps k s = .next t ∧
      t.mode = .idle ∧ t.done = true ∧ t.ovr = false ∧ t.pidx.toNat = s.npix ∧
      t.opos.toNat = (encodeFn s.bpp s.npix P).length ∧ t.ipos = 0 ∧ t.prod = 0 ∧
      t.outq = s.outq ++ encodeFn s.bpp s.npix P ∧ t.pb = s.pb ∧ t.inq = s.inq ∧ t.hdr = s.hdr

/-- `runlen(i)` is the largest `r` with `1 ≤ r ≤ 128` and `i + r ≤ NPIX` such that the pixels `i + 1` to `i + r - 1` equal pixel `i` (42 R128). -/
def Obligations.RunLengthIsTheLargest : Prop :=
  ∀ (bpp npix : Nat) (P : List Byte) (i : Nat), i < npix →
    let fits := fun r : Nat =>
      1 ≤ r ∧ r ≤ 128 ∧ i + r ≤ npix ∧ ∀ k, i < k → k < i + r → pixelOf bpp P k = pixelOf bpp P i
    fits (runLen bpp npix P i) ∧ ∀ r, fits r → r ≤ runLen bpp npix P i

/-- Decoding an encoder's output gives the buffer back, consumes all of it and never clips; the reverse composition is not the identity
(42 R135). -/
def Obligations.EncodeThenDecodeIsTheIdentity : Prop :=
  (∀ (bpp npix : Nat) (P : List Byte), bpp = 3 ∨ bpp = 4 → P.length = npix * bpp →
    decodeFn bpp (npix * bpp) (encodeFn bpp npix P) = .done P (encodeFn bpp npix P).length false) ∧
  (∃ S P : List Byte, decodeFn 3 6 S = .done P S.length false ∧ encodeFn 3 2 P ≠ S)

/-- A buffer of `N` identical pixels: `N div 128` packets `RUN 128` and, when `r = N mod 128 > 0`, one last packet, a run packet of `r` for
`r ≥ 2` and a raw packet of one pixel for `r = 1`; `ceil(N / 128)` packets in all (42 R133). -/
def Obligations.UniformImageEncodesToMaximalRuns : Prop :=
  ∀ (bpp N : Nat) (x : List Byte), bpp = 3 ∨ bpp = 4 → x.length = bpp → 1 ≤ N →
    let r := N % 128
    let last : List Byte :=
      if r = 0 then [] else if r = 1 then 0x00 :: x else BitVec.ofNat 8 (128 + (r - 1)) :: x
    encodeFn bpp N (List.replicate N x).flatten = (List.replicate (N / 128) ((0xFF : Byte) :: x)).flatten ++ last ∧
    (encodeFn bpp N (List.replicate N x).flatten).length = (N + 127) / 128 * (1 + bpp)

/-- The output of an encode is at most `NPIX × (1 + BPP)` bytes, exactly that when no two neighbouring pixels are equal, and never less than
`ceil(NPIX / 128) × (1 + BPP)`; 35 bits hold it for 16-bit dimensions (42 R134). -/
def Obligations.EncodeOutputBound : Prop :=
  ∀ (bpp npix : Nat) (P : List Byte), bpp = 3 ∨ bpp = 4 → P.length = npix * bpp →
    (encodeFn bpp npix P).length ≤ npix * (1 + bpp) ∧
    (npix + 127) / 128 * (1 + bpp) ≤ (encodeFn bpp npix P).length ∧
    ((∀ k, k + 1 < npix → pixelOf bpp P (k + 1) ≠ pixelOf bpp P k) →
      (encodeFn bpp npix P).length = npix * (1 + bpp)) ∧
    (npix ≤ 65535 * 65535 → (encodeFn bpp npix P).length < 2 ^ 35)

/-! ## Channels, ownership, isolation -/

/-- A hold changes nothing: a unit that needs a byte from an empty IN, or pushes to a host that does not accept, stays as it is (00 R7;
20 R45, R47). -/
def Obligations.HoldChangesNothing : Prop :=
  ∀ s : State,
    (s.inq = [] → s.mode = .hparse → tick s = .next s ∧ exec .hdrParse s = .next s) ∧
    (s.inq = [] → s.mode = .dec → s.dstate ≠ .runOut → tick s = .next s) ∧
    (s.outReady = false → s.mode = .hser → s.hcnt.toNat < 18 → tick s = .next s ∧ exec .hdrSerialize s = .next s) ∧
    (s.outReady = false → s.mode = .enc → s.estate = .emitHdr ∨ s.estate = .emitPix → tick s = .next s)

/-- "Every access of the block to PB, IN and OUT moves exactly one byte" (20 R50): an atomic step pops at most one byte of IN, from its head and
counted by IPOS, pushes at most one, to the end of OUT and counted by OPOS, and writes at most one, at PROD and counted by it. -/
def Obligations.AtomicStepMovesSingleBytes : Prop :=
  ∀ s t : State, tick s = .next t →
    (t.inq = s.inq ∧ t.ipos = s.ipos ∨ ∃ b, s.inq = .byte b :: t.inq ∧ t.ipos = s.ipos + 1) ∧
    (t.outq = s.outq ∧ t.opos = s.opos ∨ ∃ b, t.outq = s.outq ++ [b] ∧ t.opos = s.opos + 1) ∧
    (t.pb = s.pb ∧ t.prod = s.prod ∨ ∃ v, t.pb = memWrite s.pb s.prod.toNat v ∧ t.prod = s.prod + 1)

/-- The host's side of the channels: it appends to IN until it has appended EOS (20 R45), takes from the front of OUT, starts and stops
accepting (20 R47), and takes bytes off IN itself between commands (70 R200, 20 R46). The MODEL'S CHOICES: that a reset of the channel by the
host empties IN, its end marker included (log entry 19; R45 leaves that reset to the host); that the host may take bytes, or so empty IN, while
a serialize or an encode runs as well, when no unit pops IN; and that a supply after EOS, and a take or a clear while a parse or a decode is
popping, are refused (log entry 14). -/
def Obligations.HostFeedsAndDrainsTheChannels : Prop :=
  ∀ (s : State) (rest : List Turn),
    (∀ i, s.turns = .supply i :: rest →
      (.eos ∉ s.inq → step s = .next { s with turns := rest, inq := s.inq ++ [i] }) ∧
      (.eos ∈ s.inq → step s = .refused .supplyAfterEos)) ∧
    (∀ r, s.turns = .acceptOut r :: rest → step s = .next { s with turns := rest, outReady := r }) ∧
    (∀ b q, s.turns = .takeOut :: rest → s.outq = b :: q →
      step s = .next { s with turns := rest, outq := q, hostData := b.zeroExtend 64 }) ∧
    (s.mode ≠ .hparse → s.mode ≠ .dec →
      (∀ b q, s.turns = .takeIn :: rest → s.inq = .byte b :: q →
        step s = .next { s with turns := rest, inq := q, hostData := b.zeroExtend 64 }) ∧
      (s.turns = .clearIn :: rest → step s = .next { s with turns := rest, inq := [] })) ∧
    (s.mode = .hparse ∨ s.mode = .dec →
      s.turns = .takeIn :: rest ∨ s.turns = .clearIn :: rest → step s = .refused .hostInWhileBusy)

/-- A unit's instruction issued while its unit does not wait for it has no effect: the MODEL'S CHOICE (log entry 9). -/
def Obligations.UnitInstructionOutsideItsUnitDoesNothing : Prop :=
  ∀ (s : State) (n : BitVec 7),
    (¬(s.mode = .dec ∧ s.dstate = .hdr) → exec (.decRun n) s = .next s ∧ exec (.decRaw n) s = .next s) ∧
    (¬(s.mode = .enc ∧ s.estate = .emitHdr) → exec (.encEmitRun n) s = .next s ∧ exec .encEmitRaw1 s = .next s) ∧
    (s.mode ≠ .hparse → exec .hdrParse s = .next s) ∧
    (s.mode ≠ .hser → exec .hdrSerialize s = .next s)

/-- The host has no PB move while a decode or encode is BUSY, and owns PB at every other time (20 R44, 70 R193; refusing the host's turn is the
MODEL'S CHOICE among the two R193 offers, log entry 15): its write stores the byte, its read returns the byte of the most recent write to the
address by either agent (20 R41), and at an address never written a free value (93 U8; log entry 1); the block leaves PB. -/
def Obligations.PbBelongsToOneAgentAtATime : Prop :=
  ∀ (s : State) (a : BitVec 34) (v : Byte) (rest : List Turn),
    (s.mode = .dec ∨ s.mode = .enc →
      (s.turns = .pbWrite a v :: rest → step s = .refused .hostPbWhileBusy) ∧
      (s.turns = .pbRead a :: rest → step s = .refused .hostPbWhileBusy)) ∧
    (s.mode ≠ .dec → s.mode ≠ .enc →
      (s.turns = .pbWrite a v :: rest →
        step s = .next { s with turns := rest, pb := memWrite s.pb a.toNat v }) ∧
      (s.turns = .pbRead a :: rest →
        (∀ b, memRead s.pb a.toNat = some b →
          step s = .next { s with turns := rest, hostData := b.zeroExtend 64 }) ∧
        (memRead s.pb a.toNat = none →
          step s = .next { s with turns := rest, hostData := (Config.unwrittenByte a.toNat).zeroExtend 64 })) ∧
      (∀ t, s.rst = false → s.turns = [] → step s = .next t → t.pb = s.pb))

/-- The decoder and the encoder never read or write the header registers (10 R21): a step of theirs does the same whatever those hold, and
leaves them as they are. -/
def Obligations.CodecUnitsIgnoreTheHeaderRegisters : Prop :=
  ∀ (s : State) (h : Header), s.mode = .dec ∨ s.mode = .enc →
    (∀ t, tick s = .next t → t.hdr = s.hdr ∧ tick { s with hdr := h } = .next { t with hdr := h }) ∧
    (∀ r, tick s = .fault r → tick { s with hdr := h } = .fault r)

/-- "The block never issues an access outside that range" (20 R41): no atomic step of a block that keeps its invariant stops at a PB access
outside 0 to CAP - 1, nor at a missing byte of HB; while decoding no step stops at all. -/
def Obligations.BlockStaysInsidePb : Prop :=
  ∀ s : State, MachineInv s →
    (∀ a, tick s ≠ .fault (.pbOutside a)) ∧ (∀ k, tick s ≠ .fault (.hbOutside k)) ∧
    (s.mode ≠ .enc → ∃ t, tick s = .next t)

/-- Each unit writes only its own state (20 R55): everything not named is unchanged by its step, and of PB every byte but the one at PROD that
the decoder's step writes. -/
def Obligations.UnitsWriteOnlyTheirOwnState : Prop :=
  ∀ s t : State, tick s = .next t →
    (s.mode = .hparse → t = { s with
      hb := t.hb, hcnt := t.hcnt, ipos := t.ipos, hdr := t.hdr, inq := t.inq, mode := t.mode, done := t.done
      errCode := t.errCode, errFmode := t.errFmode, errarg := t.errarg }) ∧
    (s.mode = .hser → t = { s with
      hcnt := t.hcnt, opos := t.opos, outq := t.outq, mode := t.mode, done := t.done }) ∧
    (s.mode = .dec → SameOutside s.pb t.pb s.prod.toNat 1 ∧ (t.prod = s.prod → t.pb = s.pb) ∧ t = { s with
      dstate := t.dstate, pktRun := t.pktRun, pktLeft := t.pktLeft, pix := t.pix, dbi := t.dbi, ipos := t.ipos
      prod := t.prod, ovr := t.ovr, pb := t.pb, inq := t.inq, mode := t.mode, done := t.done
      errCode := t.errCode, errFmode := t.errFmode, errarg := t.errarg }) ∧
    (s.mode = .enc → t = { s with
      estate := t.estate, cur := t.cur, run := t.run, ebi := t.ebi, opos := t.opos, pidx := t.pidx
      outq := t.outq, mode := t.mode, done := t.done })

/-! ## Invariants -/

/-- The machine right after reset satisfies the invariant, and the clauses of R29 on completed commands. -/
def Obligations.ResetSatisfiesTheInvariant : Prop := MachineInv State.reset ∧ CompletionCounts State.reset

/-- Every step of the machine, whatever the host does, keeps the invariant (10 R29; 41 R111; 42 R131). The clauses of R29 that PROD = CAP after
a completed decode and PIDX = NPIX after a completed encode are kept by every step but a geometry write of the idle host, after which CAP and
NPIX are those of the new geometry (10 R27, 43 R142; log entry 12). -/
def Obligations.EveryStepKeepsTheInvariant : Prop :=
  ∀ s t : State, MachineInv s → step s = .next t →
    MachineInv t ∧ (CompletionCounts s → ¬ GeometryWriteNext s → CompletionCounts t)
end

