-- ==== Sys2Proof/Laws/Encoding.lean ====
section
/-! SUPPORT. The laws of the encodings: the two fields of a packet-header byte (30_encoding R65), the emitted header byte (42 R126),
the CMD codes (30 R72), and the byte order of the header record (20 R48, 40 R82, R85). -/

namespace Sys2Proof.Machine

/-! ## Packet-header bytes -/

@[simp] theorem packetIsRun_packetByte (r : Bool) (n : BitVec 7) : packetIsRun (packetByte r n) = r := by
  revert r n; decide

@[simp] theorem packetCountField_packetByte (r : Bool) (n : BitVec 7) : packetCountField (packetByte r n) = n := by
  revert r n; decide

/-- The two fields determine the byte. -/
theorem packetByte_fields (p : Byte) : packetByte (packetIsRun p) (packetCountField p) = p := by
  revert p; decide

theorem packetCount_toNat (n : BitVec 7) : (packetCount n).toNat = n.toNat + 1 := by revert n; decide

theorem packetCount_pos (n : BitVec 7) : 1 ≤ (packetCount n).toNat := by rw [packetCount_toNat]; omega

theorem packetCount_le (n : BitVec 7) : (packetCount n).toNat ≤ 128 := by rw [packetCount_toNat]; omega

/-- A byte is a run header from 0x80 on. -/
theorem packetIsRun_iff (p : Byte) : packetIsRun p = true ↔ 128 ≤ p.toNat := by revert p; decide

/-- The header byte emitted for a run of one pixel (42 R126). -/
theorem emitHeader_one : emitHeader 1 = 0x00 := by decide

/-- The header byte emitted for a run of two pixels and more is the run header with the run's count field (42 R126). -/
theorem emitHeader_run (n : BitVec 7) (h : 1 ≤ n.toNat) : emitHeader (packetCount n) = packetByte true n := by
  revert n; decide

theorem packetByte_true (n : BitVec 7) : packetByte true n = 0x80 ||| n.zeroExtend 8 := by revert n; decide

/-! ## CMD codes -/

/-- A word is a small number exactly when its value is that number. -/
theorem word_eq_ofNat_iff (v : Word) (k : Nat) (hk : k < 2 ^ 64) : v = BitVec.ofNat 64 k ↔ v.toNat = k := by
  constructor
  · rintro rfl; simp; omega
  · intro h; apply BitVec.eq_of_toNat_eq; simp; omega

/-! ## Byte order -/

theorem u16le_toNat (a b : Byte) : (u16le a b).toNat = a.toNat + 256 * b.toNat := by
  have := a.isLt; have := b.isLt
  simp only [u16le, BitVec.toNat_append]
  rw [← Nat.shiftLeft_add_eq_or_of_lt a.isLt, Nat.shiftLeft_eq]; omega

theorem lo8_toNat (v : BitVec 16) : (lo8 v).toNat = v.toNat % 256 := by simp [lo8, BitVec.extractLsb'_toNat]

theorem hi8_toNat (v : BitVec 16) : (hi8 v).toNat = v.toNat / 256 % 256 := by
  simp [hi8, BitVec.extractLsb'_toNat, Nat.shiftRight_eq_div_pow]

@[simp] theorem u16le_lo8_hi8 (v : BitVec 16) : u16le (lo8 v) (hi8 v) = v := by
  apply BitVec.eq_of_toNat_eq
  have := v.isLt
  rw [u16le_toNat, lo8_toNat, hi8_toNat]; omega

@[simp] theorem lo8_u16le (a b : Byte) : lo8 (u16le a b) = a := by
  apply BitVec.eq_of_toNat_eq
  have := a.isLt
  rw [lo8_toNat, u16le_toNat]; omega

@[simp] theorem hi8_u16le (a b : Byte) : hi8 (u16le a b) = b := by
  apply BitVec.eq_of_toNat_eq
  have := a.isLt; have := b.isLt
  rw [hi8_toNat, u16le_toNat]; omega

end Sys2Proof.Machine
end

