-- ==== Sys2Proof/Laws/Latch.lean ====
section
/-! SUPPORT. The pixel latches PIX and CUR (10_state R15, R16): a byte set is the byte read, and a pixel loaded byte by byte is the pixel
read. -/

namespace Sys2Proof.Machine

theorem pixelByte_setPixelByte (v : Vector Byte 4) (k j : BitVec 2) (b : Byte) :
    pixelByte (setPixelByte v k b) j = if j = k then b else pixelByte v j := by
  unfold pixelByte setPixelByte
  rw [Vector.getElem_set]
  by_cases h : j = k
  · subst h; simp
  · have : k.toNat ≠ j.toNat := fun e => h (BitVec.eq_of_toNat_eq e.symm)
    simp [h, this]

/-- The bytes `xs` set from index `k` on. -/
def loadFrom : Vector Byte 4 → Nat → List Byte → Vector Byte 4
  | v, _, [] => v
  | v, k, b :: xs => loadFrom (setPixelByte v (BitVec.ofNat 2 k) b) (k + 1) xs

theorem loadFrom_append (v : Vector Byte 4) (k : Nat) (xs ys : List Byte) :
    loadFrom v k (xs ++ ys) = loadFrom (loadFrom v k xs) (k + xs.length) ys := by
  induction xs generalizing v k with
  | nil => rfl
  | cons b xs ih => simp only [List.cons_append, loadFrom, ih, List.length_cons]; congr 1; omega

theorem pixelByte_loadFrom (v : Vector Byte 4) (k : Nat) (xs : List Byte) (h : k + xs.length ≤ 4) (j : BitVec 2) :
    pixelByte (loadFrom v k xs) j =
      if k ≤ j.toNat ∧ j.toNat < k + xs.length then (xs[j.toNat - k]?).getD 0 else pixelByte v j := by
  induction xs generalizing v k with
  | nil =>
    simp only [loadFrom, List.length_nil, Nat.add_zero]
    rw [if_neg (by omega)]
  | cons b xs ih =>
    simp only [List.length_cons] at h ⊢
    rw [loadFrom, ih _ _ (by omega), pixelByte_setPixelByte]
    have hj : j = BitVec.ofNat 2 k ↔ j.toNat = k := by
      constructor
      · intro e; rw [e, BitVec.toNat_ofNat, Nat.mod_eq_of_lt (by omega)]
      · intro e; apply BitVec.eq_of_toNat_eq; rw [e, BitVec.toNat_ofNat, Nat.mod_eq_of_lt (by omega)]
    by_cases e : j.toNat = k
    · rw [if_neg (by omega), if_pos (hj.2 e), if_pos (by omega), e, Nat.sub_self]; rfl
    · rw [if_neg (fun c => e (hj.1 c))]
      by_cases h1 : k + 1 ≤ j.toNat ∧ j.toNat < k + 1 + xs.length
      · rw [if_pos h1, if_pos (by omega), show j.toNat - k = (j.toNat - (k + 1)) + 1 by omega, List.getElem?_cons_succ]
      · rw [if_neg h1, if_neg (by omega)]

/-- The first bytes of a latch, as a list. -/
theorem latch_take (v : Vector Byte 4) (x : List Byte) (n : Nat) (hn : n ≤ 4) (hx : x.length = n)
    (h : ∀ j : BitVec 2, j.toNat < n → x[j.toNat]? = some (pixelByte v j)) : x = v.toList.take n := by
  apply List.ext_getElem?
  intro i
  by_cases hi : i < n
  · have := h (BitVec.ofNat 2 i) (by rw [BitVec.toNat_ofNat, Nat.mod_eq_of_lt (by omega)]; exact hi)
    simp only [BitVec.toNat_ofNat, Nat.mod_eq_of_lt (show i < 2 ^ 2 by omega), pixelByte] at this
    rw [this, List.getElem?_take_of_lt hi]
    simp [show i < 4 by omega]
  · rw [List.getElem?_eq_none (by omega), List.getElem?_eq_none (by simp; omega)]

end Sys2Proof.Machine
end

