-- ==== Sys2Proof/Laws/Memory.lean ====
section
/-! SUPPORT. The laws of PB: reading after writing, and the canonical form, which every operation on memory keeps. -/

namespace Sys2Proof.Machine

/-- A byte written is read back (20 R41). -/
@[simp] theorem memRead_memWrite_same (m : Memory) (a : Nat) (v : Byte) : memRead (memWrite m a v) a = some v := by
  induction m with
  | nil => simp [memWrite, memRead]
  | cons c m ih =>
    obtain ⟨b, w⟩ := c
    unfold memWrite
    split
    · simp [memRead]
    · split
      · simp [memRead]
      · simp [memRead, *]

/-- Every other byte reads as before. -/
theorem memRead_memWrite_of_ne (m : Memory) {a c : Nat} (v : Byte) (h : c ≠ a) :
    memRead (memWrite m a v) c = memRead m c := by
  induction m with
  | nil => simp [memWrite, memRead, h]
  | cons x m ih =>
    obtain ⟨b, w⟩ := x
    unfold memWrite
    split
    · simp [memRead, h]
    · split
      · subst b; simp [memRead, h]
      · simp [memRead, ih]

/-- Reading after writing, in one equation. -/
theorem memRead_memWrite (m : Memory) (a c : Nat) (v : Byte) :
    memRead (memWrite m a v) c = if c = a then some v else memRead m c := by
  by_cases h : c = a
  · simp [h]
  · simp [h, memRead_memWrite_of_ne m v h]

/-- One byte written: nothing outside it reads otherwise. -/
theorem sameOutside_memWrite (m : Memory) (a : Nat) (v : Byte) : SameOutside m (memWrite m a v) a 1 :=
  fun _ hc => memRead_memWrite_of_ne m v (by omega)

/-! ## What a read of PB returns (20 R41) -/

/-- A byte some agent has written is returned. -/
theorem pbByte_written {m : Memory} {a : Nat} {b : Byte} (h : memRead m a = some b) : pbByte m a = b := by simp [pbByte, h]

/-- Where no one has written, the free value is returned. -/
theorem pbByte_unwritten {m : Memory} {a : Nat} (h : memRead m a = none) : pbByte m a = Config.unwrittenByte a := by
  simp [pbByte, h]

/-- The most recent write is returned, and every other byte as before. -/
theorem pbByte_memWrite (m : Memory) (a c : Nat) (v : Byte) :
    pbByte (memWrite m a v) c = if c = a then v else pbByte m c := by
  unfold pbByte; rw [memRead_memWrite]; split <;> rfl

/-! ## The canonical form -/

theorem Memory.wf_tail {c : Host.Cell} {m : Memory} (h : Memory.wf (c :: m) = true) : Memory.wf m = true := by
  cases m with
  | nil => rfl
  | cons d m => simp [Memory.wf] at h; exact h.2

/-- Writing a byte keeps the canonical form. -/
theorem memWrite_wf (m : Memory) (a : Nat) (v : Byte) (h : Memory.wf m = true) : Memory.wf (memWrite m a v) = true := by
  induction m with
  | nil => rfl
  | cons x m ih =>
    obtain ⟨b, w⟩ := x
    have ht := ih (Memory.wf_tail h)
    unfold memWrite
    split
    next hab => simpa [Memory.wf, hab] using h
    next hab =>
      split
      next e => subst e; cases m <;> simp_all [Memory.wf]
      next hne =>
        have hba : b < a := by omega
        cases m with
        | nil => simp [memWrite, Memory.wf, hba]
        | cons y m =>
          obtain ⟨d, z⟩ := y
          simp only [Memory.wf, Bool.and_eq_true, decide_eq_true_eq] at h
          unfold memWrite at ht ⊢
          split
          next => simp_all [Memory.wf]
          next => split <;> simp_all [Memory.wf]

/-- Writing a byte lists no address but its own and those listed before. -/
theorem mem_memWrite {m : Memory} {a : Nat} {v : Byte} {c : Host.Cell} (h : c ∈ memWrite m a v) : c = (a, v) ∨ c ∈ m := by
  induction m with
  | nil => simpa [memWrite] using h
  | cons x m ih =>
    obtain ⟨b, w⟩ := x
    unfold memWrite at h
    split at h
    · simpa using h
    · split at h
      · simp at h ⊢; tauto
      · simp at h ⊢
        rcases h with h | h
        · exact .inr (.inl h)
        · rcases ih h with h | h
          · exact .inl h
          · exact .inr (.inr h)

/-- A bound on all addresses is kept by a write within the bound. -/
theorem memWrite_bound {m : Memory} {a n : Nat} {v : Byte} (hm : ∀ c ∈ m, c.1 < n) (ha : a < n) :
    ∀ c ∈ memWrite m a v, c.1 < n := by
  intro c hc
  rcases mem_memWrite hc with rfl | h
  · exact ha
  · exact hm c h

/-- In canonical form a byte below the first address is not written. -/
theorem memRead_below {b : Nat} {w : Byte} {m : Memory} (h : Memory.wf ((b, w) :: m) = true) {a : Nat} (ha : a < b) :
    memRead ((b, w) :: m) a = none := by
  induction m generalizing b w with
  | nil => simp [memRead]; omega
  | cons y m ih =>
    obtain ⟨d, z⟩ := y
    simp only [Memory.wf, Bool.and_eq_true, decide_eq_true_eq] at h
    rw [memRead, if_neg (by omega)]
    exact ih h.2 (by omega)

/-- Memories in canonical form that read alike are equal: equal memories are equal data. -/
theorem Memory.ext_of_read {m m' : Memory} (h : Memory.wf m = true) (h' : Memory.wf m' = true)
    (e : ∀ a, memRead m a = memRead m' a) : m = m' := by
  induction m generalizing m' with
  | nil =>
    cases m' with
    | nil => rfl
    | cons x m' =>
      have := e x.1
      simp [memRead] at this
  | cons x m ih =>
    obtain ⟨b, w⟩ := x
    cases m' with
    | nil => have := e b; simp [memRead] at this
    | cons y m' =>
      obtain ⟨d, z⟩ := y
      have hbd : b = d := by
        rcases Nat.lt_trichotomy b d with hlt | heq | hgt
        · have h1 := e b
          rw [memRead_below h' hlt] at h1
          simp [memRead] at h1
        · exact heq
        · have h1 := e d
          rw [memRead_below h hgt] at h1
          simp [memRead] at h1
      subst hbd
      have hw : w = z := by have h1 := e b; simpa [memRead] using h1
      subst hw
      have ht : m = m' := by
        refine ih (Memory.wf_tail h) (Memory.wf_tail h') ?_
        intro a
        by_cases hab : a ≤ b
        · have hn : ∀ {q : Memory}, Memory.wf ((b, w) :: q) = true → memRead q a = none := by
            intro q hq
            cases q with
            | nil => rfl
            | cons r q =>
              obtain ⟨f, g⟩ := r
              have hq' := hq
              simp only [Memory.wf, Bool.and_eq_true, decide_eq_true_eq] at hq'
              exact memRead_below hq'.2 (by omega)
          rw [hn h, hn h']
        · have h1 := e a
          rwa [memRead, if_neg (by omega), memRead, if_neg (by omega)] at h1
      rw [ht]

/-! ## A list of bytes written one after the other -/

/-- The bytes `xs` written from address `a` on. -/
def memWriteList : Memory → Nat → List Byte → Memory
  | m, _, [] => m
  | m, a, b :: xs => memWriteList (memWrite m a b) (a + 1) xs

theorem memRead_memWriteList (m : Memory) (a : Nat) (xs : List Byte) (c : Nat) :
    memRead (memWriteList m a xs) c = if a ≤ c ∧ c < a + xs.length then xs[c - a]? else memRead m c := by
  induction xs generalizing m a with
  | nil => simp [memWriteList]
  | cons b xs ih =>
    rw [memWriteList, ih, memRead_memWrite]
    by_cases h : c = a
    · subst h; simp
    · by_cases h1 : a + 1 ≤ c ∧ c < a + 1 + xs.length
      · rw [if_pos h1, if_pos (by simp; omega), show c - a = (c - (a + 1)) + 1 by omega, List.getElem?_cons_succ]
      · rw [if_neg h1, if_neg h, if_neg (by simp; omega)]

theorem holdsAt_memWriteList (m : Memory) (a : Nat) (xs : List Byte) : HoldsAt (memWriteList m a xs) a xs := by
  intro i hi
  rw [memRead_memWriteList, if_pos (by omega), Nat.add_sub_cancel_left]

theorem sameOutside_memWriteList (m : Memory) (a : Nat) (xs : List Byte) :
    SameOutside m (memWriteList m a xs) a xs.length := by
  intro c hc
  rw [memRead_memWriteList, if_neg (by omega)]

theorem memWriteList_append (m : Memory) (a : Nat) (xs ys : List Byte) :
    memWriteList m a (xs ++ ys) = memWriteList (memWriteList m a xs) (a + xs.length) ys := by
  induction xs generalizing m a with
  | nil => rfl
  | cons b xs ih => simp only [List.cons_append, memWriteList, ih, List.length_cons]; congr 1; omega

theorem memWriteList_wf (m : Memory) (a : Nat) (xs : List Byte) (h : Memory.wf m = true) :
    Memory.wf (memWriteList m a xs) = true := by
  induction xs generalizing m a with
  | nil => exact h
  | cons b xs ih => exact ih _ _ (memWrite_wf m a b h)

/-! ## Bytes in place -/

/-- Bytes written after those in place stand behind them. -/
theorem holdsAt_append {m m' : Memory} {out x : List Byte} (h : HoldsAt m 0 out) (h2 : HoldsAt m' out.length x)
    (h3 : SameOutside m m' out.length x.length) :
   HoldsAt m' 0 (out ++ x) := by
  intro i hi
  rw [Nat.zero_add]
  by_cases hlt : i < out.length
  · rw [h3 i (.inl hlt), List.getElem?_append_left hlt]
    have := h i hlt; rwa [Nat.zero_add] at this
  · rw [List.getElem?_append_right (by omega)]
    have := h2 (i - out.length) (by rw [List.length_append] at hi; omega)
    rwa [show out.length + (i - out.length) = i by omega] at this

/-- Two writes, one behind the other, change nothing outside both. -/
theorem sameOutside_append {m m' m'' : Memory} {a b : Nat} (h : SameOutside m m' 0 a)
    (h3 : SameOutside m' m'' a b) : SameOutside m m'' 0 (a + b) := by
  intro c hc
  rw [h3 c (by omega), h c (by omega)]

/-- The memory after reset has the canonical form. -/
theorem reset_pb_wf : Memory.wf State.reset.pb = true := rfl

end Sys2Proof.Machine
end

