-- ==== Sys2Proof/Laws/State.lean ====
section
/-! SUPPORT. What each named update of the state does to each field, so that no later proof unfolds a record update: one lemma per
field per update, true by `rfl`. -/

namespace Sys2Proof.Machine

variable (s : State)

/-! `finish`: `finish()` writes MODE and DONE (43 R149). -/

@[simp] theorem finish_mode : (finish s).mode = .idle := rfl
@[simp] theorem finish_dstate : (finish s).dstate = s.dstate := rfl
@[simp] theorem finish_estate : (finish s).estate = s.estate := rfl
@[simp] theorem finish_hcnt : (finish s).hcnt = s.hcnt := rfl
@[simp] theorem finish_hb : (finish s).hb = s.hb := rfl
@[simp] theorem finish_pktRun : (finish s).pktRun = s.pktRun := rfl
@[simp] theorem finish_pktLeft : (finish s).pktLeft = s.pktLeft := rfl
@[simp] theorem finish_pix : (finish s).pix = s.pix := rfl
@[simp] theorem finish_dbi : (finish s).dbi = s.dbi := rfl
@[simp] theorem finish_cur : (finish s).cur = s.cur := rfl
@[simp] theorem finish_run : (finish s).run = s.run := rfl
@[simp] theorem finish_ebi : (finish s).ebi = s.ebi := rfl
@[simp] theorem finish_done : (finish s).done = true := rfl
@[simp] theorem finish_ovr : (finish s).ovr = s.ovr := rfl
@[simp] theorem finish_lastCmd : (finish s).lastCmd = s.lastCmd := rfl
@[simp] theorem finish_errCode : (finish s).errCode = s.errCode := rfl
@[simp] theorem finish_errFmode : (finish s).errFmode = s.errFmode := rfl
@[simp] theorem finish_errarg : (finish s).errarg = s.errarg := rfl
@[simp] theorem finish_geomW : (finish s).geomW = s.geomW := rfl
@[simp] theorem finish_geomH : (finish s).geomH = s.geomH := rfl
@[simp] theorem finish_geomBpp : (finish s).geomBpp = s.geomBpp := rfl
@[simp] theorem finish_hdr : (finish s).hdr = s.hdr := rfl
@[simp] theorem finish_ipos : (finish s).ipos = s.ipos := rfl
@[simp] theorem finish_opos : (finish s).opos = s.opos := rfl
@[simp] theorem finish_prod : (finish s).prod = s.prod := rfl
@[simp] theorem finish_pidx : (finish s).pidx = s.pidx := rfl
@[simp] theorem finish_pb : (finish s).pb = s.pb := rfl
@[simp] theorem finish_inq : (finish s).inq = s.inq := rfl
@[simp] theorem finish_outq : (finish s).outq = s.outq := rfl
@[simp] theorem finish_outReady : (finish s).outReady = s.outReady := rfl
@[simp] theorem finish_rst : (finish s).rst = s.rst := rfl
@[simp] theorem finish_hostData : (finish s).hostData = s.hostData := rfl
@[simp] theorem finish_turns : (finish s).turns = s.turns := rfl

/-! `raise`: taking a fault writes ERR, ERRARG and MODE (60 R173). -/

@[simp] theorem raise_mode (f : BlockFault) (arg : Word) : (raise f arg s).mode = .fault := rfl
@[simp] theorem raise_dstate (f : BlockFault) (arg : Word) : (raise f arg s).dstate = s.dstate := rfl
@[simp] theorem raise_estate (f : BlockFault) (arg : Word) : (raise f arg s).estate = s.estate := rfl
@[simp] theorem raise_hcnt (f : BlockFault) (arg : Word) : (raise f arg s).hcnt = s.hcnt := rfl
@[simp] theorem raise_hb (f : BlockFault) (arg : Word) : (raise f arg s).hb = s.hb := rfl
@[simp] theorem raise_pktRun (f : BlockFault) (arg : Word) : (raise f arg s).pktRun = s.pktRun := rfl
@[simp] theorem raise_pktLeft (f : BlockFault) (arg : Word) : (raise f arg s).pktLeft = s.pktLeft := rfl
@[simp] theorem raise_pix (f : BlockFault) (arg : Word) : (raise f arg s).pix = s.pix := rfl
@[simp] theorem raise_dbi (f : BlockFault) (arg : Word) : (raise f arg s).dbi = s.dbi := rfl
@[simp] theorem raise_cur (f : BlockFault) (arg : Word) : (raise f arg s).cur = s.cur := rfl
@[simp] theorem raise_run (f : BlockFault) (arg : Word) : (raise f arg s).run = s.run := rfl
@[simp] theorem raise_ebi (f : BlockFault) (arg : Word) : (raise f arg s).ebi = s.ebi := rfl
@[simp] theorem raise_done (f : BlockFault) (arg : Word) : (raise f arg s).done = s.done := rfl
@[simp] theorem raise_ovr (f : BlockFault) (arg : Word) : (raise f arg s).ovr = s.ovr := rfl
@[simp] theorem raise_lastCmd (f : BlockFault) (arg : Word) : (raise f arg s).lastCmd = s.lastCmd := rfl
@[simp] theorem raise_errCode (f : BlockFault) (arg : Word) : (raise f arg s).errCode = f.code := rfl
@[simp] theorem raise_errFmode (f : BlockFault) (arg : Word) : (raise f arg s).errFmode = s.mode.code := rfl
@[simp] theorem raise_errarg (f : BlockFault) (arg : Word) : (raise f arg s).errarg = arg := rfl
@[simp] theorem raise_geomW (f : BlockFault) (arg : Word) : (raise f arg s).geomW = s.geomW := rfl
@[simp] theorem raise_geomH (f : BlockFault) (arg : Word) : (raise f arg s).geomH = s.geomH := rfl
@[simp] theorem raise_geomBpp (f : BlockFault) (arg : Word) : (raise f arg s).geomBpp = s.geomBpp := rfl
@[simp] theorem raise_hdr (f : BlockFault) (arg : Word) : (raise f arg s).hdr = s.hdr := rfl
@[simp] theorem raise_ipos (f : BlockFault) (arg : Word) : (raise f arg s).ipos = s.ipos := rfl
@[simp] theorem raise_opos (f : BlockFault) (arg : Word) : (raise f arg s).opos = s.opos := rfl
@[simp] theorem raise_prod (f : BlockFault) (arg : Word) : (raise f arg s).prod = s.prod := rfl
@[simp] theorem raise_pidx (f : BlockFault) (arg : Word) : (raise f arg s).pidx = s.pidx := rfl
@[simp] theorem raise_pb (f : BlockFault) (arg : Word) : (raise f arg s).pb = s.pb := rfl
@[simp] theorem raise_inq (f : BlockFault) (arg : Word) : (raise f arg s).inq = s.inq := rfl
@[simp] theorem raise_outq (f : BlockFault) (arg : Word) : (raise f arg s).outq = s.outq := rfl
@[simp] theorem raise_outReady (f : BlockFault) (arg : Word) : (raise f arg s).outReady = s.outReady := rfl
@[simp] theorem raise_rst (f : BlockFault) (arg : Word) : (raise f arg s).rst = s.rst := rfl
@[simp] theorem raise_hostData (f : BlockFault) (arg : Word) : (raise f arg s).hostData = s.hostData := rfl
@[simp] theorem raise_turns (f : BlockFault) (arg : Word) : (raise f arg s).turns = s.turns := rfl

/-! `acceptCommand`: accepting a command (43 R150). -/

@[simp] theorem acceptCommand_mode (c : BitVec 3) : (acceptCommand c s).mode = s.mode := rfl
@[simp] theorem acceptCommand_dstate (c : BitVec 3) : (acceptCommand c s).dstate = s.dstate := rfl
@[simp] theorem acceptCommand_estate (c : BitVec 3) : (acceptCommand c s).estate = s.estate := rfl
@[simp] theorem acceptCommand_hcnt (c : BitVec 3) : (acceptCommand c s).hcnt = s.hcnt := rfl
@[simp] theorem acceptCommand_hb (c : BitVec 3) : (acceptCommand c s).hb = s.hb := rfl
@[simp] theorem acceptCommand_pktRun (c : BitVec 3) : (acceptCommand c s).pktRun = s.pktRun := rfl
@[simp] theorem acceptCommand_pktLeft (c : BitVec 3) : (acceptCommand c s).pktLeft = s.pktLeft := rfl
@[simp] theorem acceptCommand_pix (c : BitVec 3) : (acceptCommand c s).pix = s.pix := rfl
@[simp] theorem acceptCommand_dbi (c : BitVec 3) : (acceptCommand c s).dbi = s.dbi := rfl
@[simp] theorem acceptCommand_cur (c : BitVec 3) : (acceptCommand c s).cur = s.cur := rfl
@[simp] theorem acceptCommand_run (c : BitVec 3) : (acceptCommand c s).run = s.run := rfl
@[simp] theorem acceptCommand_ebi (c : BitVec 3) : (acceptCommand c s).ebi = s.ebi := rfl
@[simp] theorem acceptCommand_done (c : BitVec 3) : (acceptCommand c s).done = false := rfl
@[simp] theorem acceptCommand_ovr (c : BitVec 3) : (acceptCommand c s).ovr = false := rfl
@[simp] theorem acceptCommand_lastCmd (c : BitVec 3) : (acceptCommand c s).lastCmd = c := rfl
@[simp] theorem acceptCommand_errCode (c : BitVec 3) : (acceptCommand c s).errCode = s.errCode := rfl
@[simp] theorem acceptCommand_errFmode (c : BitVec 3) : (acceptCommand c s).errFmode = s.errFmode := rfl
@[simp] theorem acceptCommand_errarg (c : BitVec 3) : (acceptCommand c s).errarg = s.errarg := rfl
@[simp] theorem acceptCommand_geomW (c : BitVec 3) : (acceptCommand c s).geomW = s.geomW := rfl
@[simp] theorem acceptCommand_geomH (c : BitVec 3) : (acceptCommand c s).geomH = s.geomH := rfl
@[simp] theorem acceptCommand_geomBpp (c : BitVec 3) : (acceptCommand c s).geomBpp = s.geomBpp := rfl
@[simp] theorem acceptCommand_hdr (c : BitVec 3) : (acceptCommand c s).hdr = s.hdr := rfl
@[simp] theorem acceptCommand_ipos (c : BitVec 3) : (acceptCommand c s).ipos = 0 := rfl
@[simp] theorem acceptCommand_opos (c : BitVec 3) : (acceptCommand c s).opos = 0 := rfl
@[simp] theorem acceptCommand_prod (c : BitVec 3) : (acceptCommand c s).prod = 0 := rfl
@[simp] theorem acceptCommand_pidx (c : BitVec 3) : (acceptCommand c s).pidx = 0 := rfl
@[simp] theorem acceptCommand_pb (c : BitVec 3) : (acceptCommand c s).pb = s.pb := rfl
@[simp] theorem acceptCommand_inq (c : BitVec 3) : (acceptCommand c s).inq = s.inq := rfl
@[simp] theorem acceptCommand_outq (c : BitVec 3) : (acceptCommand c s).outq = s.outq := rfl
@[simp] theorem acceptCommand_outReady (c : BitVec 3) : (acceptCommand c s).outReady = s.outReady := rfl
@[simp] theorem acceptCommand_rst (c : BitVec 3) : (acceptCommand c s).rst = s.rst := rfl
@[simp] theorem acceptCommand_hostData (c : BitVec 3) : (acceptCommand c s).hostData = s.hostData := rfl
@[simp] theorem acceptCommand_turns (c : BitVec 3) : (acceptCommand c s).turns = s.turns := rfl

/-! `dispatchPacket`: dispatching a packet (41 R97). -/

@[simp] theorem dispatchPacket_mode (r : Bool) (n : BitVec 7) : (dispatchPacket r n s).mode = s.mode := rfl
@[simp] theorem dispatchPacket_dstate (r : Bool) (n : BitVec 7) : (dispatchPacket r n s).dstate = if r then .runPix else .raw := rfl
@[simp] theorem dispatchPacket_estate (r : Bool) (n : BitVec 7) : (dispatchPacket r n s).estate = s.estate := rfl
@[simp] theorem dispatchPacket_hcnt (r : Bool) (n : BitVec 7) : (dispatchPacket r n s).hcnt = s.hcnt := rfl
@[simp] theorem dispatchPacket_hb (r : Bool) (n : BitVec 7) : (dispatchPacket r n s).hb = s.hb := rfl
@[simp] theorem dispatchPacket_pktRun (r : Bool) (n : BitVec 7) : (dispatchPacket r n s).pktRun = r := rfl
@[simp] theorem dispatchPacket_pktLeft (r : Bool) (n : BitVec 7) : (dispatchPacket r n s).pktLeft = packetCount n := rfl
@[simp] theorem dispatchPacket_pix (r : Bool) (n : BitVec 7) : (dispatchPacket r n s).pix = s.pix := rfl
@[simp] theorem dispatchPacket_dbi (r : Bool) (n : BitVec 7) : (dispatchPacket r n s).dbi = 0 := rfl
@[simp] theorem dispatchPacket_cur (r : Bool) (n : BitVec 7) : (dispatchPacket r n s).cur = s.cur := rfl
@[simp] theorem dispatchPacket_run (r : Bool) (n : BitVec 7) : (dispatchPacket r n s).run = s.run := rfl
@[simp] theorem dispatchPacket_ebi (r : Bool) (n : BitVec 7) : (dispatchPacket r n s).ebi = s.ebi := rfl
@[simp] theorem dispatchPacket_done (r : Bool) (n : BitVec 7) : (dispatchPacket r n s).done = s.done := rfl
@[simp] theorem dispatchPacket_ovr (r : Bool) (n : BitVec 7) : (dispatchPacket r n s).ovr = s.ovr := rfl
@[simp] theorem dispatchPacket_lastCmd (r : Bool) (n : BitVec 7) : (dispatchPacket r n s).lastCmd = s.lastCmd := rfl
@[simp] theorem dispatchPacket_errCode (r : Bool) (n : BitVec 7) : (dispatchPacket r n s).errCode = s.errCode := rfl
@[simp] theorem dispatchPacket_errFmode (r : Bool) (n : BitVec 7) : (dispatchPacket r n s).errFmode = s.errFmode := rfl
@[simp] theorem dispatchPacket_errarg (r : Bool) (n : BitVec 7) : (dispatchPacket r n s).errarg = s.errarg := rfl
@[simp] theorem dispatchPacket_geomW (r : Bool) (n : BitVec 7) : (dispatchPacket r n s).geomW = s.geomW := rfl
@[simp] theorem dispatchPacket_geomH (r : Bool) (n : BitVec 7) : (dispatchPacket r n s).geomH = s.geomH := rfl
@[simp] theorem dispatchPacket_geomBpp (r : Bool) (n : BitVec 7) : (dispatchPacket r n s).geomBpp = s.geomBpp := rfl
@[simp] theorem dispatchPacket_hdr (r : Bool) (n : BitVec 7) : (dispatchPacket r n s).hdr = s.hdr := rfl
@[simp] theorem dispatchPacket_ipos (r : Bool) (n : BitVec 7) : (dispatchPacket r n s).ipos = s.ipos := rfl
@[simp] theorem dispatchPacket_opos (r : Bool) (n : BitVec 7) : (dispatchPacket r n s).opos = s.opos := rfl
@[simp] theorem dispatchPacket_prod (r : Bool) (n : BitVec 7) : (dispatchPacket r n s).prod = s.prod := rfl
@[simp] theorem dispatchPacket_pidx (r : Bool) (n : BitVec 7) : (dispatchPacket r n s).pidx = s.pidx := rfl
@[simp] theorem dispatchPacket_pb (r : Bool) (n : BitVec 7) : (dispatchPacket r n s).pb = s.pb := rfl
@[simp] theorem dispatchPacket_inq (r : Bool) (n : BitVec 7) : (dispatchPacket r n s).inq = s.inq := rfl
@[simp] theorem dispatchPacket_outq (r : Bool) (n : BitVec 7) : (dispatchPacket r n s).outq = s.outq := rfl
@[simp] theorem dispatchPacket_outReady (r : Bool) (n : BitVec 7) : (dispatchPacket r n s).outReady = s.outReady := rfl
@[simp] theorem dispatchPacket_rst (r : Bool) (n : BitVec 7) : (dispatchPacket r n s).rst = s.rst := rfl
@[simp] theorem dispatchPacket_hostData (r : Bool) (n : BitVec 7) : (dispatchPacket r n s).hostData = s.hostData := rfl
@[simp] theorem dispatchPacket_turns (r : Bool) (n : BitVec 7) : (dispatchPacket r n s).turns = s.turns := rfl

/-! `resetBlock`: reset (70 R186, R187). -/

@[simp] theorem resetBlock_mode : (resetBlock s).mode = .idle := rfl
@[simp] theorem resetBlock_dstate : (resetBlock s).dstate = .hdr := rfl
@[simp] theorem resetBlock_estate : (resetBlock s).estate = .load := rfl
@[simp] theorem resetBlock_hcnt : (resetBlock s).hcnt = 0 := rfl
@[simp] theorem resetBlock_hb : (resetBlock s).hb = Vector.replicate 18 0 := rfl
@[simp] theorem resetBlock_pktRun : (resetBlock s).pktRun = false := rfl
@[simp] theorem resetBlock_pktLeft : (resetBlock s).pktLeft = 0 := rfl
@[simp] theorem resetBlock_pix : (resetBlock s).pix = Vector.replicate 4 0 := rfl
@[simp] theorem resetBlock_dbi : (resetBlock s).dbi = 0 := rfl
@[simp] theorem resetBlock_cur : (resetBlock s).cur = Vector.replicate 4 0 := rfl
@[simp] theorem resetBlock_run : (resetBlock s).run = 0 := rfl
@[simp] theorem resetBlock_ebi : (resetBlock s).ebi = 0 := rfl
@[simp] theorem resetBlock_done : (resetBlock s).done = false := rfl
@[simp] theorem resetBlock_ovr : (resetBlock s).ovr = false := rfl
@[simp] theorem resetBlock_lastCmd : (resetBlock s).lastCmd = 0 := rfl
@[simp] theorem resetBlock_errCode : (resetBlock s).errCode = 0 := rfl
@[simp] theorem resetBlock_errFmode : (resetBlock s).errFmode = 0 := rfl
@[simp] theorem resetBlock_errarg : (resetBlock s).errarg = 0 := rfl
@[simp] theorem resetBlock_geomW : (resetBlock s).geomW = 0 := rfl
@[simp] theorem resetBlock_geomH : (resetBlock s).geomH = 0 := rfl
@[simp] theorem resetBlock_geomBpp : (resetBlock s).geomBpp = 0 := rfl
@[simp] theorem resetBlock_hdr : (resetBlock s).hdr = Header.zero := rfl
@[simp] theorem resetBlock_ipos : (resetBlock s).ipos = 0 := rfl
@[simp] theorem resetBlock_opos : (resetBlock s).opos = 0 := rfl
@[simp] theorem resetBlock_prod : (resetBlock s).prod = 0 := rfl
@[simp] theorem resetBlock_pidx : (resetBlock s).pidx = 0 := rfl
@[simp] theorem resetBlock_pb : (resetBlock s).pb = s.pb := rfl
@[simp] theorem resetBlock_inq : (resetBlock s).inq = s.inq := rfl
@[simp] theorem resetBlock_outq : (resetBlock s).outq = s.outq := rfl
@[simp] theorem resetBlock_outReady : (resetBlock s).outReady = s.outReady := rfl
@[simp] theorem resetBlock_rst : (resetBlock s).rst = s.rst := rfl
@[simp] theorem resetBlock_hostData : (resetBlock s).hostData = s.hostData := rfl
@[simp] theorem resetBlock_turns : (resetBlock s).turns = s.turns := rfl

/-! The geometry functions and BUSY after those updates. -/

@[simp] theorem finish_bpp : (finish s).bpp = s.bpp := rfl
@[simp] theorem finish_npix : (finish s).npix = s.npix := rfl
@[simp] theorem finish_cap : (finish s).cap = s.cap := rfl
@[simp] theorem raise_bpp (f : BlockFault) (arg : Word) : (raise f arg s).bpp = s.bpp := rfl
@[simp] theorem raise_npix (f : BlockFault) (arg : Word) : (raise f arg s).npix = s.npix := rfl
@[simp] theorem raise_cap (f : BlockFault) (arg : Word) : (raise f arg s).cap = s.cap := rfl
@[simp] theorem acceptCommand_bpp (c : BitVec 3) : (acceptCommand c s).bpp = s.bpp := rfl
@[simp] theorem acceptCommand_npix (c : BitVec 3) : (acceptCommand c s).npix = s.npix := rfl
@[simp] theorem acceptCommand_cap (c : BitVec 3) : (acceptCommand c s).cap = s.cap := rfl
@[simp] theorem dispatchPacket_bpp (r : Bool) (n : BitVec 7) : (dispatchPacket r n s).bpp = s.bpp := rfl
@[simp] theorem dispatchPacket_cap (r : Bool) (n : BitVec 7) : (dispatchPacket r n s).cap = s.cap := rfl
@[simp] theorem finish_busy : (finish s).busy = false := rfl
@[simp] theorem raise_busy (f : BlockFault) (arg : Word) : (raise f arg s).busy = false := rfl

theorem cap_eq : s.cap = s.npix * s.bpp := rfl

end Sys2Proof.Machine
end

