-- ==== Sys2Proof/Laws/Ops.lean ====
section
/-! SUPPORT. What each shared operation can do, said once: the channels, the PB accesses, running a unit. Later proofs cite these and do not
unfold the operations. -/

namespace Sys2Proof.Machine

/-! ## The channels -/

theorem inPop_empty {s : State} {f : BlockFault} {arg : Word} {k : Byte → State → Attempt} (h : s.inq = []) :
    inPop s f arg k = .held := by simp [inPop, h]

theorem inPop_eos {s : State} {f : BlockFault} {arg : Word} {k : Byte → State → Attempt} {q : List InItem}
    (h : s.inq = .eos :: q) : inPop s f arg k = .faulted (raise f arg s) := by simp [inPop, h]

theorem inPop_byte {s : State} {f : BlockFault} {arg : Word} {k : Byte → State → Attempt} {b : Byte} {q : List InItem}
    (h : s.inq = .byte b :: q) : inPop s f arg k = k b { s with inq := q, ipos := s.ipos + 1 } := by simp [inPop, h]

/-- Everything a pop can do (20 R45). -/
theorem inPop_cases (s : State) (f : BlockFault) (arg : Word) (k : Byte → State → Attempt) :
    (s.inq = [] ∧ inPop s f arg k = .held) ∨
    (∃ q, s.inq = .eos :: q ∧ inPop s f arg k = .faulted (raise f arg s)) ∨
    (∃ b q, s.inq = .byte b :: q ∧ inPop s f arg k = k b { s with inq := q, ipos := s.ipos + 1 }) := by
  match h : s.inq with
  | [] => exact .inl ⟨rfl, inPop_empty h⟩
  | .eos :: q => exact .inr (.inl ⟨q, rfl, inPop_eos h⟩)
  | .byte b :: q => exact .inr (.inr ⟨b, q, rfl, inPop_byte h⟩)

/-- Everything a push can do (20 R47). -/
theorem outPush_cases (s : State) (b : Byte) (k : State → Attempt) :
    (s.outReady = false ∧ outPush s b k = .held) ∨
    (s.outReady = true ∧ outPush s b k = k { s with outq := s.outq ++ [b], opos := s.opos + 1 }) := by
  cases h : s.outReady <;> simp [outPush, h]

theorem outPush_ready {s : State} {b : Byte} {k : State → Attempt} (h : s.outReady = true) :
    outPush s b k = k { s with outq := s.outq ++ [b], opos := s.opos + 1 } := by simp [outPush, h]

theorem outPush_hold {s : State} {b : Byte} {k : State → Attempt} (h : s.outReady = false) :
    outPush s b k = .held := by simp [outPush, h]

/-! ## The block's PB accesses -/

/-- Everything a read of the block can do (20 R41, 70 R190). -/
theorem blockRead_cases (s : State) (a : Nat) (k : Byte → Attempt) :
    (a < s.cap ∧ ∃ b, memRead s.pb a = some b ∧ blockRead s a k = k b) ∨
    (a < s.cap ∧ memRead s.pb a = none ∧ blockRead s a k = .stop (.pbUnwritten a)) ∨
    (s.cap ≤ a ∧ blockRead s a k = .stop (.pbOutside a)) := by
  unfold blockRead
  by_cases h : a < s.cap
  · cases hm : memRead s.pb a <;> simp [h]
  · simp [h]; omega

theorem blockRead_some {s : State} {a : Nat} {k : Byte → Attempt} {b : Byte} (h : a < s.cap) (hb : memRead s.pb a = some b) :
    blockRead s a k = k b := by simp [blockRead, h, hb]

theorem blockWrite_inside {s : State} {a : Nat} {v : Byte} {k : State → Attempt} (h : a < s.cap) :
    blockWrite s a v k = k { s with pb := memWrite s.pb a v } := by simp [blockWrite, h]

theorem blockWrite_outside {s : State} {a : Nat} {v : Byte} {k : State → Attempt} (h : s.cap ≤ a) :
    blockWrite s a v k = .stop (.pbOutside a) := by
  have : ¬ a < s.cap := by omega
  simp [blockWrite, this]

/-! ## The host's PB accesses -/

/-- Everything a host read of PB can do (20 R41, R44; 70 R193). -/
theorem hostPbRead_cases (s : State) (a : BitVec 34) :
    (s.mode.ownsPb = true ∧ hostPbRead a s = .refused .hostPbWhileBusy) ∨
    (s.mode.ownsPb = false ∧ hostPbRead a s = .next { s with hostData := (pbByte s.pb a.toNat).zeroExtend 64 }) := by
  cases h : s.mode.ownsPb <;> simp [hostPbRead, h]

/-- Everything a host write of PB can do. -/
theorem hostPbWrite_cases (s : State) (a : BitVec 34) (v : Byte) :
    (s.mode.ownsPb = true ∧ hostPbWrite a v s = .refused .hostPbWhileBusy) ∨
    (s.mode.ownsPb = false ∧ hostPbWrite a v s = .next { s with pb := memWrite s.pb a.toNat v }) := by
  cases h : s.mode.ownsPb <;> simp [hostPbWrite, h]

/-! ## An atomic step as an outcome -/

/-- Everything a tick can do (00 R7). -/
theorem tick_next {s t : State} (h : tick s = .next t) :
    blockStep s = .stepped t ∨ (blockStep s = .held ∧ t = s) ∨ blockStep s = .faulted t ∨ (blockStep s = .quiescent ∧ t = s) := by
  unfold tick Attempt.outcome at h
  split at h <;> simp_all

/-! ## Running a unit -/

section run
variable {st : State → Attempt} {going : State → Bool}

theorem runUnit_stop {s : State} (h : going s = false) (k : Nat) : runUnit st going k s = .next s := by
  cases k <;> simp [runUnit, h]

theorem runUnit_stepped {s t : State} (h : going s = true) (hs : st s = .stepped t) (k : Nat) :
    runUnit st going (k + 1) s = runUnit st going k t := by simp [runUnit, h, hs]

theorem runUnit_faulted {s t : State} (h : going s = true) (hs : st s = .faulted t) (k : Nat) :
    runUnit st going (k + 1) s = .next t := by simp [runUnit, h, hs]

theorem runUnit_held {s : State} (hs : st s = .held) (k : Nat) : runUnit st going k s = .next s := by
  cases k with
  | zero => rfl
  | succ k => by_cases h : going s = true <;> simp [runUnit, h, hs]

/-- A property that every atomic step of the unit keeps holds where the unit's run ends. -/
theorem runUnit_keeps {P : State → Prop}
    (hstep : ∀ s t, P s → going s = true → st s = .stepped t ∨ st s = .faulted t → P t) :
    ∀ k s t, P s → runUnit st going k s = .next t → P t := by
  intro k
  induction k with
  | zero => intro s t hp h; simp [runUnit] at h; exact h ▸ hp
  | succ k ih =>
    intro s t hp h
    unfold runUnit at h
    split at h
    next hg =>
      split at h
      next s' hs => exact ih s' t (hstep s s' hp hg (.inl hs)) h
      next => simp at h; exact h ▸ hp
      next s' hs => simp at h; exact h ▸ hstep s s' hp hg (.inr hs)
      next => simp at h; exact h ▸ hp
      next => simp at h
    next => simp at h; exact h ▸ hp

end run

/-- Atomic steps that hold or are over change nothing. -/
theorem ticks_fix {s : State} (h : tick s = .next s) : ∀ k, ticks k s = .next s
  | 0 => rfl
  | k + 1 => by simp [ticks, h, ticks_fix h k]

/-- The run of a unit is a number of atomic steps of the block, at most as many as its bound. -/
theorem runUnit_eq_ticks {st : State → Attempt} {going : State → Bool} (hst : ∀ s, going s = true → blockStep s = st s) :
    ∀ k s, ∃ j, j ≤ k ∧ runUnit st going k s = ticks j s := by
  intro k
  induction k with
  | zero => intro s; exact ⟨0, Nat.le_refl 0, rfl⟩
  | succ k ih =>
    intro s
    unfold runUnit
    split
    next hg =>
      have hb := hst s hg
      split
      next s' hs =>
        obtain ⟨j, hj, e⟩ := ih s'
        exact ⟨j + 1, by omega, by simp [ticks, tick, hb, hs, Attempt.outcome, e]⟩
      next hs => exact ⟨0, by omega, rfl⟩
      next s' hs => exact ⟨1, by omega, by simp [ticks, tick, hb, hs, Attempt.outcome]⟩
      next hs => exact ⟨0, by omega, rfl⟩
      next r hs => exact ⟨1, by omega, by simp [ticks, tick, hb, hs, Attempt.outcome]⟩
    next => exact ⟨0, by omega, rfl⟩

/-! ## The unit a tick runs -/

theorem tick_hparse {s : State} (h : s.mode = .hparse) : tick s = Attempt.outcome s (parseStep s) := by rw [tick, blockStep, h]

theorem tick_hser {s : State} (h : s.mode = .hser) : tick s = Attempt.outcome s (serializeStep s) := by rw [tick, blockStep, h]

theorem tick_dec {s : State} (h : s.mode = .dec) : tick s = Attempt.outcome s (decoderStep s) := by rw [tick, blockStep, h]

theorem tick_enc {s : State} (h : s.mode = .enc) : tick s = Attempt.outcome s (encoderStep s) := by rw [tick, blockStep, h]

end Sys2Proof.Machine
end

