-- ==== Sys2Proof/Laws/Decoder.lean ====
section
/-! SUPPORT. What the decoder does: each of its steps in closed form, and then whole runs of bytes and pixels, from which the meanings of
DEC.RUN and DEC.RAW (41_rle_decoder R98, R101) follow. -/

namespace Sys2Proof.Machine

variable {s : State}

/-! ## Bounds -/

/-- With a legal BPP, CAP fits in 34 bits (00 R5). -/
theorem cap_lt (h : s.bpp = 3 ∨ s.bpp = 4) : s.cap < 2 ^ 34 := by
  have h1 := s.geomW.isLt
  have h2 := s.geomH.isLt
  have h3 : s.geomW.toNat * s.geomH.toNat ≤ 65535 * 65535 := Nat.mul_le_mul (by omega) (by omega)
  unfold State.cap State.bpp at *
  rcases h with h | h <;> rw [h] <;> omega

/-- CAP is a whole number of pixels. -/
theorem cap_mod (s : State) : s.cap % s.bpp = 0 := by rw [cap_eq]; exact Nat.mul_mod_left _ _

/-! ## One step -/

theorem decoderStep_hdr {p : Byte} {q : List InItem} (hd : s.dstate = .hdr) (hq : s.inq = .byte p :: q) :
    decoderStep s = .stepped (dispatchPacket (packetIsRun p) (packetCountField p) { s with inq := q, ipos := s.ipos + 1 }) := by
  simp [decoderStep, hd, decHdrStep, inPop_byte hq]

theorem decoderStep_runPix_more {b : Byte} {q : List InItem} (hd : s.dstate = .runPix) (hq : s.inq = .byte b :: q)
    (h : s.dbi.toNat + 1 ≠ s.bpp) :
    decoderStep s = .stepped { s with
      inq := q, ipos := s.ipos + 1, pix := setPixelByte s.pix s.dbi b, dbi := s.dbi + 1 } := by
  simp [decoderStep, hd, decRunPixStep, inPop_byte hq, h]

theorem decoderStep_runPix_last {b : Byte} {q : List InItem} (hd : s.dstate = .runPix) (hq : s.inq = .byte b :: q)
    (h : s.dbi.toNat + 1 = s.bpp) :
    decoderStep s = .stepped { s with
      inq := q, ipos := s.ipos + 1, pix := setPixelByte s.pix s.dbi b, dbi := 0, dstate := .runOut } := by
  simp [decoderStep, hd, decRunPixStep, inPop_byte hq, h]

theorem decoderStep_runOut (hd : s.dstate = .runOut) (hp : s.prod.toNat < s.cap) :
    decoderStep s = .stepped (pixelByteDone { s with
      pb := memWrite s.pb s.prod.toNat (pixelByte s.pix s.dbi), prod := s.prod + 1 }) := by
  simp [decoderStep, hd, decRunOutStep, blockWrite_inside hp]

theorem decoderStep_raw {b : Byte} {q : List InItem} (hd : s.dstate = .raw) (hq : s.inq = .byte b :: q)
    (hp : s.prod.toNat < s.cap) :
    decoderStep s = .stepped (pixelByteDone { s with
      inq := q, ipos := s.ipos + 1, pb := memWrite s.pb s.prod.toNat b, prod := s.prod + 1 }) := by
  have e : decoderStep s = decRawStep s := by simp [decoderStep, hd]
  rw [e, decRawStep, inPop_byte hq]
  exact if_pos hp

/-- The three places of TruncatedStream (41 R106). -/
theorem decoderStep_eos {q : List InItem} (hd : s.dstate ≠ .runOut) (hq : s.inq = .eos :: q) :
    decoderStep s = .faulted (raise .truncatedStream (iposArg s) s) := by
  cases h : s.dstate <;>
    simp_all [decoderStep, decHdrStep, decRunPixStep, decRawStep, inPop_eos hq]

/-- A decoder that needs a byte holds on an empty IN (20 R45). -/
theorem decoderStep_empty (hd : s.dstate ≠ .runOut) (hq : s.inq = []) : decoderStep s = .held := by
  cases h : s.dstate <;>
    simp_all [decoderStep, decHdrStep, decRunPixStep, decRawStep, inPop_empty hq]

theorem pixelByteDone_more (h : s.dbi.toNat + 1 ≠ s.bpp) : pixelByteDone s = { s with dbi := s.dbi + 1 } := by
  simp [pixelByteDone, h]

theorem pixelByteDone_last (h : s.dbi.toNat + 1 = s.bpp) : pixelByteDone s = pixelDone { s with dbi := 0 } := by
  simp [pixelByteDone, h]

/-- `pixel_done()` with room and pixels left. -/
theorem pixelDone_mid (hc : s.prod.toNat ≠ s.cap) (hl : s.pktLeft - 1 ≠ 0) :
    pixelDone s = { s with pktLeft := s.pktLeft - 1 } := by
  show (if s.prod.toNat = s.cap then _ else if s.pktLeft - 1 = 0 then _ else _) = _
  rw [if_neg hc, if_neg hl]

/-- `pixel_done()` at the packet's last pixel, with room left. -/
theorem pixelDone_end (hc : s.prod.toNat ≠ s.cap) (hl : s.pktLeft - 1 = 0) :
    pixelDone s = { s with pktLeft := s.pktLeft - 1, dstate := .hdr } := by
  show (if s.prod.toNat = s.cap then _ else if s.pktLeft - 1 = 0 then _ else _) = _
  rw [if_neg hc, if_pos hl]

/-- `pixel_done()` at capacity: the decode completes, and pixels left over set OVR. -/
theorem pixelDone_full (hc : s.prod.toNat = s.cap) :
    pixelDone s = { s with
      pktLeft := s.pktLeft - 1, ovr := s.ovr || s.pktLeft - 1 != 0, mode := .idle, done := true } := by
  show (if s.prod.toNat = s.cap then _ else if s.pktLeft - 1 = 0 then _ else _) = _
  rw [if_pos hc]
  rfl

theorem decoderStep_runOut_outside (hd : s.dstate = .runOut) (hp : s.cap ≤ s.prod.toNat) :
    decoderStep s = .stop (.pbOutside s.prod.toNat) := by
  simp [decoderStep, hd, decRunOutStep, blockWrite_outside hp]

theorem decoderStep_raw_outside {b : Byte} {q : List InItem} (hd : s.dstate = .raw) (hq : s.inq = .byte b :: q)
    (hp : s.cap ≤ s.prod.toNat) : decoderStep s = .stop (.pbOutside s.prod.toNat) := by
  have e : decoderStep s = decRawStep s := by simp [decoderStep, hd]
  rw [e, decRawStep, inPop_byte hq]
  exact blockWrite_outside hp

/-- Everything one step of the decoder can do, from what state, and with what result (41 R97, R99, R100, R102, R106). -/
inductive DecoderCase (s : State) : Attempt → Prop where
  | empty (hd : s.dstate ≠ .runOut) (hq : s.inq = []) : DecoderCase s .held
  | ended {q : List InItem} (hd : s.dstate ≠ .runOut) (hq : s.inq = .eos :: q) :
      DecoderCase s (.faulted (raise .truncatedStream (iposArg s) s))
  | header {p : Byte} {q : List InItem} (hd : s.dstate = .hdr) (hq : s.inq = .byte p :: q) :
      DecoderCase s (.stepped (dispatchPacket (packetIsRun p) (packetCountField p) { s with inq := q, ipos := s.ipos + 1 }))
  | pixMore {b : Byte} {q : List InItem} (hd : s.dstate = .runPix) (hq : s.inq = .byte b :: q) (h : s.dbi.toNat + 1 ≠ s.bpp) :
      DecoderCase s (.stepped { s with
        inq := q, ipos := s.ipos + 1, pix := setPixelByte s.pix s.dbi b, dbi := s.dbi + 1 })
  | pixLast {b : Byte} {q : List InItem} (hd : s.dstate = .runPix) (hq : s.inq = .byte b :: q) (h : s.dbi.toNat + 1 = s.bpp) :
      DecoderCase s (.stepped { s with
        inq := q, ipos := s.ipos + 1, pix := setPixelByte s.pix s.dbi b, dbi := 0, dstate := .runOut })
  | out (hd : s.dstate = .runOut) (hp : s.prod.toNat < s.cap) :
      DecoderCase s (.stepped (pixelByteDone { s with
        pb := memWrite s.pb s.prod.toNat (pixelByte s.pix s.dbi), prod := s.prod + 1 }))
  | outOutside (hd : s.dstate = .runOut) (hp : s.cap ≤ s.prod.toNat) : DecoderCase s (.stop (.pbOutside s.prod.toNat))
  | literal {b : Byte} {q : List InItem} (hd : s.dstate = .raw) (hq : s.inq = .byte b :: q) (hp : s.prod.toNat < s.cap) :
      DecoderCase s (.stepped (pixelByteDone { s with
        inq := q, ipos := s.ipos + 1, pb := memWrite s.pb s.prod.toNat b, prod := s.prod + 1 }))
  | literalOutside {b : Byte} {q : List InItem} (hd : s.dstate = .raw) (hq : s.inq = .byte b :: q)
      (hp : s.cap ≤ s.prod.toNat) : DecoderCase s (.stop (.pbOutside s.prod.toNat))

theorem decoderStep_cases (s : State) : DecoderCase s (decoderStep s) := by
  by_cases hr : s.dstate = .runOut
  · by_cases hp : s.prod.toNat < s.cap
    · rw [decoderStep_runOut hr hp]; exact .out hr hp
    · rw [decoderStep_runOut_outside hr (by omega)]; exact .outOutside hr (by omega)
  · match hq : s.inq with
    | [] => rw [decoderStep_empty hr hq]; exact .empty hr hq
    | .eos :: q => rw [decoderStep_eos hr hq]; exact .ended hr hq
    | .byte b :: q =>
      cases hd : s.dstate with
      | hdr => rw [decoderStep_hdr hd hq]; exact .header hd hq
      | runPix =>
        by_cases h : s.dbi.toNat + 1 = s.bpp
        · rw [decoderStep_runPix_last hd hq h]; exact .pixLast hd hq h
        · rw [decoderStep_runPix_more hd hq h]; exact .pixMore hd hq h
      | runOut => exact absurd hd hr
      | raw =>
        by_cases hp : s.prod.toNat < s.cap
        · rw [decoderStep_raw hd hq hp]; exact .literal hd hq hp
        · rw [decoderStep_raw_outside hd hq (by omega)]; exact .literalOutside hd hq (by omega)

/-- Everything that can follow a byte written to PB (41 R100, R102, R103). -/
inductive WrittenCase (s : State) : State → Prop where
  | more (h : s.dbi.toNat + 1 ≠ s.bpp) : WrittenCase s { s with dbi := s.dbi + 1 }
  | mid (h : s.dbi.toNat + 1 = s.bpp) (hc : s.prod.toNat ≠ s.cap) (hl : s.pktLeft - 1 ≠ 0) :
      WrittenCase s { s with dbi := 0, pktLeft := s.pktLeft - 1 }
  | ends (h : s.dbi.toNat + 1 = s.bpp) (hc : s.prod.toNat ≠ s.cap) (hl : s.pktLeft - 1 = 0) :
      WrittenCase s { s with dbi := 0, pktLeft := s.pktLeft - 1, dstate := .hdr }
  | full (h : s.dbi.toNat + 1 = s.bpp) (hc : s.prod.toNat = s.cap) :
      WrittenCase s { s with
        dbi := 0, pktLeft := s.pktLeft - 1, ovr := s.ovr || s.pktLeft - 1 != 0, mode := .idle, done := true }

theorem pixelByteDone_cases (s : State) : WrittenCase s (pixelByteDone s) := by
  by_cases h : s.dbi.toNat + 1 = s.bpp
  · rw [pixelByteDone_last h]
    by_cases hc : s.prod.toNat = s.cap
    · rw [pixelDone_full (by exact hc)]; exact .full h hc
    · by_cases hl : s.pktLeft - 1 = 0
      · rw [pixelDone_end (by exact hc) (by exact hl)]; exact .ends h hc hl
      · rw [pixelDone_mid (by exact hc) (by exact hl)]; exact .mid h hc hl
  · rw [pixelByteDone_more h]; exact .more h

theorem pixelByteDone_result {s t : State} (h : pixelByteDone s = t) : WrittenCase s t := h ▸ pixelByteDone_cases s

/-- What follows a written byte does not depend on PB. -/
theorem pixelByteDone_pb (s : State) (m : Memory) : pixelByteDone { s with pb := m } = { pixelByteDone s with pb := m } := by
  by_cases h : s.dbi.toNat + 1 = s.bpp
  · rw [pixelByteDone_last h, pixelByteDone_last (s := { s with pb := m }) h]
    by_cases hc : s.prod.toNat = s.cap
    · rw [pixelDone_full (by exact hc), pixelDone_full (by exact hc)]
    · by_cases hl : s.pktLeft - 1 = 0
      · rw [pixelDone_end (by exact hc) (by exact hl), pixelDone_end (by exact hc) (by exact hl)]
      · rw [pixelDone_mid (by exact hc) (by exact hl), pixelDone_mid (by exact hc) (by exact hl)]
  · rw [pixelByteDone_more h, pixelByteDone_more (s := { s with pb := m }) h]

/-! ## Bytes within one pixel -/

theorem packetGoing_eq (hm : s.mode = .dec) (hd : s.dstate ≠ .hdr) : packetGoing s = true := by
  simp [packetGoing, hm, hd]

theorem bv_add_succ {w : Nat} (x : BitVec w) (n : Nat) : x + 1 + BitVec.ofNat w n = x + BitVec.ofNat w (n + 1) := by
  rw [BitVec.add_assoc]; congr 1; apply BitVec.eq_of_toNat_eq; simp [Nat.add_comm]

/-- Literal bytes of a raw packet that do not end a pixel. -/
theorem raw_bytes (k : Nat) (ys : List Byte) (rest : List InItem) :
    ∀ s : State, s.mode = .dec → s.dstate = .raw → s.bpp = 3 ∨ s.bpp = 4 →
      s.prod.toNat + ys.length ≤ s.cap → s.dbi.toNat + ys.length < s.bpp → s.inq = onIn ys rest →
      runUnit decoderStep packetGoing (k + ys.length) s = runUnit decoderStep packetGoing k { s with
        pb := memWriteList s.pb s.prod.toNat ys, prod := s.prod + BitVec.ofNat 34 ys.length
        ipos := s.ipos + BitVec.ofNat 35 ys.length, dbi := s.dbi + BitVec.ofNat 2 ys.length, inq := rest } := by
  induction ys with
  | nil =>
    intro s _ _ _ _ _ hq
    simp only [onIn, List.map_nil, List.nil_append] at hq
    simp only [List.length_nil, Nat.add_zero, memWriteList, BitVec.add_zero, ← hq]
  | cons b ys ih =>
    intro s hm hd hb hp hi hq
    simp only [List.length_cons] at hp hi
    have hlt := cap_lt hb
    rw [List.length_cons, ← Nat.add_assoc, runUnit_stepped (packetGoing_eq hm (by simp [hd]))
      (decoderStep_raw hd (by simpa [onIn] using hq) (by omega)), pixelByteDone_more (by simp [State.bpp] at hi ⊢; omega)]
    have e : (s.prod + 1).toNat = s.prod.toNat + 1 := by
      rw [BitVec.toNat_add]; simp; omega
    have e2 : (s.dbi + 1).toNat = s.dbi.toNat + 1 := by
      rw [BitVec.toNat_add]; simp; have : s.bpp ≤ 4 := by omega
      omega
    rw [ih]
    · simp only [e, memWriteList, bv_add_succ]
    · exact hm
    · exact hd
    · exact hb
    · simp only [e]; exact (by omega : s.prod.toNat + 1 + ys.length ≤ s.cap)
    · simp only [e2]; exact (by omega : s.dbi.toNat + 1 + ys.length < s.bpp)
    · rfl

/-! ## One pixel -/

theorem toNat_add_ofNat {w : Nat} (x : BitVec w) (n : Nat) (h : x.toNat + n < 2 ^ w) :
    (x + BitVec.ofNat w n).toNat = x.toNat + n := by
  rw [BitVec.toNat_add, BitVec.toNat_ofNat, Nat.add_mod_mod, Nat.mod_eq_of_lt h]

theorem bv_add_ofNat {w : Nat} (x : BitVec w) (m n : Nat) :
    x + BitVec.ofNat w m + BitVec.ofNat w n = x + BitVec.ofNat w (m + n) := by
  rw [BitVec.add_assoc]; congr 1; apply BitVec.eq_of_toNat_eq; simp

theorem onIn_append (xs ys : List Byte) (rest : List InItem) : onIn (xs ++ ys) rest = onIn xs (onIn ys rest) := by
  simp [onIn]

/-- One whole literal pixel. -/
theorem raw_pixel (k : Nat) (x : List Byte) (rest : List InItem) (hm : s.mode = .dec) (hd : s.dstate = .raw)
    (hb : s.bpp = 3 ∨ s.bpp = 4) (hi : s.dbi = 0) (hx : x.length = s.bpp) (hp : s.prod.toNat + s.bpp ≤ s.cap)
    (hq : s.inq = onIn x rest) :
    runUnit decoderStep packetGoing (k + s.bpp) s = runUnit decoderStep packetGoing k (pixelDone { s with
      pb := memWriteList s.pb s.prod.toNat x, prod := s.prod + BitVec.ofNat 34 s.bpp
      ipos := s.ipos + BitVec.ofNat 35 s.bpp, dbi := 0, inq := rest }) := by
  obtain ⟨ys, b, rfl⟩ : ∃ ys b, x = ys ++ [b] :=
    ⟨x.dropLast, x.getLast (by intro h; simp [h] at hx; omega), (List.dropLast_append_getLast _).symm⟩
  simp only [List.length_append, List.length_cons, List.length_nil] at hx
  have hlt := cap_lt hb
  have hbp : s.bpp ≤ 4 := by omega
  have ep := toNat_add_ofNat s.prod ys.length (by omega)
  have e34 : s.prod + BitVec.ofNat 34 ys.length + 1 = s.prod + BitVec.ofNat 34 s.bpp := by
    rw [← hx]; exact bv_add_ofNat _ _ _
  have e35 : s.ipos + BitVec.ofNat 35 ys.length + 1 = s.ipos + BitVec.ofNat 35 s.bpp := by
    rw [← hx]; exact bv_add_ofNat _ _ _
  have ed : (s.dbi + BitVec.ofNat 2 ys.length).toNat + 1 = s.bpp := by
    rw [toNat_add_ofNat _ _ (by simp [hi]; omega)]; simp [hi]; omega
  rw [show k + s.bpp = (k + 1) + ys.length by omega,
    raw_bytes (k + 1) ys (onIn [b] rest) s hm hd hb (by omega) (by simp [hi]; omega) (by rw [hq, onIn_append])]
  refine (runUnit_stepped (by exact packetGoing_eq hm (by simp [hd])) (decoderStep_raw (b := b) (q := rest) (by exact hd)
    rfl (by simp only [ep]; exact (by omega : s.prod.toNat + ys.length < s.cap))) k).trans ?_
  rw [pixelByteDone_last (by exact ed)]
  simp only [ep, e34, e35, memWriteList_append, memWriteList]

/-- Whole literal pixels, none of them the last of the packet or of the buffer. -/
theorem raw_pixels (k : Nat) (rest : List InItem) (j : Nat) :
    ∀ (xs : List Byte) (s : State), s.mode = .dec → s.dstate = .raw → s.bpp = 3 ∨ s.bpp = 4 → s.dbi = 0 →
      j < s.pktLeft.toNat → xs.length = j * s.bpp → s.prod.toNat + j * s.bpp < s.cap → s.inq = onIn xs rest →
      runUnit decoderStep packetGoing (k + j * s.bpp) s = runUnit decoderStep packetGoing k { s with
        pb := memWriteList s.pb s.prod.toNat xs, prod := s.prod + BitVec.ofNat 34 (j * s.bpp)
        ipos := s.ipos + BitVec.ofNat 35 (j * s.bpp), inq := rest
        pktLeft := s.pktLeft - BitVec.ofNat 8 j } := by
  induction j with
  | zero =>
    intro xs s _ _ _ _ _ hx _ hq
    simp only [Nat.zero_mul, List.length_eq_zero_iff] at hx
    subst hx
    simp only [onIn, List.map_nil, List.nil_append] at hq
    simp only [Nat.zero_mul, Nat.add_zero, memWriteList, BitVec.add_zero, BitVec.sub_zero, ← hq]
  | succ j ih =>
    intro xs s hm hd hb hi hl hx hp hq
    have hlt := cap_lt hb
    rw [Nat.succ_mul] at hx hp
    have hbp : 3 ≤ s.bpp := by omega
    obtain ⟨ys, zs, rfl, hy⟩ : ∃ ys zs, xs = ys ++ zs ∧ ys.length = s.bpp :=
      ⟨xs.take s.bpp, xs.drop s.bpp, (List.take_append_drop _ _).symm, by rw [List.length_take]; omega⟩
    rw [List.length_append] at hx
    have ep := toNat_add_ofNat s.prod s.bpp (by omega)
    have hl1 : s.pktLeft - 1 ≠ 0 := by
      intro h
      have h2 : s.pktLeft = 1 := by have := congrArg (· + 1) h; simpa using this
      rw [h2] at hl; simp at hl
    have el : (s.pktLeft - 1).toNat = s.pktLeft.toNat - 1 := by
      rw [BitVec.toNat_sub_of_le (by simp [BitVec.le_def]; omega)]; rfl
    rw [Nat.succ_mul, ← Nat.add_assoc, raw_pixel (k + j * s.bpp) ys (onIn zs rest) hm hd hb hi hy (by omega)
      (by rw [hq, onIn_append]), pixelDone_mid]
    · have e := ih zs { s with
        pb := memWriteList s.pb s.prod.toNat ys, prod := s.prod + BitVec.ofNat 34 s.bpp
        ipos := s.ipos + BitVec.ofNat 35 s.bpp, dbi := 0, inq := onIn zs rest, pktLeft := s.pktLeft - 1 }
        hm hd hb rfl (by rw [el]; omega) (show zs.length = j * s.bpp by omega)
        (by rw [ep]; exact (by omega : s.prod.toNat + s.bpp + j * s.bpp < s.cap)) rfl
      refine Eq.trans e ?_
      simp only [ep, memWriteList_append, hy]
      rw [hi]
      congr 2
      · rw [BitVec.sub_sub]; congr 1; apply BitVec.eq_of_toNat_eq; simp [Nat.add_comm]
      · exact (bv_add_ofNat _ _ _).trans (by rw [Nat.add_comm]; rfl)
      · exact (bv_add_ofNat _ _ _).trans (by rw [Nat.add_comm]; rfl)
    · rw [ep]; exact (by omega : s.prod.toNat + s.bpp ≠ s.cap)
    · exact hl1

/-! ## The pixel of a run packet -/

/-- Bytes of the pixel that do not end it. -/
theorem runPix_bytes (k : Nat) (ys : List Byte) (rest : List InItem) :
    ∀ s : State, s.mode = .dec → s.dstate = .runPix → s.bpp = 3 ∨ s.bpp = 4 → s.dbi.toNat + ys.length < s.bpp →
      s.inq = onIn ys rest →
      runUnit decoderStep packetGoing (k + ys.length) s = runUnit decoderStep packetGoing k { s with
        pix := loadFrom s.pix s.dbi.toNat ys, ipos := s.ipos + BitVec.ofNat 35 ys.length
        dbi := s.dbi + BitVec.ofNat 2 ys.length, inq := rest } := by
  induction ys with
  | nil =>
    intro s _ _ _ _ hq
    simp only [onIn, List.map_nil, List.nil_append] at hq
    simp only [List.length_nil, Nat.add_zero, loadFrom, BitVec.add_zero, ← hq]
  | cons b ys ih =>
    intro s hm hd hb hi hq
    simp only [List.length_cons] at hi
    have e2 : (s.dbi + 1).toNat = s.dbi.toNat + 1 := by
      rw [BitVec.toNat_add]; simp; have : s.bpp ≤ 4 := by omega
      omega
    rw [List.length_cons, ← Nat.add_assoc, runUnit_stepped (packetGoing_eq hm (by simp [hd]))
      (decoderStep_runPix_more hd (b := b) (q := onIn ys rest) (by simpa [onIn] using hq) (by omega))]
    refine (ih { s with
      inq := onIn ys rest, ipos := s.ipos + 1, pix := setPixelByte s.pix s.dbi b, dbi := s.dbi + 1 } hm hd hb (show
          (s.dbi + 1).toNat + ys.length < s.bpp by rw [e2]; omega) rfl).trans ?_
    simp only [e2, loadFrom, bv_add_succ, BitVec.ofNat_toNat, BitVec.setWidth_eq]

/-- The whole pixel. -/
theorem runPix_pixel (k : Nat) (x : List Byte) (rest : List InItem) (hm : s.mode = .dec) (hd : s.dstate = .runPix)
    (hb : s.bpp = 3 ∨ s.bpp = 4) (hi : s.dbi = 0) (hx : x.length = s.bpp) (hq : s.inq = onIn x rest) :
    runUnit decoderStep packetGoing (k + s.bpp) s = runUnit decoderStep packetGoing k { s with
      pix := loadFrom s.pix 0 x, ipos := s.ipos + BitVec.ofNat 35 s.bpp, dbi := 0, dstate := .runOut, inq := rest } := by
  obtain ⟨ys, b, rfl⟩ : ∃ ys b, x = ys ++ [b] :=
    ⟨x.dropLast, x.getLast (by intro h; simp [h] at hx; omega), (List.dropLast_append_getLast _).symm⟩
  simp only [List.length_append, List.length_cons, List.length_nil] at hx
  have hbp : s.bpp ≤ 4 := by omega
  have e35 : s.ipos + BitVec.ofNat 35 ys.length + 1 = s.ipos + BitVec.ofNat 35 s.bpp := by
    rw [← hx]; exact bv_add_ofNat _ _ _
  have edb : (s.dbi + BitVec.ofNat 2 ys.length) = BitVec.ofNat 2 ys.length := by rw [hi]; exact BitVec.zero_add _
  have ed : (s.dbi + BitVec.ofNat 2 ys.length).toNat + 1 = s.bpp := by
    rw [toNat_add_ofNat _ _ (by simp [hi]; omega)]; simp [hi]; omega
  rw [show k + s.bpp = (k + 1) + ys.length by omega,
    runPix_bytes (k + 1) ys (onIn [b] rest) s hm hd hb (by simp [hi]; omega) (by rw [hq, onIn_append])]
  refine (runUnit_stepped (by exact packetGoing_eq hm (by simp [hd])) (decoderStep_runPix_last (b := b) (q := rest)
    (by exact hd) rfl (by exact ed)) k).trans ?_
  have h0 : s.dbi.toNat = 0 := by rw [hi]; rfl
  simp only [e35, edb, loadFrom_append, loadFrom, h0, Nat.zero_add]

/-- Copies of the pixel's bytes that do not end it. -/
theorem runOut_bytes (n : Nat) (x : List Byte) (hm : s.mode = .dec) (hd : s.dstate = .runOut)
    (hb : s.bpp = 3 ∨ s.bpp = 4) (hi : s.dbi = 0) (hxl : x.length = s.bpp)
    (hx : ∀ j : BitVec 2, j.toNat < s.bpp → x[j.toNat]? = some (pixelByte s.pix j))
    (hp : s.prod.toNat + n ≤ s.cap) (hn : n < s.bpp) :
    ∀ k, runUnit decoderStep packetGoing (k + n) s = runUnit decoderStep packetGoing k { s with
      pb := memWriteList s.pb s.prod.toNat (x.take n), prod := s.prod + BitVec.ofNat 34 n
      dbi := s.dbi + BitVec.ofNat 2 n } := by
  have hlt := cap_lt hb
  induction n with
  | zero =>
    intro k
    simp only [List.take_zero, Nat.add_zero, memWriteList, BitVec.add_zero]
  | succ n ih =>
    intro k
    have ep := toNat_add_ofNat s.prod n (by omega)
    have ed : (s.dbi + BitVec.ofNat 2 n).toNat = n := by
      rw [toNat_add_ofNat _ _ (by simp [hi]; omega)]; simp [hi]
    have hxn := hx (s.dbi + BitVec.ofNat 2 n) (by rw [ed]; omega)
    rw [ed] at hxn
    rw [show k + (n + 1) = (k + 1) + n by omega, ih (by omega) (by omega) (k + 1)]
    refine (runUnit_stepped (by exact packetGoing_eq hm (by simp [hd])) (decoderStep_runOut (by exact hd)
      (by simp only [ep]; exact (by omega : s.prod.toNat + n < s.cap))) k).trans ?_
    rw [pixelByteDone_more (by simp only [ed]; exact (by omega : n + 1 ≠ s.bpp))]
    have et : x.take (n + 1) = x.take n ++ [pixelByte s.pix (s.dbi + BitVec.ofNat 2 n)] := by
      rw [List.take_add_one, hxn]; rfl
    have el : (x.take n).length = n := by rw [List.length_take]; omega
    have e34 : s.prod + BitVec.ofNat 34 n + 1 = s.prod + BitVec.ofNat 34 (n + 1) := bv_add_ofNat _ _ _
    have e2 : s.dbi + BitVec.ofNat 2 n + 1 = s.dbi + BitVec.ofNat 2 (n + 1) := bv_add_ofNat _ _ _
    simp only [et, memWriteList_append, memWriteList, el, ep, e34, e2]

/-- One whole copy of the pixel. -/
theorem runOut_pixel (k : Nat) (x : List Byte) (hm : s.mode = .dec) (hd : s.dstate = .runOut)
    (hb : s.bpp = 3 ∨ s.bpp = 4) (hi : s.dbi = 0) (hxl : x.length = s.bpp)
    (hx : ∀ j : BitVec 2, j.toNat < s.bpp → x[j.toNat]? = some (pixelByte s.pix j))
    (hp : s.prod.toNat + s.bpp ≤ s.cap) :
    runUnit decoderStep packetGoing (k + s.bpp) s = runUnit decoderStep packetGoing k (pixelDone { s with
      pb := memWriteList s.pb s.prod.toNat x, prod := s.prod + BitVec.ofNat 34 s.bpp, dbi := 0 }) := by
  have hlt := cap_lt hb
  obtain ⟨n, hn⟩ : ∃ n, s.bpp = n + 1 := ⟨s.bpp - 1, by omega⟩
  have ep := toNat_add_ofNat s.prod n (by omega)
  have ed : (s.dbi + BitVec.ofNat 2 n).toNat = n := by
    rw [toNat_add_ofNat _ _ (by simp [hi]; omega)]; simp [hi]
  have hxn := hx (s.dbi + BitVec.ofNat 2 n) (by rw [ed]; omega)
  rw [ed] at hxn
  have et : x = x.take n ++ [pixelByte s.pix (s.dbi + BitVec.ofNat 2 n)] := by
    have h := List.take_add_one (l := x) (i := n)
    rw [hxn, ← hn, ← hxl, List.take_length] at h
    exact h
  have el : (x.take n).length = n := by rw [List.length_take]; omega
  have e34 : s.prod + BitVec.ofNat 34 n + 1 = s.prod + BitVec.ofNat 34 s.bpp := by rw [hn]; exact bv_add_ofNat _ _ _
  rw [show k + s.bpp = (k + 1) + n by omega, runOut_bytes n x hm hd hb hi hxl hx (by omega) (by omega) (k + 1)]
  refine (runUnit_stepped (by exact packetGoing_eq hm (by simp [hd])) (decoderStep_runOut (by exact hd)
    (by simp only [ep]; exact (by omega : s.prod.toNat + n < s.cap))) k).trans ?_
  rw [pixelByteDone_last (by simp only [ed]; exact hn.symm)]
  have eg : memWriteList s.pb s.prod.toNat x =
      memWrite (memWriteList s.pb s.prod.toNat (x.take n)) (s.prod.toNat + n) (pixelByte s.pix (s.dbi + BitVec.ofNat 2 n)) := by
    conv_lhs => rw [et, memWriteList_append, el]
    rfl
  simp only [ep, e34, eg]

/-- Whole copies of the pixel, none of them the last of the packet or of the buffer. -/
theorem runOut_pixels (k : Nat) (x : List Byte) (j : Nat) :
    ∀ s : State, s.mode = .dec → s.dstate = .runOut → s.bpp = 3 ∨ s.bpp = 4 → s.dbi = 0 → x.length = s.bpp →
      (∀ j : BitVec 2, j.toNat < s.bpp → x[j.toNat]? = some (pixelByte s.pix j)) →
      j < s.pktLeft.toNat → s.prod.toNat + j * s.bpp < s.cap →
      runUnit decoderStep packetGoing (k + j * s.bpp) s = runUnit decoderStep packetGoing k { s with
        pb := memWriteList s.pb s.prod.toNat (List.replicate j x).flatten
        prod := s.prod + BitVec.ofNat 34 (j * s.bpp), pktLeft := s.pktLeft - BitVec.ofNat 8 j } := by
  induction j with
  | zero =>
    intro s _ _ _ _ _ _ _ _
    simp only [List.replicate_zero, List.flatten_nil, Nat.zero_mul, Nat.add_zero, memWriteList, BitVec.add_zero, BitVec.sub_zero]
  | succ j ih =>
    intro s hm hd hb hi hxl hx hl hp
    have hlt := cap_lt hb
    rw [Nat.succ_mul] at hp
    have hbp : 3 ≤ s.bpp := by omega
    have ep := toNat_add_ofNat s.prod s.bpp (by omega)
    have hl1 : s.pktLeft - 1 ≠ 0 := by
      intro h
      have h2 : s.pktLeft = 1 := by have := congrArg (· + 1) h; simpa using this
      rw [h2] at hl; simp at hl
    have el : (s.pktLeft - 1).toNat = s.pktLeft.toNat - 1 := by
      rw [BitVec.toNat_sub_of_le (by simp [BitVec.le_def]; omega)]; rfl
    rw [Nat.succ_mul, ← Nat.add_assoc, runOut_pixel (k + j * s.bpp) x hm hd hb hi hxl hx (by omega), pixelDone_mid]
    · have e := ih { s with
        pb := memWriteList s.pb s.prod.toNat x, prod := s.prod + BitVec.ofNat 34 s.bpp, dbi := 0, pktLeft := s.pktLeft - 1 }
        hm hd hb rfl hxl hx (by rw [el]; omega)
        (by rw [ep]; exact (by omega : s.prod.toNat + s.bpp + j * s.bpp < s.cap))
      refine Eq.trans e ?_
      simp only [ep, List.replicate_succ, List.flatten_cons, memWriteList_append, hxl]
      rw [hi]
      congr 2
      · rw [BitVec.sub_sub]; congr 1; apply BitVec.eq_of_toNat_eq; simp [Nat.add_comm]
      · exact (bv_add_ofNat _ _ _).trans (by rw [Nat.add_comm]; rfl)
    · rw [ep]; exact (by omega : s.prod.toNat + s.bpp ≠ s.cap)
    · exact hl1

/-- What ends a packet after its last pixel: the decode with it, or a return to D_HDR (41 R103). -/
theorem lastPixel_done (k : Nat) (s : State) (c m : Nat) (hm : s.mode = .dec)
   (hb : s.bpp = 3 ∨ s.bpp = 4)
   (hl : s.pktLeft.toNat + (m - 1) = c) (hl1 : 1 ≤ s.pktLeft.toNat) (hm1 : 1 ≤ m) (full : Bool) (room : Nat)
   (hf : full = decide (s.prod.toNat = s.cap)) (h1 : s.prod.toNat = s.cap ∨ m = c) (hr : decide (room < c) = (full && decide (m < c))) :
   runUnit decoderStep packetGoing k (pixelDone s) = .next { s with
     pktLeft := BitVec.ofNat 8 (c - m), dstate := if full then s.dstate else .hdr
     ovr := s.ovr || decide (room < c), mode := if full then .idle else .dec, done := s.done || full } := by
  have el : s.pktLeft - 1 = BitVec.ofNat 8 (c - m) := by
    apply BitVec.eq_of_toNat_eq
    rw [BitVec.toNat_sub_of_le (by simp [BitVec.le_def]; omega), BitVec.toNat_ofNat, Nat.mod_eq_of_lt (by have := s.pktLeft.isLt; omega)]; simp; omega
  have hlt : c - m < 256 := by have := s.pktLeft.isLt; omega
  by_cases hc : s.prod.toNat = s.cap
  · have hf' : full = true := by simp [hf, hc]
    have e3 : (BitVec.ofNat 8 (c - m) != 0#8) = decide (m < c) := by
      by_cases h : m < c
      · have : BitVec.ofNat 8 (c - m) ≠ 0 := by
          intro h2; have := congrArg BitVec.toNat h2; simp at this; omega
        simp only [h, decide_true]; exact bne_iff_ne.mpr this
      · have : c - m = 0 := by omega
        simp [h, this]
    rw [pixelDone_full hc, runUnit_stop (by simp [packetGoing]), el]
    simp [hf', hr, e3]
  · have hf' : full = false := by simp [hf, hc]
    have hmc : m = c := by tauto
    have h0 : s.pktLeft - 1 = 0 := by rw [el, hmc]; simp
    rw [pixelDone_end hc h0, runUnit_stop (by simp [packetGoing]), h0]
    simp [hf', hr, hm, hmc]

/-- The pixels a packet finds room for (41 R101, R104). -/
theorem room_facts (cap prod bpp c : Nat) (hb : bpp = 3 ∨ bpp = 4) (hp : prod < cap) (hpm : prod % bpp = 0)
    (hcm : cap % bpp = 0) (hc : 1 ≤ c) (room m : Nat) (hroom : room = (cap - prod) / bpp) (hmd : m = min c room) :
   1 ≤ room ∧ 1 ≤ m ∧ prod + m * bpp ≤ cap ∧ prod + (m-1) * bpp < cap ∧ (prod + m * bpp = cap ↔ m = room) ∧ prod +
       (m - 1) * bpp + bpp = prod + m * bpp := by
  have : 1 ≤ room := by
    rw [hroom]
    rcases hb with rfl | rfl <;> omega
  have h2 : prod + room * bpp = cap := by
    rw [hroom]
    rcases hb with rfl | rfl <;> omega
  have hm : m ≤ room := by omega
  have h1m : 1 ≤ m := by omega
  have h3 : m * bpp ≤ room * bpp := Nat.mul_le_mul_right _ hm
  have h4 : (m - 1) * bpp + bpp = m * bpp := by
    obtain ⟨q, hq⟩ : ∃ q, m = q + 1 := ⟨m - 1, by omega⟩
    rw [hq, Nat.add_sub_cancel, Nat.succ_mul]
  refine ⟨this, h1m, by omega, by omega, ?_, by omega⟩
  constructor
  · intro h
    have : m * bpp = room * bpp := by omega
    exact Nat.eq_of_mul_eq_mul_right (by omega) this
  · intro h; rw [h]; exact h2

/-- `pixel_done()` raises nothing. -/
theorem pixelDone_mode (s : State) (hm : s.mode = .dec) : (pixelDone s).mode ≠ .fault := by
  simp only [pixelDone]; split; simp; split <;> simp [hm]
theorem pixelByteDone_mode (s : State) (hm : s.mode = .dec) : (pixelByteDone s).mode ≠ .fault := by
  simp only [pixelByteDone]; split; exact pixelDone_mode _ hm; simp [hm]

end Sys2Proof.Machine
end

