-- ==== Sys2Proof/Laws/Encoder.lean ====
section
/-! SUPPORT. What the encoder does: everything one of its steps can do (42_rle_encoder R122, R123, R126, R127). -/

namespace Sys2Proof.Machine

variable {s : State}

/-- Everything one step of the encoder can do, from what state, and with what result. -/
inductive EncoderCase (s : State) : Attempt → Prop where
  | loadMore {b : Byte} (he : s.estate = .load) (ha : pixelAddr s.bpp s.pidx.toNat s.ebi.toNat < s.cap)
      (hb : memRead s.pb (pixelAddr s.bpp s.pidx.toNat s.ebi.toNat) = some b) (h : s.ebi.toNat + 1 ≠ s.bpp) :
      EncoderCase s (.stepped { s with cur := setPixelByte s.cur s.ebi b, ebi := s.ebi + 1 })
  | loadLast {b : Byte} (he : s.estate = .load) (ha : pixelAddr s.bpp s.pidx.toNat s.ebi.toNat < s.cap)
      (hb : memRead s.pb (pixelAddr s.bpp s.pidx.toNat s.ebi.toNat) = some b) (h : s.ebi.toNat + 1 = s.bpp) :
      EncoderCase s (.stepped { s with
        cur := setPixelByte s.cur s.ebi b, ebi := 0, run := 1
        estate := if s.pidx.toNat + 1 < s.npix then .scan else .emitHdr })
  | loadUnwritten (he : s.estate = .load) (ha : pixelAddr s.bpp s.pidx.toNat s.ebi.toNat < s.cap)
      (hb : memRead s.pb (pixelAddr s.bpp s.pidx.toNat s.ebi.toNat) = none) :
      EncoderCase s (.stop (.pbUnwritten (pixelAddr s.bpp s.pidx.toNat s.ebi.toNat)))
  | loadOutside (he : s.estate = .load) (ha : s.cap ≤ pixelAddr s.bpp s.pidx.toNat s.ebi.toNat) :
      EncoderCase s (.stop (.pbOutside (pixelAddr s.bpp s.pidx.toNat s.ebi.toNat)))
  | scanDiffers {b : Byte} (he : s.estate = .scan)
      (ha : pixelAddr s.bpp (s.pidx.toNat + s.run.toNat) s.ebi.toNat < s.cap)
      (hb : memRead s.pb (pixelAddr s.bpp (s.pidx.toNat + s.run.toNat) s.ebi.toNat) = some b)
      (hne : b ≠ pixelByte s.cur s.ebi) :
      EncoderCase s (.stepped { s with ebi := 0, estate := .emitHdr })
  | scanMore (he : s.estate = .scan)
      (ha : pixelAddr s.bpp (s.pidx.toNat + s.run.toNat) s.ebi.toNat < s.cap)
      (hb : memRead s.pb (pixelAddr s.bpp (s.pidx.toNat + s.run.toNat) s.ebi.toNat) = some (pixelByte s.cur s.ebi))
      (h : s.ebi.toNat + 1 ≠ s.bpp) : EncoderCase s (.stepped { s with ebi := s.ebi + 1 })
  | scanLast (he : s.estate = .scan)
      (ha : pixelAddr s.bpp (s.pidx.toNat + s.run.toNat) s.ebi.toNat < s.cap)
      (hb : memRead s.pb (pixelAddr s.bpp (s.pidx.toNat + s.run.toNat) s.ebi.toNat) = some (pixelByte s.cur s.ebi))
      (h : s.ebi.toNat + 1 = s.bpp) :
      EncoderCase s (.stepped { s with
        ebi := 0, run := s.run + 1
        estate := if (s.run + 1).toNat = 128 ∨ s.pidx.toNat + (s.run + 1).toNat = s.npix then .emitHdr else .scan })
  | scanUnwritten (he : s.estate = .scan)
      (ha : pixelAddr s.bpp (s.pidx.toNat + s.run.toNat) s.ebi.toNat < s.cap)
      (hb : memRead s.pb (pixelAddr s.bpp (s.pidx.toNat + s.run.toNat) s.ebi.toNat) = none) :
      EncoderCase s (.stop (.pbUnwritten (pixelAddr s.bpp (s.pidx.toNat + s.run.toNat) s.ebi.toNat)))
  | scanOutside (he : s.estate = .scan)
      (ha : s.cap ≤ pixelAddr s.bpp (s.pidx.toNat + s.run.toNat) s.ebi.toNat) :
      EncoderCase s (.stop (.pbOutside (pixelAddr s.bpp (s.pidx.toNat + s.run.toNat) s.ebi.toNat)))
  | notReady (he : s.estate = .emitHdr ∨ s.estate = .emitPix) (hr : s.outReady = false) : EncoderCase s .held
  | header (he : s.estate = .emitHdr) (hr : s.outReady = true) :
      EncoderCase s (.stepped { s with
        outq := s.outq ++ [emitHeader s.run], opos := s.opos + 1, ebi := 0, estate := .emitPix })
  | pixMore (he : s.estate = .emitPix) (hr : s.outReady = true) (h : s.ebi.toNat + 1 ≠ s.bpp) :
      EncoderCase s (.stepped { s with
        outq := s.outq ++ [pixelByte s.cur s.ebi], opos := s.opos + 1, ebi := s.ebi + 1 })
  | pixLast (he : s.estate = .emitPix) (hr : s.outReady = true) (h : s.ebi.toNat + 1 = s.bpp)
      (hn : (s.pidx + s.run.zeroExtend 32).toNat ≠ s.npix) :
      EncoderCase s (.stepped { s with
        outq := s.outq ++ [pixelByte s.cur s.ebi], opos := s.opos + 1, ebi := 0, pidx := s.pidx + s.run.zeroExtend 32
        estate := .load })
  | pixDone (he : s.estate = .emitPix) (hr : s.outReady = true) (h : s.ebi.toNat + 1 = s.bpp)
      (hn : (s.pidx + s.run.zeroExtend 32).toNat = s.npix) :
      EncoderCase s (.stepped { s with
        outq := s.outq ++ [pixelByte s.cur s.ebi], opos := s.opos + 1, ebi := 0, pidx := s.pidx + s.run.zeroExtend 32
        mode := .idle, done := true })

theorem encoderStep_cases (s : State) : EncoderCase s (encoderStep s) := by
  cases he : s.estate with
  | load =>
    have e : encoderStep s = encLoadStep s := by simp [encoderStep, he]
    rw [e, encLoadStep]
    rcases blockRead_cases s (pixelAddr s.bpp s.pidx.toNat s.ebi.toNat) _ with ⟨ha, b, hb, e⟩ | ⟨ha, hb, e⟩ | ⟨ha, e⟩
    · rw [e]
      by_cases h : s.ebi.toNat + 1 = s.bpp
      · simp only [h, if_true]; exact .loadLast he ha hb h
      · simp only [h, if_false]; exact .loadMore he ha hb h
    · rw [e]; exact .loadUnwritten he ha hb
    · rw [e]; exact .loadOutside he ha
  | scan =>
    have e : encoderStep s = encScanStep s := by simp [encoderStep, he]
    rw [e, encScanStep]
    rcases blockRead_cases s (pixelAddr s.bpp (s.pidx.toNat + s.run.toNat) s.ebi.toNat) _ with
      ⟨ha, b, hb, e⟩ | ⟨ha, hb, e⟩ | ⟨ha, e⟩
    · rw [e]
      by_cases hne : b = pixelByte s.cur s.ebi
      · subst hne
        rw [if_neg (by simp)]
        by_cases h : s.ebi.toNat + 1 = s.bpp
        · rw [if_pos h]; exact .scanLast he ha hb h
        · rw [if_neg h]; exact .scanMore he ha hb h
      · rw [if_pos hne]; exact .scanDiffers he ha hb hne
    · rw [e]; exact .scanUnwritten he ha hb
    · rw [e]; exact .scanOutside he ha
  | emitHdr =>
    have e : encoderStep s = encEmitHdrStep s := by simp [encoderStep, he]
    rw [e, encEmitHdrStep]
    cases hr : s.outReady with
    | false => rw [outPush_hold hr]; exact .notReady (.inl he) hr
    | true => rw [outPush_ready hr]; exact .header he hr
  | emitPix =>
    have e : encoderStep s = encEmitPixStep s := by simp [encoderStep, he]
    rw [e, encEmitPixStep]
    cases hr : s.outReady with
    | false => rw [outPush_hold hr]; exact .notReady (.inr he) hr
    | true =>
      rw [outPush_ready hr]
      by_cases h : s.ebi.toNat + 1 = s.bpp
      · rw [if_pos h]
        by_cases hn : (s.pidx + s.run.zeroExtend 32).toNat = s.npix
        · exact (if_pos hn : (if _ then _ else _) = _) ▸ .pixDone he hr h hn
        · exact (if_neg hn : (if _ then _ else _) = _) ▸ .pixLast he hr h hn
      · rw [if_neg h]; exact .pixMore he hr h

/-- A packet is in progress while its pixel is pushed. -/
theorem emitGoing_pix {s : State} (hm : s.mode = .enc) (he : s.estate = .emitPix) : emitGoing s = true := by simp [emitGoing, hm, he]

/-- A step in E_EMIT_PIX with OUT ready (42 R127). -/
theorem encoderStep_pix {s : State} (he : s.estate = .emitPix) (hr : s.outReady = true) : encoderStep s =
   if s.ebi.toNat + 1 = s.bpp then
      let s2 := { s with outq := s.outq ++ [pixelByte s.cur s.ebi], opos := s.opos + 1, ebi := 0, pidx := s.pidx + s.run.zeroExtend 32 }
      if s2.pidx.toNat = s.npix then .stepped (finish s2) else .stepped { s2 with estate := .load }
    else .stepped { s with outq := s.outq ++ [pixelByte s.cur s.ebi], opos := s.opos + 1, ebi := s.ebi + 1 } := by
  have e : encoderStep s = encEmitPixStep s := by simp [encoderStep, he]
  rw [e, encEmitPixStep, outPush_ready hr]

/-- The first bytes of the pixel, pushed one after the other (42 R127). -/
theorem emit_bytes (n : Nat) (s : State) (hm : s.mode = .enc) (he : s.estate = .emitPix) (hr : s.outReady = true)
    (hb : s.bpp = 3 ∨ s.bpp = 4) (hi : s.ebi = 0) (hn : n < s.bpp) :
  ∀ k, runUnit encoderStep emitGoing (k + n) s = runUnit encoderStep emitGoing k { s with
     outq := s.outq ++ s.cur.toList.take n, opos := s.opos + BitVec.ofNat 35 n, ebi := s.ebi + BitVec.ofNat 2 n } := by
  induction n with
  | zero => intro k; simp only [Nat.add_zero, List.take_zero, List.append_nil, BitVec.add_zero]
  | succ n ih =>
    intro k
    have ed : (s.ebi + BitVec.ofNat 2 n).toNat = n := by
      rw [toNat_add_ofNat _ _ (by simp [hi]; omega)]; simp [hi]
    rw [show k + (n + 1) = (k + 1) + n by omega, ih (by omega) (k + 1)]
    have et : s.cur.toList.take (n + 1) = s.cur.toList.take n ++ [pixelByte s.cur (s.ebi + BitVec.ofNat 2 n)] := by
      have : s.cur.toList[n]? = some (pixelByte s.cur (s.ebi + BitVec.ofNat 2 n)) := by
        simp only [pixelByte, ed]; simp
      rw [List.take_add_one, this]; rfl
    refine (runUnit_stepped (by exact emitGoing_pix hm he) ((encoderStep_pix (by exact he) (by exact hr)).trans (if_neg ?_)) k).trans ?_
    · show ¬ (s.ebi + BitVec.ofNat 2 n).toNat + 1 = s.bpp
      rw [ed]; omega
    · have e35 : s.opos + BitVec.ofNat 35 n + 1 = s.opos + BitVec.ofNat 35 (n + 1) := bv_add_ofNat _ _ _
      have e2 : s.ebi + BitVec.ofNat 2 n + 1 = s.ebi + BitVec.ofNat 2 (n + 1) := bv_add_ofNat _ _ _
      simp only [et, e35, e2, List.append_assoc]

end Sys2Proof.Machine
end

