-- ==== Sys2Proof/Laws/Header.lean ====
section
/-! SUPPORT. What the header unit does: everything one step of the parser and of the serializer can do (40_header_codec R81, R84), and runs of
bytes, from which the meanings of HDR.PARSE and HDR.SERIALIZE (R80, R83) follow. -/

namespace Sys2Proof.Machine

variable {s : State}

/-- Everything one step of the parser can do (40 R81). -/
inductive ParseCase (s : State) : Attempt → Prop where
  | empty (hq : s.inq = []) : ParseCase s .held
  | ended {q : List InItem} (hq : s.inq = .eos :: q) :
      ParseCase s (.faulted (raise .formatError (s.hcnt.zeroExtend 64) s))
  | more {b : Byte} {q : List InItem} (hq : s.inq = .byte b :: q) (h : s.hcnt.toNat < 17) :
      ParseCase s (.stepped { s with
        inq := q, ipos := s.ipos + 1, hb := s.hb.setIfInBounds s.hcnt.toNat b, hcnt := s.hcnt + 1 })
  | last {b : Byte} {q : List InItem} (hq : s.inq = .byte b :: q) (h : s.hcnt = 17) :
      ParseCase s (.stepped { s with
        inq := q, ipos := s.ipos + 1, hb := s.hb.setIfInBounds 17 b, hcnt := 18
        hdr := unpack (s.hb.setIfInBounds 17 b), mode := .idle, done := true })
  | outside {b : Byte} {q : List InItem} (hq : s.inq = .byte b :: q) (h : 18 ≤ s.hcnt.toNat) :
      ParseCase s (.stop (.hbOutside s.hcnt.toNat))

theorem parseStep_cases (s : State) : ParseCase s (parseStep s) := by
  match hq : s.inq with
  | [] => rw [parseStep, inPop_empty hq]; exact .empty hq
  | .eos :: q => rw [parseStep, inPop_eos hq]; exact .ended hq
  | .byte b :: q =>
    rw [parseStep, inPop_byte hq]
    by_cases h : s.hcnt.toNat < 18
    · have e : ∀ (k : Nat) (hk : k < 18), s.hb.set k b hk = s.hb.setIfInBounds k b := by
        intro k hk; apply Vector.ext; intro i hi
        rw [Vector.getElem_set, Vector.getElem_setIfInBounds]
      rw [dif_pos h]
      by_cases h17 : s.hcnt = 17
      · have h17' : s.hcnt.toNat = 17 := by rw [h17]; rfl
        have e18 : s.hcnt + 1 = 18 := by rw [h17]; rfl
        simp only [h17, e, if_true]
        exact .last hq h17
      · have hlt : s.hcnt.toNat < 17 := by
          have : s.hcnt.toNat ≠ 17 := fun c => h17 (BitVec.eq_of_toNat_eq c)
          omega
        simp only [h17, e, if_false]
        exact .more hq hlt
    · rw [dif_neg h]; exact .outside hq (by omega)

/-- Everything one step of the serializer can do (40 R84). -/
inductive SerializeCase (s : State) : Attempt → Prop where
  | notReady (h : s.hcnt.toNat < 18) (hr : s.outReady = false) : SerializeCase s .held
  | more (h : s.hcnt.toNat < 17) (hr : s.outReady = true) :
      SerializeCase s (.stepped { s with
        outq := s.outq ++ [(s.hb[s.hcnt.toNat]?).getD 0], opos := s.opos + 1, hcnt := s.hcnt + 1 })
  | last (h : s.hcnt = 17) (hr : s.outReady = true) :
      SerializeCase s (.stepped { s with
        outq := s.outq ++ [s.hb[17]], opos := s.opos + 1, hcnt := 18, mode := .idle, done := true })
  | outside (h : 18 ≤ s.hcnt.toNat) : SerializeCase s (.stop (.hbOutside s.hcnt.toNat))

theorem serializeStep_cases (s : State) : SerializeCase s (serializeStep s) := by
  unfold serializeStep
  by_cases h : s.hcnt.toNat < 18
  · rw [dif_pos h]
    cases hr : s.outReady with
    | false => rw [outPush_hold hr]; exact .notReady h hr
    | true =>
      rw [outPush_ready hr]
      by_cases h17 : s.hcnt = 17
      · simp only [h17, if_true]
        exact .last h17 hr
      · have hlt : s.hcnt.toNat < 17 := by
          have : s.hcnt.toNat ≠ 17 := fun c => h17 (BitVec.eq_of_toNat_eq c)
          omega
        have e : s.hb[s.hcnt.toNat]'h = (s.hb[s.hcnt.toNat]?).getD 0 := by simp [h]
        simp only [h17, if_false, e]
        exact .more hlt hr
  · rw [dif_neg h]; exact .outside (by omega)

/-- Fewer bytes than the record has, parsed one after the other (40 R81): they fill HB from HCNT on, and the rest of HB stays. -/
theorem parse_bytes (ys : List Byte) (rest : List InItem) : ∀ (k : Nat) (s : State), s.mode =
    .hparse → s.hcnt.toNat + ys.length < 18 → s.inq = onIn ys rest →
   ∃ hb, (∀ i, i < s.hcnt.toNat → hb[i]? = s.hb[i]?) ∧ (∀ i, i < ys.length → hb[s.hcnt.toNat + i]? = ys[i]?) ∧
   (∀ i, s.hcnt.toNat + ys.length ≤ i → hb[i]? = s.hb[i]?) ∧
   runUnit parseStep (fun t => t.mode == .hparse) (k + ys.length) s = runUnit parseStep (fun t => t.mode == .hparse) k { s with
     hb := hb, hcnt := s.hcnt + BitVec.ofNat 5 ys.length, ipos := s.ipos + BitVec.ofNat 35 ys.length, inq := rest } := by
  induction ys with
  | nil =>
    intro k s _ _ hq
    refine ⟨s.hb, fun _ _ => rfl, by simp, fun _ _ => rfl, ?_⟩
    simp only [onIn, List.map_nil, List.nil_append] at hq
    simp only [List.length_nil, Nat.add_zero, BitVec.add_zero, ← hq]
  | cons b ys ih =>
    intro k s hm hl hq
    simp only [List.length_cons] at hl
    have hs : parseStep s = .stepped { s with
        inq := onIn ys rest, ipos := s.ipos + 1, hb := s.hb.setIfInBounds s.hcnt.toNat b, hcnt := s.hcnt + 1 } := by
      have hc := parseStep_cases s
      generalize parseStep s = a at hc
      have hq' : s.inq = .byte b :: onIn ys rest := by simpa [onIn] using hq
      cases hc
      case empty h => rw [h] at hq'; cases hq'
      case ended h => rw [h] at hq'; cases hq'
      case more h _ => rw [h] at hq'; cases hq'; rfl
      case last h h17 => rw [h17] at hl; simp at hl; omega
      case outside => omega
    have e1 : (s.hcnt + 1).toNat = s.hcnt.toNat + 1 := by rw [BitVec.toNat_add]; simp; omega
    obtain ⟨hb, h1, h2, h3, e⟩ := ih k { s with
        inq := onIn ys rest, ipos := s.ipos + 1, hb := s.hb.setIfInBounds s.hcnt.toNat b, hcnt := s.hcnt + 1 } hm
      (by show (s.hcnt + 1).toNat + _ < 18; omega) rfl
    refine ⟨hb, ?_, ?_, ?_, ?_⟩
    · intro i hi
      rw [h1 i (by show i < (s.hcnt + 1).toNat; omega)]
      show (s.hb.setIfInBounds s.hcnt.toNat b)[i]? = _
      rw [Vector.getElem?_setIfInBounds]; simp; omega
    · intro i hi
      cases i with
      | zero =>
        rw [Nat.add_zero, h1 _ (by show _ < (s.hcnt + 1).toNat; omega)]
        show (s.hb.setIfInBounds s.hcnt.toNat b)[s.hcnt.toNat]? = _
        rw [Vector.getElem?_setIfInBounds]; simp; omega
      | succ i =>
        have := h2 i (by simp at hi; omega)
        simp only [e1] at this
        rw [show s.hcnt.toNat + (i + 1) = s.hcnt.toNat + 1 + i by omega, this]; simp
    · intro i hi
      rw [List.length_cons] at hi
      rw [h3 i (by show (s.hcnt + 1).toNat + ys.length ≤ i; omega)]
      show (s.hb.setIfInBounds s.hcnt.toNat b)[i]? = _
      rw [Vector.getElem?_setIfInBounds]; simp; omega
    · rw [List.length_cons, ← Nat.add_assoc, runUnit_stepped (by simp [hm]) hs, e]
      simp only [bv_add_succ]

/-- Fewer bytes than the record has, pushed one after the other (40 R84). -/
theorem serialize_bytes : ∀ (n k : Nat) (s : State), s.mode = .hser → s.outReady = true → s.hcnt.toNat + n < 18 →
   runUnit serializeStep (fun t => t.mode == .hser) (k + n) s = runUnit serializeStep (fun t => t.mode == .hser) k { s with
     outq := s.outq ++ (s.hb.toList.drop s.hcnt.toNat).take n, hcnt := s.hcnt + BitVec.ofNat 5 n, opos := s.opos + BitVec.ofNat 35 n } := by
  intro n
  induction n with
  | zero => intro k s _ _ _; simp only [Nat.add_zero, List.take_zero, List.append_nil, BitVec.add_zero]
  | succ n ih =>
    intro k s hm hr hn
    have hp : serializeStep s = .stepped { s with
        outq := s.outq ++ [(s.hb[s.hcnt.toNat]?).getD 0], opos := s.opos + 1, hcnt := s.hcnt + 1 } := by
      have hc := serializeStep_cases s
      generalize serializeStep s = a at hc
      cases hc
      case notReady h => rw [hr] at h; cases h
      case more => rfl
      case last h _ => rw [h] at hn; simp at hn; omega
      case outside => omega
    have e1 : (s.hcnt + 1).toNat = s.hcnt.toNat + 1 := by rw [BitVec.toNat_add]; simp; omega
    rw [← Nat.add_assoc, runUnit_stepped (by simp [hm]) hp, ih k { s with
        outq := s.outq ++ [(s.hb[s.hcnt.toNat]?).getD 0], opos := s.opos + 1, hcnt := s.hcnt + 1 } hm hr
      (by show (s.hcnt + 1).toNat + n < 18; omega)]
    have : (s.hb.toList.drop s.hcnt.toNat).take (n+1) = [(s.hb[s.hcnt.toNat]?).getD 0] ++ (s.hb.toList.drop (s.hcnt.toNat + 1)).take n := by
      rw [List.drop_eq_getElem_cons (by simp; omega)]
      simp [show s.hcnt.toNat < 18 by omega]
    simp only [this, bv_add_succ, e1, List.append_assoc]

end Sys2Proof.Machine
end

