-- ==== Sys2Proof/Laws/Invariant.lean ====
section
/-! SUPPORT. The invariant `MachineInv`: how it carries over to a state with parts replaced. One lemma for a unit that goes on, one for a unit
that finishes, one for a fault taken, one for a command accepted, and one for each thing the host alone moves. -/

namespace Sys2Proof.Machine

/-- Any 16-bit dimensions make at most 32 bits of pixels (00 R5). -/
theorem npix_lt (s : State) : s.npix < 2 ^ 32 := by
    unfold State.npix
    have h1 := s.geomW.isLt; have h2 := s.geomH.isLt
    have h3 : s.geomW.toNat * s.geomH.toNat ≤ 65535 * 65535 := Nat.mul_le_mul (by omega) (by omega)
    omega

/-- EOS stays last when a byte is popped. -/
theorem eosLast_tail {b q} (h : eosLast (InItem.byte b :: q) = true) : eosLast q = true := h

/-- EOS stays last when a channel that has not ended is appended to (20 R45). -/
theorem eosLast_append {q : List InItem} (h : eosLast q = true) (hn : q.contains .eos = false) (i : InItem) : eosLast
    (q ++ [i]) = true := by
  induction q with
  | nil => cases i <;> rfl
  | cons a q ih =>
    cases a with
    | byte b => simp at hn; exact ih h (by simpa using hn)
    | eos => simp at hn

/-- A unit that goes on keeps the invariant if its own part is kept. -/
theorem MachineInv.mk_busy {s t : State} (h : MachineInv s) (hb : s.busy = true) (ht : t.mode = s.mode)
   (e1 : t.errCode = s.errCode) (e2 : t.errFmode = s.errFmode) (e3 : t.errarg = s.errarg) (e4 : t.done = s.done)
       (e5 : t.lastCmd = s.lastCmd)
   (m1 : Memory.wf t.pb = true) (m2 : ∀ c ∈ t.pb, c.1 < 2 ^ 34) (m3 : eosLast t.inq = true)
   (p : s.mode = .hparse → t.hcnt.toNat < 18 ∧ t.ipos.toNat = t.hcnt.toNat)
   (q : s.mode = .hser → t.hcnt.toNat < 18 ∧ t.opos.toNat = t.hcnt.toNat ∧ t.hb = pack t.hdr)
   (d : s.mode = .dec → DecInv t) (e : s.mode = .enc → EncInv t) : MachineInv t := by
  have hd : t.done = false := by rw [e4]; exact h.busyDone hb
  exact {
    memory := m1, pbAddr := m2, inEnd := m3
    fault := by rw [ht, e1]; exact h.fault
    noFault := by rw [ht, e2, e3]; exact h.noFault
    busyDone := fun _ => hd
    lastCmd := by simp only [State.busy, ht, e5]; exact h.lastCmd
    lastCmdRange := by rw [e5, e4]; exact h.lastCmdRange
    parse := by rw [ht]; exact p
    serialize := by rw [ht]; exact q
    doneParse := by rw [hd]; simp
    doneSerialize := by rw [hd]; simp
    dec := by rw [ht]; exact d
    enc := by rw [ht]; exact e }

/-- A unit that finishes keeps the invariant (43 R149). -/
theorem MachineInv.mk_done {s t : State} (h : MachineInv s) (hb : s.busy = true) (ht : t.mode = .idle)
   (e1 : t.errCode = s.errCode) (e2 : t.errFmode = s.errFmode) (e3 : t.errarg = s.errarg) (e5 : t.lastCmd = s.lastCmd)
   (m1 : Memory.wf t.pb = true) (m2 : ∀ c ∈ t.pb, c.1 < 2 ^ 34) (m3 : eosLast t.inq = true)
   (p : s.mode = .hparse → t.ipos = 18)
   (q : s.mode = .hser → t.opos = 18) : MachineInv t := by
  have hl := h.lastCmd hb
  have hnf : s.mode ≠ .fault := by intro c; simp [State.busy, c, Mode.busy] at hb
  have hni : s.mode ≠ .idle := by intro c; simp [State.busy, c, Mode.busy] at hb
  exact {
    memory := m1, pbAddr := m2, inEnd := m3
    fault := by rw [ht, e1]; have := h.fault; simp [hnf] at this; simp [this]
    noFault := by rw [e2, e3]; exact fun _ => h.noFault hnf
    busyDone := by simp [State.busy, ht, Mode.busy]
    lastCmd := by simp [State.busy, ht, Mode.busy]
    lastCmdRange := by
      rw [e5]; refine ⟨h.lastCmdRange.1, fun _ => ?_⟩
      rw [hl]; cases hm : s.mode <;> simp_all [Mode.code]
    parse := by rw [ht]; simp
    serialize := by rw [ht]; simp
    doneParse := by
      intro _ h1; apply p; rw [e5, hl] at h1; cases hm : s.mode <;> simp_all [Mode.code]
    doneSerialize := by
      intro _ h1; apply q; rw [e5, hl] at h1; cases hm : s.mode <;> simp_all [Mode.code]
    dec := by rw [ht]; simp
    enc := by rw [ht]; simp }

/-- Taking a fault keeps the invariant (60 R173). -/
theorem MachineInv.raise_keeps {s : State} (f : BlockFault) (arg : Word) (h : MachineInv s) : MachineInv (raise f arg s) := by
  exact {
    memory := h.memory, pbAddr := h.pbAddr, inEnd := h.inEnd
    fault := by cases f <;> simp [BlockFault.code, raise]
    noFault := by simp
    busyDone := by simp
    lastCmd := by simp
    lastCmdRange := h.lastCmdRange
    parse := by simp
    serialize := by simp
    doneParse := h.doneParse
    doneSerialize := h.doneSerialize
    dec := by simp
    enc := by simp }

/-- What the host moves outside IN and PB has no part in the invariant. -/
theorem MachineInv.env {s : State} (h : MachineInv s) (tu : List Turn) (hd : Word) (oq : List Byte) (orr : Bool) (rs : Bool) :
   MachineInv { s with turns := tu, hostData := hd, outq := oq, outReady := orr, rst := rs } := by
  exact { h with
    dec := fun hm => { h.dec hm with }
    enc := fun hm => { h.enc hm with } }

/-- IN replaced by another that ends at most once. -/
theorem MachineInv.inq {s : State} (h : MachineInv s) (q : List InItem) (hq : eosLast q = true)
    (hd : Word) : MachineInv { s with inq := q, hostData := hd } := by
  exact { h with
    inEnd := hq
    dec := fun hm => { h.dec hm with }
    enc := fun hm => { h.enc hm with } }

/-- Accepting a command keeps the invariant (43 R150). -/
theorem MachineInv.accept {s : State} (h : MachineInv s) (hm : s.mode = .idle) (c : BitVec 3) (hc : 1 ≤ c.toNat ∧ c.toNat ≤ 4) (t : State)
   (hpb : t.pb = s.pb) (hinq : t.inq = s.inq) (e1 : t.errCode = s.errCode) (e2 : t.errFmode = s.errFmode) (e3 : t.errarg = s.errarg)
   (hl : t.lastCmd = c)
   (hmd : (t.mode = .idle ∧ t.done = true ∧ c ≠ 1 ∧ c ≠ 2) ∨ (t.mode.code = c ∧ t.done = false ∧ t.mode ≠ .fault))
   (p : t.mode = .hparse → t.hcnt.toNat < 18 ∧ t.ipos.toNat = t.hcnt.toNat)
   (q : t.mode = .hser → t.hcnt.toNat < 18 ∧ t.opos.toNat = t.hcnt.toNat ∧ t.hb = pack t.hdr)
   (d : t.mode = .dec → DecInv t) (e : t.mode = .enc → EncInv t) : MachineInv t := by
  have hnf : t.mode ≠ .fault := by rcases hmd with ⟨h, _⟩ | ⟨_, _, h⟩; simp [h]; exact h
  have hsf : s.mode ≠ .fault := by simp [hm]
  have hz : s.errCode = 0 := by by_contra hc; exact hsf (h.fault.2 hc)
  exact {
    memory := by rw [hpb]; exact h.memory
    pbAddr := by rw [hpb]; exact h.pbAddr
    inEnd := by rw [hinq]; exact h.inEnd
    fault := by rw [e1, hz]; simp [hnf]
    noFault := by rw [e2, e3]; exact fun _ => h.noFault hsf
    busyDone := by rcases hmd with ⟨hi, _⟩ | ⟨_, hd, _⟩; simp [State.busy, hi, Mode.busy]; exact fun _ => hd
    lastCmd := by rw [hl]; rcases hmd with ⟨hi, _⟩ | ⟨hd, _⟩; simp [State.busy, hi, Mode.busy]; exact fun _ => hd.symm
    lastCmdRange := by rw [hl]; exact ⟨hc.2, fun _ => by rintro rfl; simp at hc⟩
    parse := p, serialize := q
    doneParse := by
      rw [hl]; rcases hmd with ⟨_, _, h1, _⟩ | ⟨_, hd, _⟩
      · exact fun _ c => absurd c h1
      · rw [hd]; simp
    doneSerialize := by
      rw [hl]; rcases hmd with ⟨_, _, _, h1⟩ | ⟨_, hd, _⟩
      · exact fun _ c => absurd c h1
      · rw [hd]; simp
    dec := d, enc := e }

/-- A geometry or header write of an idle block keeps the invariant (43 R142). -/
theorem MachineInv.idle_write {s t : State} (h : MachineInv s) (hm : s.mode = .idle)
    (ht : t = { s with geomW := t.geomW, geomH := t.geomH, geomBpp := t.geomBpp, hdr := t.hdr }) : MachineInv t := by
  rw [ht]
  exact { h with
    parse := by simp [hm]
    serialize := by simp [hm]
    dec := by simp [hm]
    enc := by simp [hm] }

/-! ## The counts of a completed command (10 R29) -/

/-- While the block is busy or faulted, or DONE is 0, nothing is said of the counts. -/
theorem CompletionCounts.of_not_done {s : State} (h : s.mode = .idle → s.done = false) : CompletionCounts s :=
  ⟨fun hm hd => by simp [h hm] at hd, fun hm hd => by simp [h hm] at hd⟩

/-- What the counts are about: MODE, DONE, LASTCMD, PROD, PIDX and the geometry. A move that leaves those keeps them. -/
theorem CompletionCounts.congr {s t : State} (h : CompletionCounts s) (e1 : t.mode = s.mode) (e2 : t.done = s.done)
    (e3 : t.lastCmd = s.lastCmd) (e4 : t.prod = s.prod) (e5 : t.pidx = s.pidx) (e6 : t.geomW = s.geomW) (e7 : t.geomH = s.geomH)
    (e8 : t.geomBpp = s.geomBpp) : CompletionCounts t := by
  have hn : t.npix = s.npix := by simp only [State.npix, e6, e7]
  have hc : t.cap = s.cap := by rw [cap_eq, cap_eq, hn]; simp only [State.bpp, e8]
  constructor
  · rw [e1, e2, e3, e4, hc]; exact h.decode
  · rw [e1, e2, e3, e5, hn]; exact h.encode

/-- Reset keeps the invariant (70 R186). -/
theorem MachineInv.reset_keeps {s : State} (h : MachineInv s) : MachineInv (resetBlock s) := by
  exact {
    memory := h.memory, pbAddr := h.pbAddr, inEnd := h.inEnd
    fault := by simp
    noFault := by simp
    busyDone := by simp
    lastCmd := by simp [State.busy, Mode.busy]
    lastCmdRange := by simp
    parse := by simp, serialize := by simp, doneParse := by simp, doneSerialize := by simp, dec := by simp, enc := by simp }

end Sys2Proof.Machine
end

