-- ==== Sys2Proof/Laws/PerInstr.lean ====
section
/-! SUPPORT. The per-instruction family `Unique`: a word that decodes to an instruction is that instruction's encoding, so each
instruction has exactly one word in its space (30_encoding R65, R71, R72). One lemma per constructor of `Instr`. -/

namespace Sys2Proof.Laws.Unique

/-- Only the instruction's own encoding decodes to it. -/
def Statement (i : Instr) : Prop := ∀ e : Encoded, decode e = .ok i → e = encode i

/-- The packet-header bytes are all decoded by their two fields. -/
theorem packetByte_of_fields (p : BitVec 8) : p = packetByte (packetIsRun p) (packetCountField p) := by
  revert p; decide

/-- What a decoded word can be, said once. -/
theorem decode_ok (e : Encoded) (i : Instr) (h : decode e = .ok i) : e = encode i := by
  cases e with
  | packetIn p =>
    simp only [decode, decodePacketIn] at h
    have hp := packetByte_of_fields p
    split at h
    next hr => cases h; rw [hr] at hp; simp only [encode]; rw [← hp]
    next hr =>
      cases h
      rw [Bool.eq_false_iff.mpr hr] at hp
      simp only [encode]; rw [← hp]
  | packetOut p =>
    simp only [decode, decodePacketOut] at h
    have hp := packetByte_of_fields p
    split at h
    next hr =>
      cases h
      simp only [Bool.and_eq_true] at hr
      rw [hr.1] at hp; simp only [encode]; rw [← hp]
    next =>
      split at h
      next h0 => cases h; simpa [encode] using h0
      next => cases h
  | command v =>
    simp only [decode, decodeCommand] at h
    repeat' split at h
    all_goals first | cases h; done | (cases h; simp_all [encode])
  | recordIn => cases h; rfl
  | recordOut => cases h; rfl

theorem decRun (n : BitVec 7) : Statement (.decRun n) := fun e h => decode_ok e _ h
theorem decRaw (n : BitVec 7) : Statement (.decRaw n) := fun e h => decode_ok e _ h
theorem encEmitRun (n : BitVec 7) : Statement (.encEmitRun n) := fun e h => decode_ok e _ h
theorem encEmitRaw1 : Statement .encEmitRaw1 := fun e h => decode_ok e _ h
theorem hdrParse : Statement .hdrParse := fun e h => decode_ok e _ h
theorem hdrSerialize : Statement .hdrSerialize := fun e h => decode_ok e _ h
theorem cmdNop : Statement .cmdNop := fun e h => decode_ok e _ h
theorem cmdHdrParse : Statement .cmdHdrParse := fun e h => decode_ok e _ h
theorem cmdHdrSerialize : Statement .cmdHdrSerialize := fun e h => decode_ok e _ h
theorem cmdDecode : Statement .cmdDecode := fun e h => decode_ok e _ h
theorem cmdEncode : Statement .cmdEncode := fun e h => decode_ok e _ h

end Sys2Proof.Laws.Unique
end

