-- ==== Sys2Proof/Laws/Reference.lean ====
section
/-! SUPPORT. The spec's functions `decode`, `runlen` and `encode` (41 R109, 42 R128, R129): one lemma for each loop. -/

namespace Sys2Proof.Machine

/-- Everything the counting of a run can do. -/
theorem countRun_spec (bpp npix : Nat) (P : List Byte) (i : Nat) : ∀ fuel r, i + r ≤ npix →
   let R := countRun bpp npix P i fuel r
   r ≤ R ∧ R ≤ r + fuel ∧ i + R ≤ npix ∧ (∀ k, i + r ≤ k → k < i + R → pixelOf bpp P k = pixelOf bpp P i) ∧
   (R = r + fuel ∨ i + R = npix ∨ pixelOf bpp P (i + R) ≠ pixelOf bpp P i) := by
  intro fuel
  induction fuel with
  | zero => intro r h; simp only [countRun]; exact ⟨le_refl _, le_refl _, h, fun k _ _ => by omega, .inl rfl⟩
  | succ f ih =>
    intro r h
    simp only [countRun]
    split
    next hc =>
      obtain ⟨a, b, c, d, e⟩ := ih (r+1) (by omega)
      refine ⟨by omega, by omega, c, ?_, ?_⟩
      · intro k h1 h2
        by_cases hk : k = i + r
        · rw [hk]; exact hc.2
        · exact d k (by omega) h2
      · rcases e with e | e | e
        · left; omega
        · right; left; exact e
        · right; right; exact e
    next hc =>
      refine ⟨le_refl _, by omega, h, fun k _ _ => by omega, ?_⟩
      right
      by_cases hn : i + r < npix
      · right; exact fun c => hc ⟨hn, c⟩
      · left; omega

/-- `runlen(i)` is a run, and it cannot go on (42 R128). -/
theorem runLen_spec (bpp npix : Nat) (P : List Byte) (i : Nat) (h : i < npix) :
   let R := runLen bpp npix P i
   1 ≤ R ∧ R ≤ 128 ∧ i + R ≤ npix ∧ (∀ k, i < k → k < i + R → pixelOf bpp P k = pixelOf bpp P i) ∧
   (R = 128 ∨ i + R = npix ∨ pixelOf bpp P (i + R) ≠ pixelOf bpp P i) := by
  have := countRun_spec bpp npix P i 127 1 (by omega)
  simp only [runLen, Config.maxRun]
  obtain ⟨a, b, c, d, e⟩ := this
  refine ⟨a, by simpa using b, c, fun k h1 h2 => d k (by omega) h2, ?_⟩
  simpa using e

/-- What follows a prefix. -/
theorem drop_prefix (pre : List Byte) (x : List Byte) : (pre ++ x).drop pre.length = x := by simp

/-- One pass of `decode` over a whole packet that finds room (41 R109). -/
theorem decodeLoop_packet (bpp cap : Nat) (hb : bpp = 3 ∨ bpp = 4) (k : Packet) (hk : k.wf bpp = true)
    (pre tail out : List Byte) (fuel : Nat)
   (hroom : out.length + k.pixels.length * bpp ≤ cap) :
   decodeLoop bpp cap (pre ++ (k.bytes ++ tail)) (fuel + 1) out pre.length =
   decodeLoop bpp cap (pre ++ (k.bytes ++ tail)) fuel (out ++ k.pixels.flatten) (pre.length + k.bytes.length) := by
  have h1 : 1 ≤ k.pixels.length ∧ k.pixels.length ≤ 128 := by
    cases k with
    | run n x => simp [Packet.pixels]; exact ⟨packetCount_pos n, packetCount_le n⟩
    | raw xs => simp [Packet.wf, Config.maxRun] at hk; simp [Packet.pixels]; have := of_decide_eq_true hk.1.2; omega
  have hne : out.length ≠ cap := by
    have : 1 * bpp ≤ k.pixels.length * bpp := Nat.mul_le_mul_right _ h1.1
    omega
  have hroom2 : k.pixels.length ≤ (cap - out.length) / bpp := by
    rw [Nat.le_div_iff_mul_le (by omega)]; omega
  cases k with
  | run n x =>
    have hx : x.length = bpp := by simpa [Packet.wf] using hk
    simp only [Packet.pixels, List.length_replicate] at hroom2
    simp only [decodeLoop, if_neg hne, drop_prefix, Packet.bytes, List.cons_append, packetIsRun_packetByte, packetCountField_packetByte, if_true]
    rw [if_neg (by simp [hx]), if_neg (by omega), Nat.min_eq_left hroom2]
    congr 1
    · rw [List.take_append_of_le_length (by omega), List.take_of_length_le (by omega)]; rfl
    · simp [hx]; omega
  | raw xs =>
    simp [Packet.wf, Config.maxRun] at hk
    obtain ⟨⟨k1, k2⟩, k3⟩ := hk
    have k2 : xs.length ≤ 128 := of_decide_eq_true k2
    simp only [Packet.pixels] at hroom2 h1
    have hl : xs.flatten.length = xs.length * bpp := by
      clear * - k3
      induction xs with
      | nil => simp
      | cons x xs ih => simp at k3 ⊢; simp at ih; rw [ih k3.2, k3.1]; ring
    have hcnt : (packetCount (BitVec.ofNat 7 (xs.length - 1))).toNat = xs.length := by
      rw [packetCount_toNat, BitVec.toNat_ofNat, Nat.mod_eq_of_lt (by omega)]; omega
    simp only [decodeLoop, if_neg hne, drop_prefix, Packet.bytes, List.cons_append, packetIsRun_packetByte, packetCountField_packetByte, hcnt, Nat.min_eq_left hroom2]
    rw [if_neg (by simp), if_neg (by simp [hl]), if_neg (by omega)]
    congr 1
    · rw [← hl, List.take_append_of_le_length (le_refl _), List.take_length]; rfl
    · rw [List.length_cons, hl]; omega

/-- A pixel of the buffer has BPP bytes. -/
theorem pixelOf_length {bpp npix : Nat} {P : List Byte} {k : Nat} (hP : P.length = npix * bpp) (hk : k < npix) :
    (pixelOf bpp P k).length = bpp := by
  simp only [pixelOf, List.length_take, List.length_drop, hP]
  have : (k + 1) * bpp ≤ npix * bpp := Nat.mul_le_mul_right _ hk
  rw [Nat.succ_mul] at this; omega

/-- The first pixel of a piece of the buffer. -/
theorem take_pixel (bpp : Nat) (P : List Byte) (i n : Nat) : (P.drop (i * bpp)).take ((n+1) * bpp) = pixelOf bpp P i ++
    (P.drop ((i+1) * bpp)).take (n * bpp) := by
  rw [show (n+1) * bpp = bpp + n * bpp by rw [Nat.succ_mul]; omega, List.take_add, List.drop_drop, show i * bpp + bpp = (i+1) * bpp by rw [Nat.succ_mul]]
  rfl

/-- A run in the buffer, as copies of its pixel. -/
theorem drop_run (bpp : Nat) (P : List Byte) (i : Nat) (x : List Byte) : ∀ r, (∀ k, i ≤ k → k < i + r → pixelOf bpp P k = x) →
   P.drop (i * bpp) = (List.replicate r x).flatten ++ P.drop ((i + r) * bpp) := by
  intro r
  induction r generalizing i with
  | zero => intro _; simp
  | succ r ih =>
    intro h
    have h1 := ih (i + 1) (fun k a b => h k (by omega) (by omega))
    rw [List.replicate_succ, List.flatten_cons, List.append_assoc]
    have : P.drop (i * bpp) = pixelOf bpp P i ++ P.drop ((i+1) * bpp) := by
      rw [Nat.succ_mul, ← List.drop_drop]; exact (List.take_append_drop _ _).symm
    rw [this, h i (by omega) (by omega), h1, show i + 1 + r = i + (r + 1) by omega]

end Sys2Proof.Machine
end

