-- ==== Sys2Proof/Laws/Registers.lean ====
section
/-! SUPPORT. The register port: which numbers are mapped and writable (10_state R25, 43 R141), and what a write to a number other than CMD's
does (43 R142). -/

namespace Sys2Proof.Machine

/-- Every mapped number is one of 25 (10 R25). -/
theorem regOfNumber_range {n : Nat} {r : Reg} (h : regOfNumber n = some r) : n ≤ 0x0A ∨ (0x10 ≤ n ∧ n ≤ 0x1D) := by
  unfold regOfNumber at h
  split at h <;> first | omega | cases h

theorem regOfNumber_unmapped {n : Nat} (h : (0x0B ≤ n ∧ n ≤ 0x0F) ∨ 0x1E ≤ n) : regOfNumber n = none := by
  cases hr : regOfNumber n with
  | none => rfl
  | some r => have := regOfNumber_range hr; omega

/-- The writable registers are the numbers GEOM_W to GEOM_BPP and HDR_ID_LENGTH to HDR_IMAGE_DESCRIPTOR. -/
theorem regWritable_iff {n : Nat} {r : Reg} (h : regOfNumber n = some r) : regWritable r = true ↔ WritableNumber n := by
  unfold regOfNumber at h
  split at h <;> first | (cases h; done) | (cases h; simp [regWritable, WritableNumber])

theorem regOfNumber_writable {n : Nat} (h : WritableNumber n) : ∃ r, regOfNumber n = some r ∧ regWritable r = true := by
  have hr : ∃ r, regOfNumber n = some r := by
    rcases h with ⟨h1, h2⟩ | ⟨h1, h2⟩ <;> interval_cases n <;> exact ⟨_, rfl⟩
  obtain ⟨r, hr⟩ := hr
  exact ⟨r, hr, (regWritable_iff hr).2 h⟩

variable {s : State} {n : Nat} {v : Word}

/-- Elsewhere a write has no effect. -/
theorem regWriteOther_ignored (h : ¬ WritableNumber n) : regWriteOther n v s = s := by
  unfold regWriteOther
  split
  · rfl
  · split
    · rfl
    next r hr =>
      rw [if_neg]
      exact fun c => h ((regWritable_iff hr).1 c)

/-- In M_FAULT no write has an effect (43 R152). -/
theorem regWriteOther_fault (h : s.mode = .fault) : regWriteOther n v s = s := by simp [regWriteOther, h]

/-- While BUSY a write to a writable register is the fault WriteWhileBusy (60 R166). -/
theorem regWriteOther_busy (hb : s.busy = true) (h : WritableNumber n) :
    regWriteOther n v s = raise .writeWhileBusy (BitVec.ofNat 64 n) s := by
  obtain ⟨r, hr, hw⟩ := regOfNumber_writable h
  have hm : s.mode ≠ .fault := by intro c; simp [State.busy, c, Mode.busy] at hb
  simp [regWriteOther, hm, hr, hw, hb]

/-- An idle block writes it (43 R142). -/
theorem regWriteOther_idle (hm : s.mode = .idle) {r : Reg} (hr : regOfNumber n = some r) (hw : regWritable r = true) :
    regWriteOther n v s = regStore r v s := by
  simp [regWriteOther, hm, hr, hw, State.busy, Mode.busy]

/-- A register write changes geometry and header registers only (43 R142). -/
theorem regStore_frame (r : Reg) (v : Word) (s : State) : regStore r v s =
    { s with geomW := (regStore r v s).geomW, geomH := (regStore r v s).geomH, geomBpp := (regStore r v s).geomBpp, hdr := (regStore r v s).hdr } := by
  cases r <;> rfl

/-- STATUS as a number (10 R18). -/
theorem statusWord_toNat (s : State) : (statusWord s).toNat =
    s.lastCmd.toNat * 16 + s.ovr.toNat * 8 + s.faulted.toNat * 4 + s.done.toNat * 2 + s.busy.toNat := by
  unfold statusWord
  generalize s.lastCmd = l; generalize s.ovr = o; generalize s.done = d; generalize s.faulted = f; generalize s.busy = b
  revert l o d f b; decide

end Sys2Proof.Machine
end

