-- ==== Sys2Proof/Laws/Run.lean ====
section
/-! SUPPORT. Runs of the machine: `steps` is the host's run of `core`, and runs compose. -/

namespace Sys2Proof.Machine

/-- `steps` is `Host.Core.run` of the machine. -/
theorem core_run_eq_steps (k : Nat) (s : State) : Sys2Proof.core.run k s = steps k s := by
  induction k generalizing s with
  | zero => rfl
  | succ k ih =>
    simp only [Host.Core.run, steps]
    show _ = match step s with | .next s' => steps k s' | .fault r => .fault r | .refused r => .refused r
    have e : Sys2Proof.core.step s = step s := rfl
    rw [e]
    cases step s with
    | next t => exact ih t
    | fault r => rfl
    | refused r => rfl

/-- A first step, then the rest. -/
theorem steps_succ {k : Nat} {s t : State} {o : Host.Outcome State Fault Refusal} (h : step s = .next t) (h' : steps k t = o) :
    steps (k + 1) s = o := by simp only [steps, h]; exact h'

/-- One run after the other. -/
theorem steps_add {a b : Nat} {s t : State} {o : Host.Outcome State Fault Refusal} (h : steps a s = .next t) (h' : steps b t = o) :
    steps (a + b) s = o := by
  induction a generalizing s with
  | zero => simp only [steps] at h; cases h; rw [Nat.zero_add]; exact h'
  | succ a ih =>
    rw [show a + 1 + b = (a + b) + 1 by omega]
    simp only [steps] at h ⊢
    generalize step s = q at h ⊢
    cases q with
    | next s' => exact ih h
    | fault r => cases h
    | refused r => cases h

end Sys2Proof.Machine
end

