-- ==== Sys2Proof/Machine/Text.lean ====
section
/-! DEFINITION. The textual notation of 30_encoding R76 to R78, "offered to the model for its printer": packets, pixels, headers and
commands as lists of characters. No rule of the block's behaviour uses it (92 D20). -/

namespace Sys2Proof.Machine

/-- A hexadecimal digit, capital (R76). -/
def hexDigit (n : Nat) : Char := if n < 10 then Char.ofNat (48 + n) else Char.ofNat (55 + n)

/-- A byte as two hexadecimal digits (00 R9). -/
def hexByte (b : Byte) : List Char := [hexDigit (b.toNat / 16), hexDigit (b.toNat % 16)]

/-- The decimal digits of a number; the first argument bounds their count. -/
def decimalDigits : Nat → Nat → List Char
  | 0, _ => []
  | k + 1, n => (if n < 10 then [] else decimalDigits k (n / 10)) ++ [Char.ofNat (48 + n % 10)]

/-- A number in decimal, of at most twenty digits. -/
def decimal (n : Nat) : List Char := decimalDigits 20 n

/-- Bytes separated by spaces, first byte first (00 R9). -/
def hexBytes : List Byte → List Char
  | [] => []
  | [b] => hexByte b
  | b :: c :: bs => hexByte b ++ [' '] ++ hexBytes (c :: bs)

/-- A pixel: its bytes in stream order in parentheses (R76). -/
def pixelText (x : List Byte) : List Char := ['('] ++ hexBytes x ++ [')']

/-- Pixels, each after a space (R76). -/
def pixelsText : List (List Byte) → List Char
  | [] => []
  | x :: xs => [' '] ++ pixelText x ++ pixelsText xs

/-- `RUN <count>, <pixel>` and `RAW <count>, <pixel> <pixel> ...` (R76). -/
def packetText : Packet → List Char
  | .run n x => "RUN ".toList ++ decimal (packetCount n).toNat ++ [','] ++ pixelsText [x]
  | .raw xs => "RAW ".toList ++ decimal xs.length ++ [','] ++ pixelsText xs

/-- The pseudo-instruction `RAW1 <pixel>` for `RAW 1, <pixel>` (R78). -/
def raw1 (x : List Byte) : Packet := .raw [x]

/-- A header field `name=value`, none where the value is 0: "a field not written is 0" (R77). -/
def fieldText (name : String) (v : Nat) : List (List Char) :=
  if v = 0 then [] else [name.toList ++ ['='] ++ decimal v]

/-- Texts separated by a comma and a space (R77). -/
def commaJoin : List (List Char) → List Char
  | [] => []
  | [x] => x
  | x :: y :: xs => x ++ [',', ' '] ++ commaJoin (y :: xs)

/-- A header between the braces of `HDR`, with the source's field names (R77); values are decimal (the braces are characters 123 and
125). -/
def headerText (h : Header) : List Char :=
  "HDR".toList ++ [Char.ofNat 123] ++
    commaJoin
      (fieldText "id_length" h.idLength.toNat ++ fieldText "color_map_type" h.colorMapType.toNat ++
       fieldText "image_type" h.imageType.toNat ++ fieldText "cmap_origin" h.cmapOrigin.toNat ++
       fieldText "cmap_length" h.cmapLength.toNat ++ fieldText "cmap_depth" h.cmapDepth.toNat ++
       fieldText "x_origin" h.xOrigin.toNat ++ fieldText "y_origin" h.yOrigin.toNat ++
       fieldText "width" h.width.toNat ++ fieldText "height" h.height.toNat ++
       fieldText "bits_per_pixel" h.bitsPerPixel.toNat ++ fieldText "image_descriptor" h.imageDescriptor.toNat) ++
    [Char.ofNat 125]

/-- An instruction by its mnemonic, as opcode_table.json spells it (R77). -/
def mnemonic : Instr → String
  | .decRun _ => "DEC.RUN"
  | .decRaw _ => "DEC.RAW"
  | .encEmitRun _ => "ENC.EMIT_RUN"
  | .encEmitRaw1 => "ENC.EMIT_RAW1"
  | .hdrParse => "HDR.PARSE"
  | .hdrSerialize => "HDR.SERIALIZE"
  | .cmdNop => "CMD.NOP"
  | .cmdHdrParse => "CMD.HDR_PARSE"
  | .cmdHdrSerialize => "CMD.HDR_SERIALIZE"
  | .cmdDecode => "CMD.DECODE"
  | .cmdEncode => "CMD.ENCODE"

end Sys2Proof.Machine
end

