-- ==== Sys2Proof/Tests/Slice0.lean ====
section
/-! SUPPORT. The model's own tests. First the smoke test of WellFormed; then words written out bit by bit from 30_encoding and
opcode_table.json; then at most two single steps for each instruction, each a vector of 95_test_vectors or an example of a rule (named
in its comment, the expected values taken from there); then, for every obligation that has hypotheses, a theorem that a concrete state
and operands meet them, clause by clause. -/

namespace Sys2Proof.Tests

open Sys2Proof.Machine

/-! ## Small states -/

/-- What `f` sees in the next state, if there is one. -/
def after {α : Type} (o : Host.Outcome State Fault Refusal) (f : State → α) : Option α :=
  match o with
  | .next t => some (f t)
  | .fault _ => none
  | .refused _ => none

/-- An idle block with a geometry, a stream with its end on IN, and coming turns. -/
def idle (w h : BitVec 16) (b : BitVec 3) (stream : List Byte) (turns : List Turn) : State :=
  { State.reset with geomW := w, geomH := h, geomBpp := b, inq := onIn stream [.eos], turns := turns }

/-- A block whose parser is at its first byte. -/
def parsing (stream : List Byte) : State :=
  { State.reset with mode := .hparse, lastCmd := 1, inq := onIn stream [.eos] }

/-- A block whose serializer is at its first byte. -/
def serializing (h : Header) : State :=
  { State.reset with mode := .hser, lastCmd := 2, hdr := h, hb := pack h }

/-- A block whose decoder waits for its first packet. -/
def decoding (w h : BitVec 16) (b : BitVec 3) (stream : List Byte) : State :=
  { State.reset with
    mode := .dec, lastCmd := 3, geomW := w, geomH := h, geomBpp := b, inq := onIn stream [.eos] }

/-- A block whose encoder has counted a run of `run` pixels `01 02 03 04` from pixel 0 of an image of `w` pixels. -/
def emitting (w : BitVec 16) (b : BitVec 3) (run : BitVec 8) : State :=
  { State.reset with
    mode := .enc, lastCmd := 4, geomW := w, geomH := 1, geomBpp := b, estate := .emitHdr, run := run
    cur := #v[0x01, 0x02, 0x03, 0x04] }

/-- A block in M_FAULT, after TruncatedStream. -/
def faulted (turns : List Turn) : State :=
  { State.reset with mode := .fault, errCode := 2, errFmode := 3, errarg := 8, lastCmd := 3, turns := turns }

/-- H2's header of 95_test_vectors: every field has a distinct value. -/
def h2 : Header :=
  { idLength := 0x11, colorMapType := 0x22, imageType := 0x33, cmapOrigin := 0x4455, cmapLength := 0x6677, cmapDepth := 0x88
    xOrigin := 0x99AA, yOrigin := 0xBBCC, width := 0x0140, height := 0x00F0, bitsPerPixel := 0x20, imageDescriptor := 0x28 }

/-- H2's eighteen bytes. -/
def h2Bytes : List Byte :=
  [0x11, 0x22, 0x33, 0x55, 0x44, 0x77, 0x66, 0x88, 0xAA, 0x99, 0xCC, 0xBB, 0x40, 0x01, 0xF0, 0x00, 0x20, 0x28]

/-! ## WellFormed -/

/-- Header 0x80 "is never emitted": a run of one pixel is no ENC.EMIT_RUN (opcode_table.json, range 1 to 127 of `n`). -/
theorem test_wf_refuses_run_of_one : Instr.wf (.encEmitRun 0) = false := by decide

theorem test_wf_accepts_run_of_two : Instr.wf (.encEmitRun 1) = true := by decide

theorem test_wf_accepts_run_of_128 : Instr.wf (.encEmitRun 127) = true := by decide

/-- DEC.RUN has no such limit: 0x80 is legal input (30 R70). -/
theorem test_wf_accepts_decoded_run_of_one : Instr.wf (.decRun 0) = true := by decide

/-! ## Words written out from the encodings -/

/-- 30 R65: `1nnnnnnn`, n = 3. -/
theorem test_decode_decRun : decode (.packetIn 0b10000011) = .ok (.decRun 3) := by decide

/-- 30 R65: `0nnnnnnn`, n = 127. -/
theorem test_decode_decRaw : decode (.packetIn 0b01111111) = .ok (.decRaw 127) := by decide

/-- 30 R70: 0x80 is a run of one pixel. -/
theorem test_decode_run_of_one : decode (.packetIn 0b10000000) = .ok (.decRun 0) := by decide

/-- 30 R71: `1nnnnnnn`, n from 1. -/
theorem test_decode_encEmitRun : decode (.packetOut 0b10000001) = .ok (.encEmitRun 1) := by decide

/-- 30 R71: exactly 0x00. -/
theorem test_decode_encEmitRaw1 : decode (.packetOut 0b00000000) = .ok .encEmitRaw1 := by decide

/-- 30 R71: "It never emits 0x01 to 0x7F and never 0x80". -/
theorem test_decode_never_emitted :
    decode (.packetOut 0b00000001) = .error (.neverEmitted 0x01) ∧
    decode (.packetOut 0b01111111) = .error (.neverEmitted 0x7F) ∧
    decode (.packetOut 0b10000000) = .error (.neverEmitted 0x80) := by decide

/-- 30 R72: the five command values. -/
theorem test_decode_commands :
    decode (.command 0b000) = .ok .cmdNop ∧ decode (.command 0b001) = .ok .cmdHdrParse ∧
    decode (.command 0b010) = .ok .cmdHdrSerialize ∧ decode (.command 0b011) = .ok .cmdDecode ∧
    decode (.command 0b100) = .ok .cmdEncode := by decide

/-- 30 R73 and X2: the whole value is compared, so 2^40 and 2^40 + 3 are reserved. -/
theorem test_decode_reserved_commands :
    decode (.command 5) = .error (.reservedCommand 5) ∧
    decode (.command 0x10000000003) = .error (.reservedCommand 0x10000000003) := by decide

theorem test_decode_records : decode .recordIn = .ok .hdrParse ∧ decode .recordOut = .ok .hdrSerialize := by decide

/-- The words of the opcode table by their width. -/
theorem test_decodeTableWord :
    decodeTableWord 8 0b10000011 = some (.decRun 3) ∧ decodeTableWord 8 0 = some (.decRaw 0) ∧
    decodeTableWord 64 3 = some .cmdDecode ∧ decodeTableWord 64 5 = none ∧ decodeTableWord 144 0 = some .hdrParse ∧
    decodeTableWord 16 0 = none := by decide

/-- 30 R68: 4 bytes and 513 bytes are the shortest and the longest packet. -/
theorem test_packetLength : packetLength 0xFF 3 = 4 ∧ packetLength 0x00 3 = 4 ∧ packetLength 0x7F 4 = 513 := by decide

/-- 30 R76, R78: the printed forms. -/
theorem test_packetText :
    packetText (.run 3 [0x1E, 0x14, 0x0A]) = "RUN 4, (1E 14 0A)".toList ∧
    packetText (.raw [[0x01, 0x02, 0x03], [0x04, 0x05, 0x06]]) = "RAW 2, (01 02 03) (04 05 06)".toList := by decide

/-! ## A word of the table placed before the first step after reset -/

theorem test_fetch_packet : (fetch (State.reset.withFetchWord 8 0x80)).map Prod.fst = some (.decRun 0) := by decide

theorem test_fetch_command : (fetch (State.reset.withFetchWord 64 4)).map Prod.fst = some .cmdEncode := by decide

theorem test_fetch_record : (fetch (State.reset.withFetchWord 144 0)).map Prod.fst = some .hdrParse := by decide

/-- A raw packet of one zero pixel: four bytes popped, three written. -/
theorem test_step_of_placed_packet :
    after (step (State.reset.withFetchWord 8 0x00)) (fun t => (t.prod, t.ipos, t.dstate)) = some (3, 4, .hdr) := by decide

/-! ## DEC.RUN -/

/-- D1: one run fills the buffer. -/
theorem test_run_fills_the_buffer :
    after (step (decoding 2 2 3 [0x83, 0x1E, 0x14, 0x0A])) (fun t => (t.pb.map Prod.snd, t.mode, t.done, t.ovr, t.ipos)) =
      some ([0x1E, 0x14, 0x0A, 0x1E, 0x14, 0x0A, 0x1E, 0x14, 0x0A, 0x1E, 0x14, 0x0A], .idle, true, false, 4) := by decide

/-- D8: a run of three where there is room for two; the next byte stays on IN. -/
theorem test_run_is_clipped :
    after (step (decoding 2 1 3 [0x82, 0x01, 0x02, 0x03, 0xEE]))
      (fun t => (t.pb.map Prod.snd, t.ovr, statusWord t, t.pktLeft, t.inq)) =
      some ([0x01, 0x02, 0x03, 0x01, 0x02, 0x03], true, 0x3A, 1, [.byte 0xEE, .eos]) := by decide

/-! ## DEC.RAW -/

/-- The example of 41 R101: two literal pixels, then back to D_HDR. -/
theorem test_raw_copies :
    after (step (decoding 3 2 3 [0x01, 0x01, 0x02, 0x03, 0x04, 0x05, 0x06]))
      (fun t => (t.pb.map Prod.snd, t.prod, t.ipos, t.dstate)) =
      some ([0x01, 0x02, 0x03, 0x04, 0x05, 0x06], 6, 7, .hdr) := by decide

/-- D18: the stream ends inside a literal pixel; what was read has been written. -/
theorem test_raw_truncated :
    after (step (decoding 2 1 3 [0x01, 0x01, 0x02, 0x03, 0x04]))
      (fun t => (t.pb.map Prod.snd, errWord t, t.errarg, t.dstate, t.pktLeft)) =
      some ([0x01, 0x02, 0x03, 0x04], 0x0302, 5, .raw, 1) := by decide

/-! ## ENC.EMIT_RUN, ENC.EMIT_RAW1 -/

/-- The emission of D6's packet with its four-byte pixels (E5's form): header 0x81, four bytes, complete. -/
theorem test_emit_run_ends_the_encode :
    after (step (emitting 2 4 2)) (fun t => (t.outq, t.opos, t.pidx, t.mode, t.done)) =
      some ([0x81, 0x01, 0x02, 0x03, 0x04], 5, 2, .idle, true) := by decide

/-- Steps 9 to 12 of the encoder's trace in 95_test_vectors, with another pixel: back to E_LOAD. -/
theorem test_emit_run_goes_on :
    after (step (emitting 3 3 2)) (fun t => (t.outq, t.opos, t.pidx, t.estate, t.ebi)) =
      some ([0x81, 0x01, 0x02, 0x03], 4, 2, .load, 0) := by decide

/-- E2's form: a single pixel. -/
theorem test_emit_single_pixel :
    after (step (emitting 1 3 1)) (fun t => (t.outq, t.opos, t.pidx, statusWord t)) =
      some ([0x00, 0x01, 0x02, 0x03], 4, 1, 0x42) := by decide

/-- 20 R47: nothing is pushed to a host that does not accept. -/
theorem test_emit_holds :
    after (step { emitting 1 3 1 with outReady := false }) (fun t => (t.outq, t.estate)) = some ([], .emitHdr) := by decide

/-! ## HDR.PARSE, HDR.SERIALIZE -/

/-- H3. -/
theorem test_parse :
    after (step (parsing (h2Bytes ++ [0x99]))) (fun t => (t.hdr, statusWord t, t.ipos, t.inq)) =
      some (h2, 0x12, 18, [.byte 0x99, .eos]) := by decide

/-- H6, with the fields as they are after reset. -/
theorem test_parse_too_short :
    after (step (parsing (List.replicate 17 0))) (fun t => (statusWord t, errWord t, t.errarg, t.ipos, t.inq)) =
      some (0x14, 0x0101, 17, 17, [.eos]) := by decide

/-- H2. -/
theorem test_serialize :
    after (step (serializing h2)) (fun t => (t.outq, statusWord t, t.opos)) = some (h2Bytes, 0x22, 18) := by decide

/-- H5: all fields 0, GEOM_BPP 0. -/
theorem test_serialize_zero :
    after (step (serializing Header.zero)) (fun t => (t.outq, statusWord t)) =
      some (List.replicate 18 0, 0x22) := by decide

/-! ## Commands -/

/-- X6. -/
theorem test_nop : step (idle 0 0 0 [] [.regWrite 0 0]) = .next (idle 0 0 0 [] []) := by rfl

/-- X7, second write: harmless while the parse holds. -/
theorem test_nop_while_busy :
    after (step { parsing [] with turns := [.regWrite 0 0] }) statusWord = some 0x11 := by decide

/-- X13: DONE and the counters are cleared. -/
theorem test_cmd_parse :
    after (step { idle 0 0 0 [] [.regWrite 0 1] with done := true, lastCmd := 2, opos := 18 })
      (fun t => (statusWord t, t.opos, t.ipos)) = some (0x11, 0, 0) := by decide

/-- X7, third write: CmdWhileBusy and not CmdIllegal. -/
theorem test_cmd_while_busy :
    after (step { parsing [] with turns := [.regWrite 0 9] }) (fun t => (statusWord t, errWord t, t.errarg)) =
      some (0x14, 0x0105, 9) := by decide

/-- X15: OVR and DONE cleared at the start. -/
theorem test_cmd_serialize :
    after (step { idle 0 0 0 [] [.regWrite 0 2] with done := true, ovr := true, lastCmd := 3 }) statusWord = some 0x21 := by
  decide

/-- The header is packed in the accepting step (43 R150). -/
theorem test_cmd_serialize_packs :
    after (step { idle 0 0 0 [] [.regWrite 0 2] with hdr := h2 }) (fun t => t.hb.toList) = some h2Bytes := by decide

/-- X5: width 0, done at once. -/
theorem test_cmd_decode_of_nothing :
    after (step (idle 0 5 3 [] [.regWrite 0 3])) (fun t => (statusWord t, t.ipos, t.prod)) = some (0x32, 0, 0) := by decide

/-- X3: GEOM_BPP is 0 after reset. -/
theorem test_cmd_decode_config_error :
    after (step (idle 0 0 0 [] [.regWrite 0 3])) (fun t => (statusWord t, errWord t, t.errarg)) = some (0x04, 0x0003, 0) := by
  decide

/-- E15: NPIX = 0, done at once. -/
theorem test_cmd_encode_of_nothing :
    after (step (idle 0 7 4 [] [.regWrite 0 4])) (fun t => (statusWord t, t.outq, t.pidx)) = some (0x42, [], 0) := by decide

/-- X4. -/
theorem test_cmd_encode_config_error :
    after (step (idle 1 1 5 [] [.regWrite 0 4])) (fun t => (errWord t, t.errarg)) = some (0x0003, 5) := by decide

/-- X12: CmdIllegal with DONE kept. -/
theorem test_cmd_reserved :
    after (step { idle 0 0 0 [] [.regWrite 0 77] with done := true, lastCmd := 2, opos := 18 })
      (fun t => (statusWord t, errWord t, t.errarg, t.opos)) = some (0x26, 0x0004, 77, 18) := by decide

/-! ## Register access, reset, PB, the encoder's scan -/

/-- X8. -/
theorem test_write_while_busy :
    after (step { parsing [] with turns := [.regWrite 0x18 7] })
      (fun t => (statusWord t, errWord t, t.errarg, t.hdr.width)) = some (0x14, 0x0106, 0x18, 0) := by decide

/-- X14: truncation to three bits. -/
theorem test_write_truncates :
    after (step (idle 0 0 0 [] [.regWrite 0x06 0xB])) (fun t => regRead 0x06 t) = some 3 := by decide

/-- X10: a write to a view has no effect and no fault. -/
theorem test_write_to_a_view :
    after (step { parsing [] with turns := [.regWrite 0x1C 7] }) statusWord = some 0x11 := by decide

/-- X18. -/
theorem test_reads_of_nothing :
    regRead 0x00 State.reset = 0 ∧ regRead 0x0B State.reset = 0 ∧ regRead 0x1E State.reset = 0 ∧
    regRead 0xFFFF State.reset = 0 := by decide

/-- H3: the views. -/
theorem test_views : regRead 0x1C (serializing h2) = 4 ∧ regRead 0x1D (serializing h2) = 2 := by decide

/-- X16: reset while a decode runs. -/
theorem test_reset_while_busy :
    after (step { decoding 2 1 3 [0x01] with turns := [.rst true], pb := [(0, 0x05)] })
      (fun t => (statusWord t, t.geomW, t.inq, t.pb)) = some (0, 0, [.byte 0x01, .eos], [(0, 0x05)]) := by decide

/-- 70 R190: an encode that reads a byte no one has written stops. -/
theorem test_unwritten_byte :
    step { emitting 1 3 0 with estate := .load } = .fault (.pbUnwritten 0) := by rfl

/-- 20 R41: a host read returns the byte of the most recent write to the address. -/
theorem test_host_reads_the_latest_byte :
    after (steps 3 (idle 0 0 0 [] [.pbWrite 7 0x11, .pbWrite 7 0x22, .pbRead 7])) (fun t => t.hostData) = some 0x22 := by decide

/-- Step 8 of the encoder's trace: a differing byte ends the run. -/
theorem test_scan_differs :
    after (step { emitting 3 3 2 with
      estate := .scan, ebi := 2, pb := [(8, 0xCD)], cur := #v[0xAA, 0xBB, 0xCC, 0x00] })
      (fun t => (t.estate, t.run, t.ebi)) = some (.emitHdr, 2, 0) := by decide

/-- Step 5 of the encoder's trace: an equal pixel makes the run longer. -/
theorem test_scan_equal :
    after (step { emitting 3 3 1 with
      estate := .scan, ebi := 2, pb := [(5, 0xCC)], cur := #v[0xAA, 0xBB, 0xCC, 0x00] })
      (fun t => (t.estate, t.run, t.ebi)) = some (.scan, 2, 0) := by decide

/-- D8 and D10 as values of the function `decode` (41 R109). -/
theorem test_decodeFn :
    decodeFn 3 6 [0x82, 0x01, 0x02, 0x03, 0xEE] = .done [0x01, 0x02, 0x03, 0x01, 0x02, 0x03] 4 true ∧
    decodeFn 3 6 [0x01, 0x01, 0x02, 0x03, 0x04] = .truncated [0x01, 0x02, 0x03, 0x04] 5 := by decide

/-- E14 as a value of the function `encode` (42 R129). -/
theorem test_encodeFn :
    encodeFn 3 4 [0x07, 0x07, 0x07, 0x07, 0x07, 0x07, 0x07, 0x07, 0x07, 0x08, 0x08, 0x08] =
      [0x82, 0x07, 0x07, 0x07, 0x00, 0x08, 0x08, 0x08] := by decide

/-! ## Witnesses: the hypotheses of each obligation are met -/

/-- A decoder before the one packet of its stream. -/
def decInv : State := decoding 2 1 3 [0x81, 0x01, 0x02, 0x03]

/-- An encoder about to emit a single pixel, the only one of its buffer. -/
def encInv : State := { emitting 1 3 1 with pb := [(0, 0x01), (1, 0x02), (2, 0x03)] }

theorem decInv_meets_the_invariant : MachineInv decInv := by
  constructor <;> first | decide | skip
  all_goals intro _
  · constructor <;> decide
  · rename_i h; exact absurd h (by decide)

theorem encInv_meets_the_invariant : MachineInv encInv := by
  constructor <;> first | decide | skip
  · intro h; exact absurd h (by decide)
  · intro _
    constructor <;> first | decide | skip
    · intro h; exact absurd h (by decide)
    · intro h; exact absurd h (by decide)
    · intro _
      refine ⟨by decide, by decide, by decide, ?_, .inr (.inl (by decide))⟩
      intro k hk
      have : k = 0 := by have : encInv.run.toNat = 1 := by decide
                         omega
      subst this
      unfold PixelIsCur
      decide

/-! ### Encodings -/

theorem witness_DecodeInvertsEncode :
    Instr.wf (.encEmitRun 1) = true ∧ Instr.wf (.encEmitRun 127) = true ∧ Instr.wf (.decRun 0) = true ∧
    Instr.wf .encEmitRaw1 = true ∧ Instr.wf .cmdEncode = true := by decide

theorem witness_EveryByteIsAPacketHeader :
    (0x80 : Byte).getLsbD 7 = true ∧ (0xFF : Byte).getLsbD 7 = true ∧ (0x00 : Byte).getLsbD 7 = false ∧
    (0x7F : Byte).getLsbD 7 = false := by decide

theorem witness_EmittedHeaderByteOfEveryRun :
    (1 ≤ (1 : BitVec 8).toNat ∧ (1 : BitVec 8).toNat ≤ 128 ∧ (1 : BitVec 8).toNat = 1) ∧
    (2 ≤ (2 : BitVec 8).toNat ∧ (2 : BitVec 8).toNat ≤ 128) ∧
    (2 ≤ (128 : BitVec 8).toNat ∧ (128 : BitVec 8).toNat ≤ 128) := by decide

theorem witness_EncoderPushesOnlyItsTwoHeaderForms :
    MachineInv encInv ∧ encInv.mode = .enc ∧ encInv.estate = .emitHdr ∧ encInv.outReady = true :=
  ⟨encInv_meets_the_invariant, rfl, rfl, rfl⟩

theorem witness_CommandIsSelectedByTheWholeValue :
    (0 : Word).toNat = 0 ∧ (1 : Word).toNat = 1 ∧ (2 : Word).toNat = 2 ∧ (3 : Word).toNat = 3 ∧ (4 : Word).toNat = 4 ∧
    5 ≤ (5 : Word).toNat ∧ 5 ≤ (0xFFFFFFFFFFFFFFFF : Word).toNat := by decide

theorem witness_PacketLengthFromItsHeaderByte :
    Packet.wf 3 (.run 0 [0x01, 0x02, 0x03]) = true ∧ Packet.wf 4 (.run 127 [0x01, 0x02, 0x03, 0x04]) = true ∧
    Packet.wf 3 (.raw [[0x01, 0x02, 0x03]]) = true ∧
    Packet.wf 4 (.raw (List.replicate 128 [0x01, 0x02, 0x03, 0x04])) = true := by
  refine ⟨by decide, by decide, by decide, ?_⟩
  simp [Packet.wf, Config.maxRun]

/-! ### The step -/

theorem witness_StepRunsTheDecodedInstruction :
    (let s := idle 0 0 0 [] [.regWrite 0 1]
     s.rst = false ∧ s.turns = [.regWrite 0 1] ∧ decode (.command 1) = .ok .cmdHdrParse) ∧
    (let s := decoding 2 1 3 [0x81]
     s.rst = false ∧ s.turns = [] ∧ s.mode = .dec ∧ s.dstate = .hdr ∧ s.inq = [.byte 0x81, .eos] ∧
       decode (.packetIn 0x81) = .ok (.decRun 1)) ∧
    (let s := emitting 2 3 2
     s.rst = false ∧ s.turns = [] ∧ s.mode = .enc ∧ s.estate = .emitHdr ∧
       decode (.packetOut (emitHeader s.run)) = .ok (.encEmitRun 1)) ∧
    (let s := parsing []; s.rst = false ∧ s.turns = [] ∧ s.mode = .hparse) ∧
    (let s := serializing h2; s.rst = false ∧ s.turns = [] ∧ s.mode = .hser) := by decide

theorem witness_BlockTurnIsOneAtomicStep :
    (let s := { decInv with turns := [.blockStep] }; s.rst = false ∧ s.turns = [.blockStep]) ∧
    (State.reset.rst = false ∧ Quiescent State.reset ∧ State.reset.turns = []) ∧
    ((faulted []).rst = false ∧ Quiescent (faulted []) ∧ (faulted []).turns = []) := by
  refine ⟨by decide, ⟨rfl, .inl rfl, rfl⟩, rfl, .inr rfl, rfl⟩

theorem witness_UndisturbedStepIsAtomicSteps :
    (MachineInv decInv ∧ decInv.turns = [] ∧ decInv.rst = false) ∧
    (MachineInv encInv ∧ encInv.turns = [] ∧ encInv.rst = false) :=
  ⟨⟨decInv_meets_the_invariant, rfl, rfl⟩, encInv_meets_the_invariant, rfl, rfl⟩

/-! ### Reset -/

theorem witness_ResetClearsEveryStorageElement :
    (∃ t, exec .cmdDecode (resetBlock decInv) = .next t) ∧ (∃ t, exec .cmdEncode (resetBlock decInv) = .next t) :=
  ⟨⟨_, rfl⟩, _, rfl⟩

theorem witness_ResetLineAbandonsWhateverRuns :
    (∀ t : Turn, t = .blockStep → t = .blockStep ∨ ∃ n v, t = .regWrite n v) ∧
    (∃ n v, Turn.regWrite 0x04 7 = .regWrite n v) :=
  ⟨fun _ h => .inl h, _, _, rfl⟩

/-! ### Commands -/

theorem witness_NopChangesNothing :
    (idle 0 0 0 [] [.regWrite 0 0]).turns = [.regWrite 0 0] ∧ (faulted [.regWrite 0 0]).turns = [.regWrite 0 0] := by decide

theorem witness_IdleBlockStartsTheCommand :
    (let s := idle 2 1 3 [] []; s.mode = .idle ∧ s.bpp = 3 ∧ s.cap ≠ 0 ∧ s.npix ≠ 0) ∧
    (let s := idle 0 5 4 [] []; s.mode = .idle ∧ s.bpp = 4 ∧ s.cap = 0 ∧ s.npix = 0) := by decide

theorem witness_CommandWhileBusyFaults :
    let s := { parsing [] with turns := [.regWrite 0 9] }
    s.rst = false ∧ s.busy = true ∧ (9 : Word) ≠ 0 ∧ s.turns = [.regWrite 0 9] := by decide

theorem witness_ReservedCommandFaults :
    let s := idle 0 0 0 [] [.regWrite 0 5]
    s.rst = false ∧ s.mode = .idle ∧ 5 ≤ (5 : Word).toNat ∧ s.turns = [.regWrite 0 5] := by decide

theorem witness_IllegalBytesPerPixelFaults :
    (let s := idle 1 1 2 [] []; s.mode = .idle ∧ s.bpp ≠ 3 ∧ s.bpp ≠ 4) ∧
    (let s := idle 1 1 5 [] []; s.mode = .idle ∧ s.bpp ≠ 3 ∧ s.bpp ≠ 4) ∧
    (let s := idle 0 1 3 [] []; s.mode = .idle ∧ s.bpp = 3) ∧ (let s := idle 1 1 4 [] []; s.mode = .idle ∧ s.bpp = 4) := by
  decide

theorem witness_CommandTestsInTheirOrder :
    (let s := { parsing [] with turns := [.regWrite 0 5] }
     s.rst = false ∧ s.mode ≠ .fault ∧ s.turns = [.regWrite 0 5]) ∧
    (let s := idle 0 0 0 [] [.regWrite 0 4]
     s.rst = false ∧ s.mode ≠ .fault ∧ s.turns = [.regWrite 0 4]) := by decide

theorem witness_FaultStateIgnoresWritesAndSteps :
    ((faulted []).rst = false ∧ (faulted []).mode = .fault ∧ (faulted []).turns = []) ∧
    (faulted [.regWrite 0x04 1]).turns = [.regWrite 0x04 1] ∧ (faulted [.blockStep]).turns = [.blockStep] ∧
    (faulted [.regRead 0x02]).turns = [.regRead 0x02] := by decide

theorem witness_OnlyResetLeavesTheFaultState :
    (faulted []).mode = .fault ∧ (faulted []).rst = false ∧ (∀ rest, (faulted []).turns ≠ .rst true :: rest) ∧
    step (faulted []) = .next (faulted []) ∧
    (faulted [.rst true, .rst false]).turns = [.rst true, .rst false] ∧
    after (steps 2 (faulted [.rst true, .rst false])) (fun t => (t.rst, t.mode)) = some (false, .idle) := by
  refine ⟨rfl, rfl, ?_, rfl, rfl, by decide⟩
  intro rest h
  exact absurd h (by simp [faulted])

theorem witness_RegisterWriteWhileBusyFaults :
    let s := { parsing [] with turns := [.regWrite 0x1B 7] }
    s.rst = false ∧ s.busy = true ∧ WritableNumber 0x1B ∧ WritableNumber 0x04 ∧ s.turns = [.regWrite 0x1B 7] :=
  ⟨rfl, rfl, .inr ⟨by decide, by decide⟩, .inl ⟨by decide, by decide⟩, rfl⟩

theorem witness_WriteElsewhereHasNoEffect :
    (0x1C ≠ 0 ∧ ¬ WritableNumber 0x1C) ∧ (0x03 ≠ 0 ∧ ¬ WritableNumber 0x03) ∧ (0x07 ≠ 0 ∧ ¬ WritableNumber 0x07) ∧
    (idle 0 0 0 [] [.regWrite 0x1C 7]).turns = [.regWrite 0x1C 7] := by
  refine ⟨⟨by decide, ?_⟩, ⟨by decide, ?_⟩, ⟨by decide, ?_⟩, rfl⟩ <;> (unfold WritableNumber; decide)

theorem witness_IdleWriteStoresTheLowBits :
    let s := idle 0 0 0 [] [.regWrite 0x06 0xB]
    s.rst = false ∧ s.mode = .idle ∧ WritableNumber 0x06 ∧ s.turns = [.regWrite 0x06 0xB] :=
  ⟨rfl, rfl, .inl ⟨by decide, by decide⟩, rfl⟩

theorem witness_ReadReturnsTheRegisterAndChangesNothing :
    (let s := idle 0 0 0 [] [.regRead 0x01]; s.rst = false ∧ s.turns = [.regRead 0x01]) ∧
    (0x0B ≤ 0x0B ∧ 0x0B ≤ 0x0F) ∧ 0x1E ≤ 0x1E := by decide

theorem witness_HeaderViews :
    (0x1C = 0x1C ∨ 0x1C = 0x1D) ∧ (idle 0 0 0 [] [.regWrite 0x1C 7]).turns = [.regWrite 0x1C 7] ∧
    (idle 0 0 0 [] [.regWrite 0x1D 7]).turns = [.regWrite 0x1D 7] := by decide

/-! ### Header codec -/

/-- H2's bytes as the record. -/
def h2Record : Vector Byte 18 :=
  #v[0x11, 0x22, 0x33, 0x55, 0x44, 0x77, 0x66, 0x88, 0xAA, 0x99, 0xCC, 0xBB, 0x40, 0x01, 0xF0, 0x00, 0x20, 0x28]

theorem witness_ParseLoadsTheHeader :
    (let s := parsing h2Bytes; s.inq = onIn h2Record.toList [.eos] ∧ s.mode = .hparse ∧ s.hcnt = 0) ∧
    (let s := idle 0 0 0 h2Bytes []; s.inq = onIn h2Record.toList [.eos] ∧ s.mode = .idle) := by decide

theorem witness_ShortHeaderRaisesFormatError :
    (let s := parsing []
     s.mode = .hparse ∧ s.hcnt = 0 ∧ s.ipos = 0 ∧ ([] : List Byte).length < 18 ∧ s.inq = onIn [] [.eos]) ∧
    (let x := List.replicate 17 (0x00 : Byte)
     let s := parsing x
     s.mode = .hparse ∧ s.hcnt = 0 ∧ s.ipos = 0 ∧ x.length < 18 ∧ s.inq = onIn x [.eos]) := by decide

theorem witness_ParserStepMovesOneByte :
    State.reset.mode = .idle ∧
    (let s := { parsing [] with inq := [] }; s.mode = .hparse ∧ s.inq = []) ∧
    (let s := parsing []; s.mode = .hparse ∧ s.inq = [.eos]) ∧
    (let s := { parsing [0x01] with hcnt := 16 }; s.mode = .hparse ∧ s.inq = [.byte 0x01, .eos] ∧ s.hcnt.toNat < 17) ∧
    (let s := { parsing [0x01] with hcnt := 17 }; s.mode = .hparse ∧ s.inq = [.byte 0x01, .eos] ∧ s.hcnt.toNat = 17) := by
  decide

theorem witness_SerializePushesThePackedHeader :
    (State.reset.outReady = true ∧ State.reset.mode = .idle) ∧
    (let s := serializing h2; s.outReady = true ∧ s.mode = .hser ∧ s.hcnt.toNat < 18) ∧
    (let s := { serializing h2 with hcnt := 1, opos := 1 }
     s.outReady = true ∧ s.mode = .hser ∧ s.hcnt.toNat < 17 ∧ s.hb[s.hcnt.toNat]? = some 0x22) ∧
    (let s := { serializing h2 with hcnt := 17, opos := 17 }
     s.outReady = true ∧ s.mode = .hser ∧ s.hcnt.toNat = 17 ∧ s.hb[s.hcnt.toNat]? = some 0x28) ∧
    (let s := { serializing h2 with hcnt := 17, outReady := false }
     s.outReady = false ∧ s.mode = .hser ∧ s.hcnt.toNat < 18) := by decide

/-! ### Decoder -/

/-- One case with room for the whole packet and more, one that fills the buffer exactly, one that is clipped. -/
theorem witness_RunPacketExpandsItsPixel :
    (let s := decoding 3 1 3 [packetByte true 1, 0x01, 0x02, 0x03]
     s.mode = .dec ∧ s.dstate = .hdr ∧ s.bpp = 3 ∧ s.prod.toNat < s.cap ∧ s.prod.toNat % s.bpp = 0 ∧
       [0x01, 0x02, 0x03].length = s.bpp ∧ s.inq = .byte (packetByte true 1) :: onIn [0x01, 0x02, 0x03] [.eos] ∧
       (packetCount 1).toNat < (s.cap - s.prod.toNat) / s.bpp) ∧
    (let s := decoding 2 1 4 [packetByte true 1, 0x01, 0x02, 0x03, 0x04]
     s.mode = .dec ∧ s.dstate = .hdr ∧ s.bpp = 4 ∧ s.prod.toNat < s.cap ∧ s.prod.toNat % s.bpp = 0 ∧
       [0x01, 0x02, 0x03, 0x04].length = s.bpp ∧
       s.inq = .byte (packetByte true 1) :: onIn [0x01, 0x02, 0x03, 0x04] [.eos] ∧
       (packetCount 1).toNat = (s.cap - s.prod.toNat) / s.bpp) ∧
    (let s := decoding 1 1 3 [packetByte true 127, 0x01, 0x02, 0x03]
     s.mode = .dec ∧ s.dstate = .hdr ∧ s.bpp = 3 ∧ s.prod.toNat < s.cap ∧ s.prod.toNat % s.bpp = 0 ∧
       [0x01, 0x02, 0x03].length = s.bpp ∧ s.inq = .byte (packetByte true 127) :: onIn [0x01, 0x02, 0x03] [.eos] ∧
       (s.cap - s.prod.toNat) / s.bpp < (packetCount 127).toNat) := by decide

theorem witness_RawPacketCopiesItsPixels :
    (let s := decoding 3 1 3 [packetByte false 0, 0x01, 0x02, 0x03]
     s.mode = .dec ∧ s.dstate = .hdr ∧ s.bpp = 3 ∧ s.prod.toNat < s.cap ∧ s.prod.toNat % s.bpp = 0 ∧
       [0x01, 0x02, 0x03].length = min (packetCount 0).toNat ((s.cap - s.prod.toNat) / s.bpp) * s.bpp ∧
       s.inq = .byte (packetByte false 0) :: onIn [0x01, 0x02, 0x03] [.eos]) ∧
    (let s := decoding 1 1 4 [packetByte false 127, 0x01, 0x02, 0x03, 0x04]
     s.mode = .dec ∧ s.dstate = .hdr ∧ s.bpp = 4 ∧ s.prod.toNat < s.cap ∧ s.prod.toNat % s.bpp = 0 ∧
       [0x01, 0x02, 0x03, 0x04].length = min (packetCount 127).toNat ((s.cap - s.prod.toNat) / s.bpp) * s.bpp ∧
       s.inq = .byte (packetByte false 127) :: onIn [0x01, 0x02, 0x03, 0x04] [.eos]) := by decide

theorem witness_RunPacketCutShortFaults :
    (let s := decoding 2 1 3 []
     s.mode = .dec ∧ s.dstate = .hdr ∧ s.bpp = 3 ∧ ([] : List Byte).length < s.bpp ∧ s.inq = onIn [] [.eos]) ∧
    (let s := decoding 2 1 4 [0x01, 0x02, 0x03]
     s.mode = .dec ∧ s.dstate = .hdr ∧ s.bpp = 4 ∧ [0x01, 0x02, 0x03].length < s.bpp ∧
       s.inq = onIn [0x01, 0x02, 0x03] [.eos]) := by decide

theorem witness_RawPacketCutShortFaults :
    (let s := decoding 2 1 3 []
     s.mode = .dec ∧ s.dstate = .hdr ∧ s.bpp = 3 ∧ s.prod.toNat < s.cap ∧ s.prod.toNat % s.bpp = 0 ∧
       ([] : List Byte).length < min (packetCount 0).toNat ((s.cap - s.prod.toNat) / s.bpp) * s.bpp ∧
       s.inq = onIn [] [.eos]) ∧
    (let s := decoding 2 1 3 [0x01, 0x02, 0x03, 0x04, 0x05]
     s.mode = .dec ∧ s.dstate = .hdr ∧ s.bpp = 3 ∧ s.prod.toNat < s.cap ∧ s.prod.toNat % s.bpp = 0 ∧
       [0x01, 0x02, 0x03, 0x04, 0x05].length < min (packetCount 3).toNat ((s.cap - s.prod.toNat) / s.bpp) * s.bpp ∧
       s.inq = onIn [0x01, 0x02, 0x03, 0x04, 0x05] [.eos]) := by decide

theorem witness_TruncatedStreamInExactlyThreePlaces :
    (let s := decoding 2 1 3 []
     s.mode = .dec ∧ s.inq = [.eos] ∧ s.dstate ≠ .runOut ∧ after (tick s) (fun t => t.mode) = some .fault) ∧
    (let s := { decoding 2 1 3 [] with dstate := .raw, pktLeft := 1 }
     s.mode = .dec ∧ s.inq = [.eos] ∧ s.dstate ≠ .runOut) := by decide

theorem witness_DecodeAgreesWithTheFunction :
    (let s := idle 2 1 3 [0x81, 0x01, 0x02, 0x03] [.regWrite 0 3]
     s.mode = .idle ∧ s.rst = false ∧ s.bpp = 3 ∧ s.inq = onIn [0x81, 0x01, 0x02, 0x03] [.eos] ∧
       s.turns = [.regWrite 0 3] ∧
       decodeFn s.bpp s.cap [0x81, 0x01, 0x02, 0x03] = .done [0x01, 0x02, 0x03, 0x01, 0x02, 0x03] 4 false) ∧
    (let s := idle 2 1 3 [0x81, 0x01] [.regWrite 0 3]
     s.mode = .idle ∧ s.rst = false ∧ s.bpp = 3 ∧ s.inq = onIn [0x81, 0x01] [.eos] ∧ s.turns = [.regWrite 0 3] ∧
       decodeFn s.bpp s.cap [0x81, 0x01] = .truncated [] 2) ∧
    (let s := idle 0 1 4 [] [.regWrite 0 3]
     s.mode = .idle ∧ s.rst = false ∧ s.bpp = 4 ∧ s.inq = onIn [] [.eos] ∧ s.turns = [.regWrite 0 3] ∧
       decodeFn s.bpp s.cap [] = .done [] 0 false) := by decide

theorem witness_DecodeWritesInOrderAndNeverReads :
    (decInv.mode = .dec ∧ after (tick decInv) (fun t => (t.prod, t.pb)) = some (0, []) ∧
      after (tick { decInv with pb := [(0, 0x09)] }) (fun t => (t.prod, t.pb)) = some (0, [(0, 0x09)])) ∧
    (let s := { decInv with dstate := .raw, pktLeft := 1 }
     s.mode = .dec ∧ after (tick s) (fun t => (t.prod, t.pb)) = some (1, [(0, 0x81)]) ∧
       after (tick { s with pb := [(0, 0x09), (7, 0x08)] }) (fun t => (t.prod, t.pb)) =
         some (1, [(0, 0x81), (7, 0x08)])) := by decide

theorem witness_PacketStreamDecodesToItsPixels :
    ∀ k ∈ [Packet.run 1 [0x01, 0x02, 0x03], Packet.raw [[0x04, 0x05, 0x06]]], k.wf 3 = true := by decide

/-! ### Encoder -/

theorem witness_EmitRunPacket :
    (let s := emitting 2 4 2
     s.mode = .enc ∧ s.estate = .emitHdr ∧ s.bpp = 4 ∧ s.outReady = true ∧ 1 ≤ (1 : BitVec 7).toNat ∧
       s.pidx.toNat + ((1 : BitVec 7).toNat + 1) = s.npix) ∧
    (let s := emitting 200 3 128
     s.mode = .enc ∧ s.estate = .emitHdr ∧ s.bpp = 3 ∧ s.outReady = true ∧ 1 ≤ (127 : BitVec 7).toNat ∧
       s.pidx.toNat + ((127 : BitVec 7).toNat + 1) < s.npix) := by decide

theorem witness_EmitSinglePixelPacket :
    (let s := emitting 1 3 1
     s.mode = .enc ∧ s.estate = .emitHdr ∧ s.bpp = 3 ∧ s.outReady = true ∧ s.pidx.toNat + 1 = s.npix) ∧
    (let s := emitting 2 4 1
     s.mode = .enc ∧ s.estate = .emitHdr ∧ s.bpp = 4 ∧ s.outReady = true ∧ s.pidx.toNat + 1 < s.npix) := by decide

theorem witness_EncoderOnlyReadsPbAndPushes :
    encInv.mode = .enc ∧ after (tick encInv) (fun t => t.outq) = some [0x00] ∧
    (let s := { encInv with estate := .load }
     s.mode = .enc ∧ after (tick s) (fun t => (t.outq, t.ebi)) = some ([], 1)) := by decide

theorem witness_EncodeAgreesWithTheFunction :
    let s := { idle 1 1 3 [] [.regWrite 0 4] with pb := [(0, 0x01), (1, 0x02), (2, 0x03)] }
    s.mode = .idle ∧ s.rst = false ∧ s.outReady = true ∧ s.bpp = 3 ∧ [0x01, 0x02, 0x03].length = s.cap ∧
    HoldsAt s.pb 0 [0x01, 0x02, 0x03] ∧ s.turns = [.regWrite 0 4] := by
  refine ⟨rfl, rfl, rfl, rfl, rfl, ?_, rfl⟩
  unfold HoldsAt
  decide

theorem witness_RunLengthIsTheLargest : 0 < 1 ∧ 4 < 5 := by decide

theorem witness_EncodeThenDecodeIsTheIdentity :
    [0x01, 0x02, 0x03].length = 1 * 3 ∧ ([] : List Byte).length = 0 * 4 := by decide

theorem witness_UniformImageEncodesToMaximalRuns :
    [0x05, 0x06, 0x07].length = 3 ∧ [0x05, 0x06, 0x07, 0x08].length = 4 ∧ 1 ≤ 1 ∧ 1 ≤ 128 ∧ 1 ≤ 129 := by decide

theorem witness_EncodeOutputBound :
    let P : List Byte := [0x01, 0x01, 0x01, 0x02, 0x02, 0x02]
    P.length = 2 * 3 ∧ pixelOf 3 P 1 ≠ pixelOf 3 P 0 ∧ 2 ≤ 65535 * 65535 := by decide

/-! ### Channels, ownership, isolation -/

theorem witness_HoldChangesNothing :
    (let s := { parsing [] with inq := [] }; s.inq = [] ∧ s.mode = .hparse) ∧
    (let s := { decInv with inq := [] }; s.inq = [] ∧ s.mode = .dec ∧ s.dstate ≠ .runOut) ∧
    (let s := { serializing h2 with outReady := false }; s.outReady = false ∧ s.mode = .hser ∧ s.hcnt.toNat < 18) ∧
    (let s := { encInv with outReady := false }; s.outReady = false ∧ s.mode = .enc ∧ s.estate = .emitHdr) ∧
    (let s := { encInv with outReady := false, estate := .emitPix }
     s.outReady = false ∧ s.mode = .enc ∧ s.estate = .emitPix) := by decide

theorem witness_AtomicStepMovesSingleBytes :
    after (tick decInv) (fun t => (t.inq.length, t.ipos)) = some (4, 1) ∧
    after (tick encInv) (fun t => (t.outq.length, t.opos)) = some (1, 1) ∧
    after (tick { decInv with dstate := .raw, pktLeft := 1 }) (fun t => (t.pb.length, t.prod)) = some (1, 1) ∧
    after (tick State.reset) (fun t => t.ipos) = some 0 := by decide

theorem witness_HostFeedsAndDrainsTheChannels :
    (.eos ∉ State.reset.inq ∧ .eos ∈ (parsing []).inq) ∧
    (let s := { State.reset with outq := [0x01], turns := [.takeOut] }; s.turns = [.takeOut] ∧ s.outq = [0x01]) ∧
    (let s := idle 0 0 0 [0x01] [.takeIn]
     s.mode ≠ .hparse ∧ s.mode ≠ .dec ∧ s.turns = [.takeIn] ∧ s.inq = [.byte 0x01, .eos]) ∧
    (let s := idle 0 0 0 [0x01] [.clearIn]
     s.mode ≠ .hparse ∧ s.mode ≠ .dec ∧ s.turns = [.clearIn] ∧ after (step s) (fun t => t.inq) = some []) ∧
    (let s := { serializing h2 with turns := [.clearIn], inq := [.eos] }
     s.mode ≠ .hparse ∧ s.mode ≠ .dec ∧ s.turns = [.clearIn] ∧ after (step s) (fun t => t.inq) = some []) ∧
    (let s := { encInv with turns := [.takeIn], inq := [.byte 0x01, .eos] }
     s.mode ≠ .hparse ∧ s.mode ≠ .dec ∧ s.turns = [.takeIn] ∧ s.inq = [.byte 0x01, .eos]) ∧
    (let s := { parsing [] with turns := [.clearIn] }; s.mode = .hparse ∧ s.turns = [.clearIn]) ∧
    (let s := { decInv with turns := [.takeIn] }; s.mode = .dec ∧ s.turns = [.takeIn]) := by decide

theorem witness_UnitInstructionOutsideItsUnitDoesNothing :
    ¬(State.reset.mode = .dec ∧ State.reset.dstate = .hdr) ∧ ¬(State.reset.mode = .enc ∧ State.reset.estate = .emitHdr) ∧
    State.reset.mode ≠ .hparse ∧ State.reset.mode ≠ .hser := by decide

theorem witness_PbBelongsToOneAgentAtATime :
    (let s := { decInv with turns := [.pbWrite 0 1] }; s.mode = .dec ∧ s.turns = [.pbWrite 0 1]) ∧
    (let s := { encInv with turns := [.pbRead 0] }; s.mode = .enc ∧ s.turns = [.pbRead 0]) ∧
    (let s := idle 0 0 0 [] [.pbWrite 0 1]; s.mode ≠ .dec ∧ s.mode ≠ .enc ∧ s.turns = [.pbWrite 0 1]) ∧
    (let s := { idle 0 0 0 [] [.pbRead 0] with pb := [(0, 0x05)] }
     s.mode ≠ .dec ∧ s.mode ≠ .enc ∧ s.turns = [.pbRead 0] ∧ memRead s.pb (0 : BitVec 34).toNat = some 0x05) ∧
    (let s := { idle 0 0 0 [] [.pbRead 0x3FFFFFFFF] with pb := [(0, 0x05)] }
     s.mode ≠ .dec ∧ s.mode ≠ .enc ∧ s.turns = [.pbRead 0x3FFFFFFFF] ∧
       memRead s.pb (0x3FFFFFFFF : BitVec 34).toNat = none) ∧
    (let s := parsing [0x01]
     s.mode ≠ .dec ∧ s.mode ≠ .enc ∧ s.rst = false ∧ s.turns = [] ∧ (after (step s) (fun _ => true)) = some true) := by decide

theorem witness_CodecUnitsIgnoreTheHeaderRegisters :
    (decInv.mode = .dec ∧ after (tick decInv) (fun _ => true) = some true) ∧
    (encInv.mode = .enc ∧ after (tick encInv) (fun _ => true) = some true) ∧
    (tick { encInv with estate := .load, pb := [] } = .fault (.pbUnwritten 0)) := ⟨by decide, by decide, rfl⟩

theorem witness_BlockStaysInsidePb :
    (MachineInv decInv ∧ decInv.mode ≠ .enc) ∧ MachineInv encInv :=
  ⟨⟨decInv_meets_the_invariant, by decide⟩, encInv_meets_the_invariant⟩

theorem witness_UnitsWriteOnlyTheirOwnState :
    ((parsing [0x01]).mode = .hparse ∧ after (tick (parsing [0x01])) (fun _ => true) = some true) ∧
    ((serializing h2).mode = .hser ∧ after (tick (serializing h2)) (fun _ => true) = some true) ∧
    (decInv.mode = .dec ∧ after (tick decInv) (fun t => t.prod) = some decInv.prod) ∧
    (let s := { decInv with dstate := .raw, pktLeft := 1 }
     s.mode = .dec ∧ after (tick s) (fun t => (t.prod, t.pb)) = some (1, [(0, 0x81)])) ∧
    (encInv.mode = .enc ∧ after (tick encInv) (fun _ => true) = some true) := by decide

/-! ### Invariants -/

/-- A decode that has just completed, before the next turns of its host. -/
def decDone (turns : List Turn) : State :=
  { idle 1 1 3 [] turns with
    lastCmd := 3, done := true, prod := 3, pb := [(0, 0x01), (1, 0x02), (2, 0x03)] }

theorem decDone_meets_the_invariant : MachineInv (decDone []) ∧ CompletionCounts (decDone []) := by
  constructor <;> constructor <;> first | decide | skip
  all_goals intro h; exact absurd h (by decide)

theorem witness_EveryStepKeepsTheInvariant :
    (MachineInv decInv ∧ CompletionCounts decInv ∧ ¬ GeometryWriteNext decInv ∧
      after (step decInv) (fun t => (t.mode, t.done, t.lastCmd, t.prod)) = some (.idle, true, 3, 6)) ∧
    (MachineInv encInv ∧ CompletionCounts encInv ∧ ¬ GeometryWriteNext encInv ∧
      after (step encInv) (fun t => (t.mode, t.done, t.lastCmd, t.pidx)) = some (.idle, true, 4, 1)) ∧
    (MachineInv (decDone []) ∧ CompletionCounts (decDone []) ∧ ¬ GeometryWriteNext (decDone []) ∧
      after (step (decDone [])) (fun t => t.prod) = some 3) := by
  have idle_turns : ∀ {s : State}, s.turns = [] → ¬ GeometryWriteNext s := by
    rintro s h ⟨_, _, _, _, _, ht, _⟩
    rw [h] at ht; cases ht
  have busy : ∀ {s : State}, s.done = false → CompletionCounts s :=
    fun h => ⟨fun _ hd => absurd (h.symm.trans hd) (by decide), fun _ hd => absurd (h.symm.trans hd) (by decide)⟩
  exact ⟨⟨decInv_meets_the_invariant, busy rfl, idle_turns rfl, by decide⟩,
    ⟨encInv_meets_the_invariant, busy rfl, idle_turns rfl, by decide⟩,
    ⟨decDone_meets_the_invariant.1, decDone_meets_the_invariant.2, idle_turns rfl, by decide⟩⟩

/-- A geometry write of the idle host after a completed decode: CAP is that of the new geometry, PROD stays (10 R23, R27; 43 R142). -/
theorem test_geometry_write_after_completion :
    GeometryWriteNext (decDone [.regWrite 0x04 2]) ∧
    after (step (decDone [.regWrite 0x04 2])) (fun t => (t.mode, t.done, t.prod, t.cap)) = some (.idle, true, 3, 6) :=
  ⟨⟨rfl, rfl, 0x04, 2, [], rfl, by decide, by decide⟩, by decide⟩

end Sys2Proof.Tests
end

/-! PROOF. The step of the machine by the turn it takes, the block that has no step, and the hold of each unit (00 R6, R7): O11 and O51. -/

namespace Sys2Proof.Machine

variable {s : State}

/-! ## What a step runs -/

/-- With a turn coming, a step takes it off the list and runs it. -/
theorem step_turn {t : Turn} {rest : List Turn} (h : s.turns = t :: rest) : step s = takeTurn t { s with turns := rest } := by
  simp only [step, advance, h]

/-- With no turn coming and `rst` released, a step runs the block undisturbed. -/
theorem step_undisturbed (ht : s.turns = []) (hr : s.rst = false) : step s = runBlock s := by
  simp [step, advance, ht, hr]

/-- A block turn is an atomic step of the block while `rst` is released (70 R185). -/
theorem takeTurn_blockStep (hr : s.rst = false) : takeTurn .blockStep s = tick s := by simp [takeTurn, hr]

/-- Where no instruction is at hand, the undisturbed block takes one atomic step. -/
theorem runBlock_of_fetchUnit_none (h : fetchUnit s = none) : runBlock s = tick s := by simp only [runBlock, h]

/-! ## The block that has no step -/

theorem blockStep_of_quiescent (h : Quiescent s) : blockStep s = .quiescent := by
  rcases h with h | h <;> simp only [blockStep, h]

theorem fetchUnit_of_quiescent (h : Quiescent s) : fetchUnit s = none := by
  rcases h with h | h <;> simp only [fetchUnit, h]

theorem tick_of_quiescent (h : Quiescent s) : tick s = .next s := by
  rw [tick, blockStep_of_quiescent h, Attempt.outcome]

theorem step_of_quiescent (h : Quiescent s) (ht : s.turns = []) (hr : s.rst = false) : step s = .next s := by
  rw [step_undisturbed ht hr, runBlock_of_fetchUnit_none (fetchUnit_of_quiescent h), tick_of_quiescent h]

/-- Settles O11: the turn list is read once, and a quiescent block has neither an instruction at hand nor an atomic step. -/
theorem blockTurnIsOneAtomicStep : Obligations.BlockTurnIsOneAtomicStep := by
  intro s hr
  refine ⟨fun rest ht => ?_, tick_of_quiescent, fun hq ht => step_of_quiescent hq ht hr⟩
  rw [step_turn ht]
  exact takeTurn_blockStep hr

/-! ## Holds -/

/-- The parser holds on an empty IN (40 R81; 20 R45). -/
theorem parseStep_empty (hq : s.inq = []) : parseStep s = .held := inPop_empty hq

/-- The serializer holds while the host does not accept (40 R84; 20 R47). -/
theorem serializeStep_hold (hr : s.outReady = false) (h : s.hcnt.toNat < 18) : serializeStep s = .held := by
  rw [serializeStep, dif_pos h, outPush_hold hr]

/-- The encoder holds in both of its pushing states while the host does not accept (42 R126, R127; 20 R47). -/
theorem encoderStep_hold (hr : s.outReady = false) (he : s.estate = .emitHdr ∨ s.estate = .emitPix) : encoderStep s = .held := by
  rcases he with he | he <;> simp only [encoderStep, he] <;> exact outPush_hold hr

/-- HDR.PARSE ends where the parser holds (40 R80). -/
theorem exec_hdrParse_held (h : parseStep s = .held) : exec .hdrParse s = .next s := runUnit_held h _

/-- HDR.SERIALIZE ends where the serializer holds (40 R83). -/
theorem exec_hdrSerialize_held (h : serializeStep s = .held) : exec .hdrSerialize s = .next s := runUnit_held h _

/-- Settles O51: each unit's step at its hold is `.held`, which is the same state as a tick and ends the unit's instruction at once. -/
theorem holdChangesNothing : Obligations.HoldChangesNothing := by
  intro s
  refine ⟨fun hq hm => ?parse, fun hq hm hd => ?decode, fun hr hm hlt => ?serialize, fun hr hm he => ?encode⟩
  case parse =>
    have held := parseStep_empty hq
    exact ⟨by rw [tick_hparse hm, held, Attempt.outcome], exec_hdrParse_held held⟩
  case decode => rw [tick_dec hm, decoderStep_empty hd hq, Attempt.outcome]
  case serialize =>
    have held := serializeStep_hold hr hlt
    exact ⟨by rw [tick_hser hm, held, Attempt.outcome], exec_hdrSerialize_held held⟩
  case encode => rw [tick_enc hm, encoderStep_hold hr he, Attempt.outcome]

end Sys2Proof.Machine

/-! PROOF. Every step of the decoder keeps the invariant (41 R111), after what the units' proofs share. -/

namespace Sys2Proof.Machine

variable {s t : State}

/-! ## What an atomic step has to leave -/

/-- 10 R29 whole, CompletionCounts included. -/
def FullInv (s : State) : Prop := MachineInv s ∧ CompletionCounts s

/-- `P` holds of the state an attempt answers, where it answers one. -/
def Attempt.Leaves (P : State → Prop) : Attempt → Prop
  | .stepped t => P t
  | .faulted t => P t
  | .held => True
  | .quiescent => True
  | .stop _ => True

theorem Attempt.Leaves.of_answer {P : State → Prop} {a : Attempt} (h : a.Leaves P) (ha : a = .stepped t ∨ a = .faulted t) :
    P t := by
  rcases ha with rfl | rfl <;> exact h

/-- A busy block or one in M_FAULT has no completed command to count. -/
theorem MachineInv.fullInv (h : MachineInv s) (hm : s.mode ≠ .idle) : FullInv s := ⟨h, .of_not_done fun hi => absurd hi hm⟩

/-- A fault taken keeps the invariant (60 R173). -/
theorem MachineInv.raise_fullInv (h : MachineInv s) (f : BlockFault) (arg : Word) : FullInv (raise f arg s) :=
  (h.raise_keeps f arg).fullInv (by simp)

/-- "The block is BUSY exactly when MODE is 1, 2, 3 or 4" (10 R11). -/
theorem busy_iff (s : State) : s.busy = true ↔ s.mode = .hparse ∨ s.mode = .hser ∨ s.mode = .dec ∨ s.mode = .enc := by
  cases hm : s.mode <;> simp [State.busy, Mode.busy, hm]

/-- One more is at most one more, wrapping or not. -/
theorem toNat_add_one_le {w : Nat} (x : BitVec w) : (x + 1).toNat ≤ x.toNat + 1 := by
  have one_le : (1 : BitVec w).toNat ≤ 1 := Nat.mod_le _ _
  calc (x + 1).toNat ≤ x.toNat + (1 : BitVec w).toNat := by rw [BitVec.toNat_add]; exact Nat.mod_le _ _
    _ ≤ x.toNat + 1 := by omega

/-- After a byte that does not end its pixel, the next is in the same pixel, and there is room for it. -/
theorem next_byte_same_pixel {bpp cap p d : Nat} (hb : bpp = 3 ∨ bpp = 4) (hc : cap % bpp = 0) (hp : p < cap)
    (hd : p % bpp = d) (hlt : d < bpp) (hm : d + 1 ≠ bpp) : p + 1 < cap ∧ (p + 1) % bpp = d + 1 ∧ (p + 1) / bpp = p / bpp := by
  rcases hb with rfl | rfl <;> omega

/-- After the last byte of a pixel, the next starts a pixel. -/
theorem next_byte_next_pixel {bpp p d : Nat} (hb : bpp = 3 ∨ bpp = 4) (hd : p % bpp = d) (hl : d + 1 = bpp) :
    (p + 1) % bpp = 0 ∧ (p + 1) / bpp = p / bpp + 1 := by
  rcases hb with rfl | rfl <;> omega

/-! ## The invariant, sub-state by sub-state -/

/-- In D_HDR the packets so far are whole pixels. -/
theorem DecInv.of_hdr (hd : s.dstate = .hdr) (bpp : s.bpp = 3 ∨ s.bpp = 4) (room : s.prod.toNat < s.cap) (dbi : s.dbi = 0)
    (aligned : s.prod.toNat % s.bpp = 0) (ovr : s.ovr = false)
    (used : s.ipos.toNat ≤ s.prod.toNat / s.bpp * (1 + s.bpp)) : DecInv s where
  bpp := bpp
  room := room
  dbi := by rw [dbi]; simp; omega
  hdr := fun _ => ⟨aligned, dbi⟩
  runPix := by simp [hd]
  writing := by simp [hd]
  left := by simp [hd]
  kind := by simp [hd]
  ovr := ovr
  used := by simpa [hd] using used

/-- In D_RUN_PIX no byte of the packet's pixels has been written. -/
theorem DecInv.of_runPix (hd : s.dstate = .runPix) (bpp : s.bpp = 3 ∨ s.bpp = 4) (room : s.prod.toNat < s.cap)
    (dbi : s.dbi.toNat < s.bpp) (aligned : s.prod.toNat % s.bpp = 0) (left : 1 ≤ s.pktLeft.toNat ∧ s.pktLeft.toNat ≤ 128)
    (kind : s.pktRun = true) (ovr : s.ovr = false)
    (used : s.ipos.toNat ≤ s.prod.toNat / s.bpp * (1 + s.bpp) + 1 + s.dbi.toNat) : DecInv s where
  bpp := bpp
  room := room
  dbi := dbi
  hdr := by simp [hd]
  runPix := fun _ => aligned
  writing := by simp [hd]
  left := fun _ => left
  kind := by simp [hd, kind]
  ovr := ovr
  used := by simpa [hd] using used

/-- In D_RUN_OUT and D_RAW the bytes of PB grow one by one. -/
theorem DecInv.of_writing (hd : s.dstate = .runOut ∨ s.dstate = .raw) (bpp : s.bpp = 3 ∨ s.bpp = 4)
    (room : s.prod.toNat < s.cap) (dbi : s.dbi.toNat < s.bpp) (aligned : s.prod.toNat % s.bpp = s.dbi.toNat)
    (left : 1 ≤ s.pktLeft.toNat ∧ s.pktLeft.toNat ≤ 128)
    (kind : (s.dstate = .runOut → s.pktRun = true) ∧ (s.dstate = .raw → s.pktRun = false)) (ovr : s.ovr = false)
    (usedRun : s.dstate = .runOut → s.ipos.toNat ≤ (s.prod.toNat / s.bpp + 1) * (1 + s.bpp))
    (usedRaw : s.dstate = .raw → s.ipos.toNat ≤ s.prod.toNat / s.bpp * (1 + s.bpp) + 1 + s.dbi.toNat) : DecInv s where
  bpp := bpp
  room := room
  dbi := dbi
  hdr := by rcases hd with hd | hd <;> simp [hd]
  runPix := by rcases hd with hd | hd <;> simp [hd]
  writing := fun _ => aligned
  left := fun _ => left
  kind := by rcases hd with hd | hd <;> simpa [hd] using kind
  ovr := ovr
  used := by rcases hd with hd | hd <;> simp [hd] at usedRun usedRaw ⊢ <;> assumption

/-! ## A byte of PB written -/

/-- What holds between the write of byte `p` of PB and the end of its step: PROD counts the byte, and DBI is still its index in its
pixel. -/
structure ByteWritten (p : Nat) (s : State) : Prop where
  bpp : s.bpp = 3 ∨ s.bpp = 4
  prod : s.prod.toNat = p + 1
  room : p < s.cap
  dbi : s.dbi.toNat < s.bpp
  aligned : p % s.bpp = s.dbi.toNat
  writing : s.dstate = .runOut ∨ s.dstate = .raw
  left : 1 ≤ s.pktLeft.toNat ∧ s.pktLeft.toNat ≤ 128
  kind : (s.dstate = .runOut → s.pktRun = true) ∧ (s.dstate = .raw → s.pktRun = false)
  ovr : s.ovr = false
  usedRun : s.dstate = .runOut → s.ipos.toNat ≤ (p / s.bpp + 1) * (1 + s.bpp)
  usedRaw : s.dstate = .raw → s.ipos.toNat ≤ p / s.bpp * (1 + s.bpp) + 2 + s.dbi.toNat

variable {p : Nat}

/-- With a byte that does not end its pixel, the packet goes on. -/
theorem ByteWritten.decInv_more (h : ByteWritten p s) (hl : s.dbi.toNat + 1 ≠ s.bpp) : DecInv { s with dbi := s.dbi + 1 } := by
  obtain ⟨hroom, hmod, hdiv⟩ := next_byte_same_pixel h.bpp (cap_mod s) h.room h.aligned h.dbi hl
  have dbi := h.dbi
  have hdbi : (s.dbi + 1).toNat = s.dbi.toNat + 1 := toNat_add_ofNat s.dbi 1 (by have := h.bpp; omega)
  rw [← h.prod] at hroom hmod hdiv
  have dbi' : (s.dbi + 1).toNat < s.bpp := by omega
  have usedRaw (hd : s.dstate = .raw) : s.ipos.toNat ≤ s.prod.toNat / s.bpp * (1 + s.bpp) + 1 + (s.dbi + 1).toNat := by
    have := h.usedRaw hd
    rw [hdiv, hdbi]; omega
  exact DecInv.of_writing h.writing h.bpp hroom dbi' (hmod.trans hdbi.symm) h.left h.kind h.ovr
    (fun hd => hdiv ▸ h.usedRun hd) usedRaw

/-- With the last byte of a pixel and room left, a whole pixel more has been produced, from at most the bytes that a packet of that
one pixel takes (41 R113). -/
theorem ByteWritten.pixel_end (h : ByteWritten p s) (hl : s.dbi.toNat + 1 = s.bpp) (hc : s.prod.toNat ≠ s.cap) :
    s.prod.toNat < s.cap ∧ s.prod.toNat % s.bpp = 0 ∧ s.ipos.toNat ≤ s.prod.toNat / s.bpp * (1 + s.bpp) := by
  obtain ⟨hmod, hdiv⟩ := next_byte_next_pixel h.bpp h.aligned hl
  have := h.prod
  have := h.room
  rw [← h.prod] at hmod hdiv
  refine ⟨by omega, hmod, ?_⟩
  rcases h.writing with hd | hd
  · rw [hdiv]; exact h.usedRun hd
  · have := h.usedRaw hd
    rw [hdiv, Nat.succ_mul]; omega

/-- With the last byte of a pixel that is not the packet's last, the packet goes on. -/
theorem ByteWritten.decInv_mid (h : ByteWritten p s) (hl : s.dbi.toNat + 1 = s.bpp) (hc : s.prod.toNat ≠ s.cap)
    (hk : s.pktLeft - 1 ≠ 0) : DecInv { s with dbi := 0, pktLeft := s.pktLeft - 1 } := by
  obtain ⟨hroom, hmod, hused⟩ := h.pixel_end hl hc
  have hbpp := h.bpp
  have left := h.left
  have left' : 1 ≤ (s.pktLeft - 1).toNat ∧ (s.pktLeft - 1).toNat ≤ 128 := by bv_omega
  exact DecInv.of_writing h.writing h.bpp hroom (show 0 < s.bpp by omega) hmod left' h.kind h.ovr
    (fun _ => hused.trans (Nat.mul_le_mul_right _ (Nat.le_succ _)))
    (fun _ => hused.trans (Nat.le_add_right _ _))

/-- With the last byte of the packet and room left, the next packet is awaited. -/
theorem ByteWritten.decInv_ends (h : ByteWritten p s) (hl : s.dbi.toNat + 1 = s.bpp) (hc : s.prod.toNat ≠ s.cap) :
    DecInv { s with dbi := 0, pktLeft := s.pktLeft - 1, dstate := .hdr } := by
  obtain ⟨hroom, hmod, hused⟩ := h.pixel_end hl hc
  exact DecInv.of_hdr rfl h.bpp hroom rfl hmod h.ovr hused

/-! ## Every step of the decoder -/

/-- A decoder that goes on keeps the invariant if its own part is kept. -/
theorem MachineInv.mk_decoding (h : MachineInv s) (hm : s.mode = .dec)
    (frame : t = { s with
      dstate := t.dstate, pktRun := t.pktRun, pktLeft := t.pktLeft, pix := t.pix, dbi := t.dbi, ipos := t.ipos
      prod := t.prod, pb := t.pb, inq := t.inq })
    (hd : DecInv t) (hwf : Memory.wf t.pb = true) (haddr : ∀ c ∈ t.pb, c.1 < 2 ^ 34) (hq : eosLast t.inq = true) :
    FullInv t := by
  have busy : s.busy = true := (busy_iff s).2 (by simp [hm])
  have mode : t.mode = s.mode := by rw [frame]
  have inv := h.mk_busy busy mode (by rw [frame]) (by rw [frame]) (by rw [frame]) (by rw [frame]) (by rw [frame]) hwf haddr hq
    (by simp [hm]) (by simp [hm]) (fun _ => hd) (by simp [hm])
  exact inv.fullInv (by simp [mode, hm])

/-- What follows a byte written to PB keeps the invariant, and a decode that completes has produced CAP bytes (41 R103). -/
theorem MachineInv.byteWritten_keeps (h : MachineInv s) (hm : s.mode = .dec) {q : List InItem} {i : BitVec 35} {m : Memory}
    {r : BitVec 34} (hw : ByteWritten p { s with inq := q, ipos := i, pb := m, prod := r })
    (hq : eosLast q = true) (hwf : Memory.wf m = true) (haddr : ∀ c ∈ m, c.1 < 2 ^ 34) :
    FullInv (pixelByteDone { s with inq := q, ipos := i, pb := m, prod := r }) := by
  generalize ht : pixelByteDone { s with inq := q, ipos := i, pb := m, prod := r } = t
  cases pixelByteDone_result ht with
  | more hl => exact h.mk_decoding hm rfl (hw.decInv_more hl) hwf haddr hq
  | mid hl hc hk => exact h.mk_decoding hm rfl (hw.decInv_mid hl hc hk) hwf haddr hq
  | ends hl hc hk => exact h.mk_decoding hm rfl (hw.decInv_ends hl hc) hwf haddr hq
  | full hl hc =>
    have busy : s.busy = true := (busy_iff s).2 (by simp [hm])
    have hcmd : s.lastCmd = 3 := by rw [h.lastCmd busy, hm]; rfl
    exact ⟨h.mk_done busy rfl rfl rfl rfl rfl hwf haddr hq (by simp [hm]) (by simp [hm]),
      ⟨fun _ _ _ => hc, fun _ _ h4 => absurd (hcmd.symm.trans h4) (by decide)⟩⟩

/-- A byte written at PROD is byte PROD of PB. -/
theorem MachineInv.memWrite_prod (h : MachineInv s) (b : Byte) :
    Memory.wf (memWrite s.pb s.prod.toNat b) = true ∧ ∀ c ∈ memWrite s.pb s.prod.toNat b, c.1 < 2 ^ 34 :=
  ⟨memWrite_wf _ _ _ h.memory, memWrite_bound h.pbAddr s.prod.isLt⟩

/-- A packet dispatched leaves the decoder in its invariant (41 R97). -/
theorem DecInv.dispatch_keeps (h : DecInv s) (hd : s.dstate = .hdr) (isRun : Bool) (n : BitVec 7) (q : List InItem) :
    DecInv (dispatchPacket isRun n { s with inq := q, ipos := s.ipos + 1 }) := by
  obtain ⟨hmod, -⟩ := h.hdr hd
  have dbi : 0 < s.bpp := by have := h.bpp; omega
  have left := And.intro (packetCount_pos n) (packetCount_le n)
  have used : (s.ipos + 1).toNat ≤ s.prod.toNat / s.bpp * (1 + s.bpp) + 1 + 0 := by
    have := toNat_add_one_le s.ipos
    have := h.used.1 hd
    omega
  cases isRun with
  | true => exact DecInv.of_runPix rfl h.bpp h.room dbi hmod left rfl h.ovr used
  | false => exact DecInv.of_writing (.inr rfl) h.bpp h.room dbi hmod left (by simp) h.ovr (by simp) (fun _ => used)

/-- A byte of a run packet's pixel that is not its last leaves the decoder in its invariant (41 R99). -/
theorem DecInv.pixMore_keeps (h : DecInv s) (hd : s.dstate = .runPix) (hl : s.dbi.toNat + 1 ≠ s.bpp) (q : List InItem)
    (x : Vector Byte 4) : DecInv { s with inq := q, ipos := s.ipos + 1, pix := x, dbi := s.dbi + 1 } := by
  have bpp := h.bpp
  have dbi := h.dbi
  have hdbi : (s.dbi + 1).toNat = s.dbi.toNat + 1 := toNat_add_ofNat s.dbi 1 (by omega)
  have dbi' : (s.dbi + 1).toNat < s.bpp := by omega
  have used : (s.ipos + 1).toNat ≤ s.prod.toNat / s.bpp * (1 + s.bpp) + 1 + (s.dbi + 1).toNat := by
    have := toNat_add_one_le s.ipos
    have := h.used.2.1 hd
    omega
  exact DecInv.of_runPix hd bpp h.room dbi' (h.runPix hd) (h.left (by simp [hd])) (h.kind.1 (.inl hd)) h.ovr used

/-- The last byte of a run packet's pixel leaves the decoder in its invariant (41 R99). -/
theorem DecInv.pixLast_keeps (h : DecInv s) (hd : s.dstate = .runPix) (hl : s.dbi.toNat + 1 = s.bpp) (q : List InItem)
    (x : Vector Byte 4) : DecInv { s with inq := q, ipos := s.ipos + 1, pix := x, dbi := 0, dstate := .runOut } := by
  have dbi : 0 < s.bpp := by omega
  have used : (s.ipos + 1).toNat ≤ (s.prod.toNat / s.bpp + 1) * (1 + s.bpp) := by
    have := toNat_add_one_le s.ipos
    have := h.used.2.1 hd
    rw [Nat.succ_mul]; omega
  exact DecInv.of_writing (.inl rfl) h.bpp h.room dbi (h.runPix hd) (h.left (by simp [hd]))
    (by simp [h.kind.1 (.inl hd)]) h.ovr (fun _ => used) (by simp)

/-- A copy of a run packet's byte written to PB (41 R100). -/
theorem DecInv.out_written (h : DecInv s) (hd : s.dstate = .runOut) (m : Memory) :
    ByteWritten s.prod.toNat { s with pb := m, prod := s.prod + 1 } where
  bpp := h.bpp
  prod := toNat_add_ofNat s.prod 1 (by have := h.room; have := cap_lt h.bpp; omega)
  room := h.room
  dbi := h.dbi
  aligned := h.writing (.inl hd)
  writing := .inl hd
  left := h.left (by simp [hd])
  kind := ⟨fun _ => h.kind.1 (.inr hd), h.kind.2⟩
  ovr := h.ovr
  usedRun := h.used.2.2.1
  usedRaw := by simp [hd]

/-- A literal byte written to PB (41 R102). -/
theorem DecInv.literal_written (h : DecInv s) (hd : s.dstate = .raw) (q : List InItem) (m : Memory) :
    ByteWritten s.prod.toNat { s with inq := q, ipos := s.ipos + 1, pb := m, prod := s.prod + 1 } where
  bpp := h.bpp
  prod := toNat_add_ofNat s.prod 1 (by have := h.room; have := cap_lt h.bpp; omega)
  room := h.room
  dbi := h.dbi
  aligned := h.writing (.inr hd)
  writing := .inr hd
  left := h.left (by simp [hd])
  kind := ⟨by simp [hd], h.kind.2⟩
  ovr := h.ovr
  usedRun := by simp [hd]
  usedRaw := fun _ => by
    have := toNat_add_one_le s.ipos
    have := h.used.2.2.2 hd
    show (s.ipos + 1).toNat ≤ s.prod.toNat / s.bpp * (1 + s.bpp) + 2 + s.dbi.toNat
    omega

/-- Every step of the decoder keeps the invariant. -/
theorem MachineInv.decoderStep_leaves (h : MachineInv s) (hm : s.mode = .dec) : (decoderStep s).Leaves FullInv := by
  have hd := h.dec hm
  have hcase := decoderStep_cases s
  generalize decoderStep s = a at hcase
  cases hcase with
  | empty | outOutside | literalOutside => trivial
  | ended => exact h.raise_fullInv _ _
  | header hst hq =>
    exact h.mk_decoding hm rfl (hd.dispatch_keeps hst _ _ _) h.memory h.pbAddr (eosLast_tail (hq ▸ h.inEnd))
  | pixMore hst hq hl =>
    exact h.mk_decoding hm rfl (hd.pixMore_keeps hst hl _ _) h.memory h.pbAddr (eosLast_tail (hq ▸ h.inEnd))
  | pixLast hst hq hl =>
    exact h.mk_decoding hm rfl (hd.pixLast_keeps hst hl _ _) h.memory h.pbAddr (eosLast_tail (hq ▸ h.inEnd))
  | out hst =>
    obtain ⟨hwf, haddr⟩ := h.memWrite_prod (pixelByte s.pix s.dbi)
    exact h.byteWritten_keeps hm (hd.out_written hst _) h.inEnd hwf haddr
  | @literal b _ hst hq =>
    obtain ⟨hwf, haddr⟩ := h.memWrite_prod b
    exact h.byteWritten_keeps hm (hd.literal_written hst _ _) (eosLast_tail (hq ▸ h.inEnd)) hwf haddr

end Sys2Proof.Machine

/-! PROOF. Every step of the encoder keeps the invariant (42 R131). -/

namespace Sys2Proof.Machine

variable {s t : State} {k : Nat}

/-! ## A pixel of PB against CUR -/

/-- With no byte compared yet nothing is said. -/
theorem pixelStartsCur_of_ebi_zero (h : s.ebi = 0) : PixelStartsCur s k := by
  intro j hj
  simp [h] at hj

/-- A byte at EBI equal to CUR's is one byte more that agrees. -/
theorem PixelStartsCur.next_byte (h : PixelStartsCur s k)
    (hb : memRead s.pb (pixelAddr s.bpp k s.ebi.toNat) = some (pixelByte s.cur s.ebi)) (j : BitVec 2)
    (hj : j.toNat < s.ebi.toNat + 1) : memRead s.pb (pixelAddr s.bpp k j.toNat) = some (pixelByte s.cur j) := by
  by_cases e : j.toNat = s.ebi.toNat
  · rw [BitVec.eq_of_toNat_eq e]; exact hb
  · exact h j (by omega)

theorem PixelStartsCur.more (h : PixelStartsCur s k)
    (hb : memRead s.pb (pixelAddr s.bpp k s.ebi.toNat) = some (pixelByte s.cur s.ebi)) :
    PixelStartsCur { s with ebi := s.ebi + 1 } k :=
  fun j hj => h.next_byte hb j (Nat.lt_of_lt_of_le hj (toNat_add_one_le s.ebi))

theorem PixelStartsCur.last (h : PixelStartsCur s k)
    (hb : memRead s.pb (pixelAddr s.bpp k s.ebi.toNat) = some (pixelByte s.cur s.ebi)) (hl : s.ebi.toNat + 1 = s.bpp) :
    PixelIsCur s k :=
  fun j hj => h.next_byte hb j (hl ▸ hj)

/-- A byte loaded into CUR at EBI agrees with itself, and leaves the bytes before it (42 R122). -/
theorem PixelStartsCur.load (h : PixelStartsCur s k) (b : Byte) :
    PixelStartsCur { s with cur := setPixelByte s.cur s.ebi b } k := by
  intro j hj
  have hne : j ≠ s.ebi := by rintro rfl; exact absurd hj (Nat.lt_irrefl _)
  simpa [pixelByte_setPixelByte, hne, State.bpp] using h j hj

/-! ## The invariant, sub-state by sub-state -/

/-- The run counted so far, which can go on: the `scan` clause of `EncInv`. -/
def RunGoing (s : State) : Prop :=
  1 ≤ s.run.toNat ∧ s.run.toNat ≤ 127 ∧ s.pidx.toNat + s.run.toNat < s.npix ∧
  (∀ k, k < s.run.toNat → PixelIsCur s (s.pidx.toNat + k)) ∧
  PixelStartsCur s (s.pidx.toNat + s.run.toNat)

/-- The run counted to its end: the `emit` clause of `EncInv`. -/
def RunCounted (s : State) : Prop :=
  1 ≤ s.run.toNat ∧ s.run.toNat ≤ 128 ∧ s.pidx.toNat + s.run.toNat ≤ s.npix ∧
  (∀ k, k < s.run.toNat → PixelIsCur s (s.pidx.toNat + k)) ∧
  (s.run.toNat = 128 ∨ s.pidx.toNat + s.run.toNat = s.npix ∨ PixelDiffers s (s.pidx.toNat + s.run.toNat))

theorem EncInv.of_load (he : s.estate = .load) (bpp : s.bpp = 3 ∨ s.bpp = 4) (pidx : s.pidx.toNat < s.npix)
    (ebi : s.ebi.toNat < s.bpp) (load : PixelStartsCur s s.pidx.toNat)
    (made : s.opos.toNat ≤ s.pidx.toNat * (1 + s.bpp)) : EncInv s where
  bpp := bpp
  pidx := pidx
  ebi := ebi
  load := fun _ => load
  scan := by simp [he]
  emit := by simp [he]
  first := by simp [he]
  made := by simp [he, made]

theorem EncInv.of_scan (he : s.estate = .scan) (bpp : s.bpp = 3 ∨ s.bpp = 4) (pidx : s.pidx.toNat < s.npix)
    (ebi : s.ebi.toNat < s.bpp) (run : RunGoing s) (made : s.opos.toNat ≤ s.pidx.toNat * (1 + s.bpp)) : EncInv s where
  bpp := bpp
  pidx := pidx
  ebi := ebi
  load := by simp [he]
  scan := fun _ => run
  emit := by simp [he]
  first := by simp [he]
  made := by simp [he, made]

theorem EncInv.of_emitHdr (he : s.estate = .emitHdr) (bpp : s.bpp = 3 ∨ s.bpp = 4) (pidx : s.pidx.toNat < s.npix)
    (ebi : s.ebi = 0) (run : RunCounted s) (made : s.opos.toNat ≤ s.pidx.toNat * (1 + s.bpp)) : EncInv s where
  bpp := bpp
  pidx := pidx
  ebi := by rw [ebi]; simp; omega
  load := by simp [he]
  scan := by simp [he]
  emit := fun _ => run
  first := fun _ => ebi
  made := by simp [he, made]

theorem EncInv.of_emitPix (he : s.estate = .emitPix) (bpp : s.bpp = 3 ∨ s.bpp = 4) (pidx : s.pidx.toNat < s.npix)
    (ebi : s.ebi.toNat < s.bpp) (run : RunCounted s)
    (made : s.opos.toNat ≤ s.pidx.toNat * (1 + s.bpp) + 1 + s.ebi.toNat) : EncInv s where
  bpp := bpp
  pidx := pidx
  ebi := ebi
  load := by simp [he]
  scan := by simp [he]
  emit := fun _ => run
  first := by simp [he]
  made := by simp [he, made]

/-! ## The steps -/

/-- A byte of CUR loaded that is not its last (42 R122). -/
theorem EncInv.loadMore_keeps (h : EncInv s) (he : s.estate = .load) {b : Byte}
    (hb : memRead s.pb (pixelAddr s.bpp s.pidx.toNat s.ebi.toNat) = some b) (hl : s.ebi.toNat + 1 ≠ s.bpp) :
    EncInv { s with cur := setPixelByte s.cur s.ebi b, ebi := s.ebi + 1 } := by
  have ebi := h.ebi
  have := toNat_add_one_le s.ebi
  have ebi' : (s.ebi + 1).toNat < s.bpp := by omega
  have loaded := (h.load he).load b
  exact EncInv.of_load he h.bpp h.pidx ebi' (loaded.more (by simpa [pixelByte_setPixelByte, State.bpp] using hb)) (h.made.1 (by simp [he]))

/-- The last byte of CUR loaded: a run of one pixel, which goes on where there is another pixel (42 R122). -/
theorem EncInv.loadLast_keeps (h : EncInv s) (he : s.estate = .load) {b : Byte}
    (hb : memRead s.pb (pixelAddr s.bpp s.pidx.toNat s.ebi.toNat) = some b) (hl : s.ebi.toNat + 1 = s.bpp) :
    EncInv { s with
      cur := setPixelByte s.cur s.ebi b, ebi := 0, run := 1
      estate := if s.pidx.toNat + 1 < s.npix then .scan else .emitHdr } := by
  have pidx := h.pidx
  have made := h.made.1 (by simp [he])
  have loaded := ((h.load he).load b).last (by simpa [pixelByte_setPixelByte, State.bpp] using hb) hl
  have pixels (k : Nat) (hk : k < 1) : PixelIsCur { s with cur := setPixelByte s.cur s.ebi b } (s.pidx.toNat + k) := by
    obtain rfl : k = 0 := by omega
    exact loaded
  by_cases hn : s.pidx.toNat + 1 < s.npix
  · rw [if_pos hn]
    exact EncInv.of_scan rfl h.bpp pidx (show 0 < s.bpp by omega)
      ⟨le_refl 1, show 1 ≤ 127 by omega, hn, pixels, pixelStartsCur_of_ebi_zero rfl⟩ made
  · rw [if_neg hn]
    have last : s.pidx.toNat + 1 = s.npix := by omega
    exact EncInv.of_emitHdr rfl h.bpp pidx rfl ⟨le_refl 1, show 1 ≤ 128 by omega, last.le, pixels, .inr (.inl last)⟩ made

/-- A byte that differs ends the run (42 R123). -/
theorem EncInv.scanDiffers_keeps (h : EncInv s) (he : s.estate = .scan) {b : Byte}
    (hb : memRead s.pb (pixelAddr s.bpp (s.pidx.toNat + s.run.toNat) s.ebi.toNat) = some b) (hne : b ≠ pixelByte s.cur s.ebi) :
    EncInv { s with ebi := 0, estate := .emitHdr } := by
  obtain ⟨pos, le, fits, pixels, -⟩ := h.scan he
  have differs : PixelDiffers s (s.pidx.toNat + s.run.toNat) := ⟨s.ebi, h.ebi, b, hb, hne⟩
  exact EncInv.of_emitHdr rfl h.bpp h.pidx rfl ⟨pos, by show s.run.toNat ≤ 128; omega, fits.le, pixels, .inr (.inr differs)⟩
    (h.made.1 (by simp [he]))

/-- A byte that agrees and is not the pixel's last (42 R123). -/
theorem EncInv.scanMore_keeps (h : EncInv s) (he : s.estate = .scan)
    (hb : memRead s.pb (pixelAddr s.bpp (s.pidx.toNat + s.run.toNat) s.ebi.toNat) = some (pixelByte s.cur s.ebi))
    (hl : s.ebi.toNat + 1 ≠ s.bpp) : EncInv { s with ebi := s.ebi + 1 } := by
  obtain ⟨pos, le, fits, pixels, starts⟩ := h.scan he
  have ebi := h.ebi
  have := toNat_add_one_le s.ebi
  have ebi' : (s.ebi + 1).toNat < s.bpp := by omega
  exact EncInv.of_scan he h.bpp h.pidx ebi' ⟨pos, le, fits, pixels, starts.more hb⟩ (h.made.1 (by simp [he]))

/-- The last byte of a pixel that agrees: a run longer by one, which ends at 128 pixels or at the last pixel of all (42 R123). -/
theorem EncInv.scanLast_keeps (h : EncInv s) (he : s.estate = .scan)
    (hb : memRead s.pb (pixelAddr s.bpp (s.pidx.toNat + s.run.toNat) s.ebi.toNat) = some (pixelByte s.cur s.ebi))
    (hl : s.ebi.toNat + 1 = s.bpp) :
    EncInv { s with
      ebi := 0, run := s.run + 1
      estate := if (s.run + 1).toNat = 128 ∨ s.pidx.toNat + (s.run + 1).toNat = s.npix then .emitHdr else .scan } := by
  obtain ⟨pos, le, fits, pixels, starts⟩ := h.scan he
  have made := h.made.1 (by simp [he])
  have run : (s.run + 1).toNat = s.run.toNat + 1 := toNat_add_ofNat s.run 1 (by omega)
  have pixels' (k : Nat) (hk : k < (s.run + 1).toNat) : PixelIsCur s (s.pidx.toNat + k) := by
    by_cases e : k = s.run.toNat
    · rw [e]; exact starts.last hb hl
    · exact pixels k (by omega)
  by_cases ends : (s.run + 1).toNat = 128 ∨ s.pidx.toNat + (s.run + 1).toNat = s.npix
  · rw [if_pos ends]
    refine EncInv.of_emitHdr rfl h.bpp h.pidx rfl ⟨?_, ?_, ?_, pixels', ends.imp_right .inl⟩ made
    · show 1 ≤ (s.run + 1).toNat; omega
    · show (s.run + 1).toNat ≤ 128; omega
    · show s.pidx.toNat + (s.run + 1).toNat ≤ s.npix; omega
  · rw [if_neg ends]
    refine EncInv.of_scan rfl h.bpp h.pidx (show 0 < s.bpp by omega) ⟨?_, ?_, ?_, pixels', pixelStartsCur_of_ebi_zero rfl⟩ made
    · show 1 ≤ (s.run + 1).toNat; omega
    · show (s.run + 1).toNat ≤ 127; omega
    · show s.pidx.toNat + (s.run + 1).toNat < s.npix; omega

/-- The packet's header byte pushed (42 R126). -/
theorem EncInv.header_keeps (h : EncInv s) (he : s.estate = .emitHdr) (q : List Byte) :
    EncInv { s with outq := q, opos := s.opos + 1, ebi := 0, estate := .emitPix } := by
  have bpp : 0 < s.bpp := by have := h.bpp; omega
  have made : (s.opos + 1).toNat ≤ s.pidx.toNat * (1 + s.bpp) + 1 + 0 := by
    have := toNat_add_one_le s.opos
    have := h.made.1 (by simp [he])
    omega
  exact EncInv.of_emitPix rfl h.bpp h.pidx bpp (h.emit (.inl he)) made

/-- A byte of the packet's pixel pushed that is not its last (42 R127). -/
theorem EncInv.pixMore_keeps (h : EncInv s) (he : s.estate = .emitPix) (hl : s.ebi.toNat + 1 ≠ s.bpp) (q : List Byte) :
    EncInv { s with outq := q, opos := s.opos + 1, ebi := s.ebi + 1 } := by
  have bpp := h.bpp
  have ebi := h.ebi
  have hebi : (s.ebi + 1).toNat = s.ebi.toNat + 1 := toNat_add_ofNat s.ebi 1 (by omega)
  have ebi' : (s.ebi + 1).toNat < s.bpp := by omega
  have made : (s.opos + 1).toNat ≤ s.pidx.toNat * (1 + s.bpp) + 1 + (s.ebi + 1).toNat := by
    have := toNat_add_one_le s.opos
    have := h.made.2 he
    omega
  exact EncInv.of_emitPix he bpp h.pidx ebi' (h.emit (.inr he)) made

/-- The pixels of a counted run lie in the image, so PIDX does not wrap. -/
theorem RunCounted.pidx_toNat (h : RunCounted s) : (s.pidx + s.run.zeroExtend 32).toNat = s.pidx.toNat + s.run.toNat := by
  obtain ⟨-, -, fits, -, -⟩ := h
  have := npix_lt s
  have run : (s.run.zeroExtend 32).toNat = s.run.toNat := by simp; omega
  rw [BitVec.toNat_add, run, Nat.mod_eq_of_lt (by omega)]

/-- The last byte of the packet's pixel pushed, with pixels left to encode (42 R127). -/
theorem EncInv.pixLast_keeps (h : EncInv s) (he : s.estate = .emitPix) (hl : s.ebi.toNat + 1 = s.bpp)
    (hn : (s.pidx + s.run.zeroExtend 32).toNat ≠ s.npix) (q : List Byte) :
    EncInv { s with
      outq := q, opos := s.opos + 1, ebi := 0, pidx := s.pidx + s.run.zeroExtend 32, estate := .load } := by
  have run : RunCounted s := h.emit (.inr he)
  have hpidx := run.pidx_toNat
  obtain ⟨pos, -, fits, -, -⟩ := run
  have bpp : 0 < s.bpp := by omega
  have pidx : (s.pidx + s.run.zeroExtend 32).toNat < s.npix := by omega
  have made : (s.opos + 1).toNat ≤ (s.pidx + s.run.zeroExtend 32).toNat * (1 + s.bpp) := by
    calc (s.opos + 1).toNat ≤ s.opos.toNat + 1 := toNat_add_one_le s.opos
      _ ≤ (s.pidx.toNat + 1) * (1 + s.bpp) := by have := h.made.2 he; rw [Nat.succ_mul]; omega
      _ ≤ (s.pidx + s.run.zeroExtend 32).toNat * (1 + s.bpp) := Nat.mul_le_mul_right _ (by omega)
  exact EncInv.of_load rfl h.bpp pidx bpp (pixelStartsCur_of_ebi_zero rfl) made

/-! ## Every step of the encoder -/

/-- An encoder that goes on keeps the invariant if its own part is kept. -/
theorem MachineInv.mk_encoding (h : MachineInv s) (hm : s.mode = .enc)
    (frame : t = { s with
      estate := t.estate, cur := t.cur, run := t.run, ebi := t.ebi, opos := t.opos, pidx := t.pidx, outq := t.outq })
    (he : EncInv t) : FullInv t := by
  have busy : s.busy = true := (busy_iff s).2 (by simp [hm])
  have mode : t.mode = s.mode := by rw [frame]
  have inv := h.mk_busy busy mode (by rw [frame]) (by rw [frame]) (by rw [frame]) (by rw [frame]) (by rw [frame])
    (by rw [frame]; exact h.memory) (by rw [frame]; exact h.pbAddr) (by rw [frame]; exact h.inEnd)
    (by simp [hm]) (by simp [hm]) (by simp [hm]) (fun _ => he)
  exact inv.fullInv (by simp [mode, hm])

/-- Every step of the encoder keeps the invariant, and an encode that completes has covered NPIX pixels. -/
theorem MachineInv.encoderStep_leaves (h : MachineInv s) (hm : s.mode = .enc) : (encoderStep s).Leaves FullInv := by
  have he := h.enc hm
  have hcase := encoderStep_cases s
  generalize encoderStep s = a at hcase
  cases hcase with
  | loadUnwritten | loadOutside | scanUnwritten | scanOutside | notReady => trivial
  | loadMore hst _ hb hl => exact h.mk_encoding hm rfl (he.loadMore_keeps hst hb hl)
  | loadLast hst _ hb hl => exact h.mk_encoding hm rfl (he.loadLast_keeps hst hb hl)
  | scanDiffers hst _ hb hne => exact h.mk_encoding hm rfl (he.scanDiffers_keeps hst hb hne)
  | scanMore hst _ hb hl => exact h.mk_encoding hm rfl (he.scanMore_keeps hst hb hl)
  | scanLast hst _ hb hl => exact h.mk_encoding hm rfl (he.scanLast_keeps hst hb hl)
  | header hst => exact h.mk_encoding hm rfl (he.header_keeps hst _)
  | pixMore hst _ hl => exact h.mk_encoding hm rfl (he.pixMore_keeps hst hl _)
  | pixLast hst _ hl hn => exact h.mk_encoding hm rfl (he.pixLast_keeps hst hl hn _)
  | pixDone _ _ _ hn =>
    have busy : s.busy = true := (busy_iff s).2 (by simp [hm])
    have hcmd : s.lastCmd = 4 := by rw [h.lastCmd busy, hm]; rfl
    exact ⟨h.mk_done busy rfl rfl rfl rfl rfl h.memory h.pbAddr h.inEnd (by simp [hm]) (by simp [hm]),
      ⟨fun _ _ h3 => absurd (hcmd.symm.trans h3) (by decide), fun _ _ _ => hn⟩⟩

end Sys2Proof.Machine

/-! PROOF. Every step of the machine keeps the invariant (10 R29): the header unit, the block's atomic steps and instructions, the
commands, the register writes and the host's other turns. -/

namespace Sys2Proof.Machine

variable {s t : State}

/-! ## The header unit (40 R81, R84) -/

/-- The counts are about a completed decode or encode only. -/
theorem CompletionCounts.of_lastCmd (h3 : s.lastCmd ≠ 3) (h4 : s.lastCmd ≠ 4) : CompletionCounts s :=
  ⟨fun _ _ h => absurd h h3, fun _ _ h => absurd h h4⟩

/-- Every step of the parser keeps the invariant: IPOS counts what HCNT counts, up to 18. -/
theorem MachineInv.parseStep_leaves (h : MachineInv s) (hm : s.mode = .hparse) : (parseStep s).Leaves FullInv := by
  have busy : s.busy = true := (busy_iff s).2 (by simp [hm])
  obtain ⟨-, ipos⟩ := h.parse hm
  have hcase := parseStep_cases s
  generalize parseStep s = a at hcase
  cases hcase with
  | empty | outside => trivial
  | ended => exact h.raise_fullInv _ _
  | more hq hlt =>
    have hcnt : (s.hcnt + 1).toNat = s.hcnt.toNat + 1 := toNat_add_ofNat s.hcnt 1 (by omega)
    have ipos' : (s.ipos + 1).toNat = s.ipos.toNat + 1 := toNat_add_ofNat s.ipos 1 (by omega)
    have parse : (s.hcnt + 1).toNat < 18 ∧ (s.ipos + 1).toNat = (s.hcnt + 1).toNat := by omega
    exact MachineInv.fullInv (h.mk_busy busy rfl rfl rfl rfl rfl rfl h.memory h.pbAddr (eosLast_tail (hq ▸ h.inEnd))
      (fun _ => parse) (by simp [hm]) (by simp [hm]) (by simp [hm])) (by simp [hm])
  | last hq h17 =>
    have hcmd : s.lastCmd = 1 := by rw [h.lastCmd busy, hm]; rfl
    have ipos' : s.ipos + 1 = 18 := by rw [h17] at ipos; bv_omega
    exact ⟨h.mk_done busy rfl rfl rfl rfl rfl h.memory h.pbAddr (eosLast_tail (hq ▸ h.inEnd)) (fun _ => ipos') (by simp [hm]),
      .of_lastCmd (by simp [hcmd]) (by simp [hcmd])⟩

/-- Every step of the serializer keeps the invariant: OPOS counts what HCNT counts, up to 18. -/
theorem MachineInv.serializeStep_leaves (h : MachineInv s) (hm : s.mode = .hser) : (serializeStep s).Leaves FullInv := by
  have busy : s.busy = true := (busy_iff s).2 (by simp [hm])
  obtain ⟨-, opos, packed⟩ := h.serialize hm
  have hcase := serializeStep_cases s
  generalize serializeStep s = a at hcase
  cases hcase with
  | notReady | outside => trivial
  | more hlt =>
    have hcnt : (s.hcnt + 1).toNat = s.hcnt.toNat + 1 := toNat_add_ofNat s.hcnt 1 (by omega)
    have opos' : (s.opos + 1).toNat = s.opos.toNat + 1 := toNat_add_ofNat s.opos 1 (by omega)
    obtain ⟨lt, sent⟩ : (s.hcnt + 1).toNat < 18 ∧ (s.opos + 1).toNat = (s.hcnt + 1).toNat := by omega
    exact MachineInv.fullInv (h.mk_busy busy rfl rfl rfl rfl rfl rfl h.memory h.pbAddr h.inEnd (by simp [hm])
      (fun _ => ⟨lt, sent, packed⟩) (by simp [hm]) (by simp [hm])) (by simp [hm])
  | last h17 =>
    have hcmd : s.lastCmd = 2 := by rw [h.lastCmd busy, hm]; rfl
    have opos' : s.opos + 1 = 18 := by rw [h17] at opos; bv_omega
    exact ⟨h.mk_done busy rfl rfl rfl rfl rfl h.memory h.pbAddr h.inEnd (by simp [hm]) (fun _ => opos'),
      .of_lastCmd (by simp [hcmd]) (by simp [hcmd])⟩

/-! ## The block -/

/-- Every atomic step of the block keeps the invariant and, where a decode or an encode completes, reaches its counts. -/
theorem MachineInv.blockStep_leaves (h : MachineInv s) : (blockStep s).Leaves FullInv := by
  unfold blockStep
  cases hm : s.mode with
  | idle | fault => trivial
  | hparse => exact h.parseStep_leaves hm
  | hser => exact h.serializeStep_leaves hm
  | dec => exact h.decoderStep_leaves hm
  | enc => exact h.encoderStep_leaves hm

/-- A move from `s` to `t` keeps the invariant and the counts of a completed command. -/
def KeepsInvariant (s t : State) : Prop := MachineInv t ∧ (CompletionCounts s → CompletionCounts t)

theorem MachineInv.keeps_self (h : MachineInv s) : KeepsInvariant s s := ⟨h, id⟩

theorem FullInv.keepsInvariant (h : FullInv t) : KeepsInvariant s t := ⟨h.1, fun _ => h.2⟩

theorem MachineInv.tick_keeps (h : MachineInv s) (ht : tick s = .next t) : KeepsInvariant s t := by
  rcases tick_next ht with hs | ⟨-, rfl⟩ | hs | ⟨-, rfl⟩
  · exact (h.blockStep_leaves.of_answer (.inl hs)).keepsInvariant
  · exact h.keeps_self
  · exact (h.blockStep_leaves.of_answer (.inr hs)).keepsInvariant
  · exact h.keeps_self

/-- A number of atomic steps of the running unit. -/
theorem FullInv.runUnit_keeps {st : State → Attempt} {going : State → Bool} (hst : ∀ s, going s = true → blockStep s = st s)
    {k : Nat} (h : FullInv s) (ht : runUnit st going k s = .next t) : FullInv t :=
  Machine.runUnit_keeps (fun u _ hu hg hv => (hst u hg ▸ hu.1.blockStep_leaves).of_answer hv) k s t h ht

theorem blockStep_of_packetGoing (s : State) (h : packetGoing s = true) : blockStep s = decoderStep s := by
  have hm : s.mode = .dec := by simp [packetGoing] at h; exact h.1
  simp [blockStep, hm]

theorem blockStep_of_emitGoing (s : State) (h : emitGoing s = true) : blockStep s = encoderStep s := by
  have hm : s.mode = .enc := by simp [emitGoing] at h; exact h.1
  simp [blockStep, hm]

theorem blockStep_of_hparse (s : State) (h : (s.mode == .hparse) = true) : blockStep s = parseStep s := by
  have hm : s.mode = .hparse := by simpa using h
  simp [blockStep, hm]

theorem blockStep_of_hser (s : State) (h : (s.mode == .hser) = true) : blockStep s = serializeStep s := by
  have hm : s.mode = .hser := by simpa using h
  simp [blockStep, hm]

/-! ## The instruction at hand -/

/-- Where the block is at an instruction, which, and on what state (40 R80, R83; 41 R97; 42 R126). -/
inductive FetchCase (s : State) : Instr → State → Prop where
  | parse (hm : s.mode = .hparse) : FetchCase s .hdrParse s
  | serialize (hm : s.mode = .hser) : FetchCase s .hdrSerialize s
  | packet {p : Byte} {q : List InItem} (hm : s.mode = .dec) (hd : s.dstate = .hdr) (hq : s.inq = .byte p :: q) :
      FetchCase s (decodePacketIn p) { s with inq := q, ipos := s.ipos + 1 }
  | emit {i : Instr} (hm : s.mode = .enc) (he : s.estate = .emitHdr) (hi : decode (.packetOut (emitHeader s.run)) = .ok i) :
      FetchCase s i s

theorem fetchUnit_cases {i : Instr} (h : fetchUnit s = some (i, t)) : FetchCase s i t := by
  unfold fetchUnit at h
  split at h
  next hm => cases h; exact .parse hm
  next hm => cases h; exact .serialize hm
  next hm =>
    split at h
    next p q hd hq => cases h; exact .packet hm hd hq
    next => cases h
  next hm =>
    split at h
    next he =>
      split at h
      next i' hi => cases h; exact .emit hm he hi
      next => cases h
    next => cases h
  next => cases h
  next => cases h

/-- The length of a counted run is the operand of the packet form its header byte selects (42 R126; 30 R69). -/
theorem decode_emitHeader {r : BitVec 8} (h1 : 1 ≤ r.toNat) (h128 : r.toNat ≤ 128) {i : Instr}
    (hi : decode (.packetOut (emitHeader r)) = .ok i) :
    (i = .encEmitRaw1 ∧ r = 1) ∨ ∃ n, i = .encEmitRun n ∧ packetCount n = r := by
  by_cases h : r = 1
  · subst h
    rw [emitHeader_one] at hi
    exact .inl ⟨(Except.ok.inj hi).symm, rfl⟩
  · obtain ⟨n, hn, rfl⟩ : ∃ n : BitVec 7, 1 ≤ n.toNat ∧ packetCount n = r := by
      have hne : r.toNat ≠ 1 := fun c => h (BitVec.eq_of_toNat_eq c)
      have hsub : (BitVec.ofNat 7 (r.toNat - 1)).toNat = r.toNat - 1 := by rw [BitVec.toNat_ofNat]; omega
      exact ⟨BitVec.ofNat 7 (r.toNat - 1), by omega, BitVec.eq_of_toNat_eq (by rw [packetCount_toNat]; omega)⟩
    have hz : n ≠ 0#7 := by rintro rfl; simp at hn
    rw [emitHeader_run n hn] at hi
    simp [decode, decodePacketOut, hz] at hi
    exact .inr ⟨n, hi.symm, rfl⟩

/-- A packet read by the decoder, header byte and dispatch included, is steps of the decoder. -/
theorem exec_decodePacketIn {p : Byte} (hm : s.mode = .dec) (hd : s.dstate = .hdr) :
    ∃ k, exec (decodePacketIn p) s = runUnit decoderStep packetGoing k (dispatchPacket (packetIsRun p) (packetCountField p) s) := by
  have waits : awaitsPacket s = true := by simp [awaitsPacket, hm, hd]
  unfold decodePacketIn
  cases hr : packetIsRun p with
  | true => exact ⟨Config.runPacketSteps, by simp [exec, execDecRun, waits]⟩
  | false => exact ⟨Config.rawPacketSteps, by simp [exec, execDecRaw, waits]⟩

/-- The packet form that the counted run selects is steps of the encoder, from the state as it is (log entry 13). -/
theorem exec_emit {i : Instr} (hm : s.mode = .enc) (he : s.estate = .emitHdr) (h1 : 1 ≤ s.run.toNat) (h128 : s.run.toNat ≤ 128)
    (hi : decode (.packetOut (emitHeader s.run)) = .ok i) : exec i s = runUnit encoderStep emitGoing Config.emitSteps s := by
  have waits : awaitsEmit s = true := by simp [awaitsEmit, hm, he]
  rcases decode_emitHeader h1 h128 hi with ⟨rfl, hr⟩ | ⟨n, rfl, hr⟩
  · simp only [exec, execEncEmitRaw1, waits, if_true, ← hr]
  · simp only [exec, execEncEmitRun, waits, if_true, hr]

/-- The block undisturbed keeps the invariant: an instruction is a number of atomic steps of its unit. -/
theorem MachineInv.runBlock_keeps (h : MachineInv s) (ht : runBlock s = .next t) : KeepsInvariant s t := by
  unfold runBlock at ht
  split at ht
  next i s' hf =>
    refine FullInv.keepsInvariant ?_
    cases fetchUnit_cases hf with
    | parse hm => exact (h.fullInv (by simp [hm])).runUnit_keeps blockStep_of_hparse ht
    | serialize hm => exact (h.fullInv (by simp [hm])).runUnit_keeps blockStep_of_hser ht
    | @packet p q hm hd hq =>
      obtain ⟨k, hk⟩ := exec_decodePacketIn (s := { s with inq := q, ipos := s.ipos + 1 }) (p := p) hm hd
      have dispatched := (h.decoderStep_leaves hm).of_answer (.inl (decoderStep_hdr hd hq))
      exact dispatched.runUnit_keeps blockStep_of_packetGoing (hk ▸ ht)
    | emit hm he hi =>
      obtain ⟨h1, h128, -⟩ := (h.enc hm).emit (.inl he)
      exact (h.fullInv (by simp [hm])).runUnit_keeps blockStep_of_emitGoing (exec_emit hm he h1 h128 hi ▸ ht)
  next => exact h.tick_keeps ht

/-! ## The commands (43 R143 to R150) -/

/-- Everything a non-zero value written to CMD can do. -/
theorem cmdSlot_cases (v : Word) (act : State → State) (s : State) :
    (s.mode = .fault ∧ cmdSlot v act s = s) ∨ (s.busy = true ∧ cmdSlot v act s = raise .cmdWhileBusy v s) ∨
    (s.mode = .idle ∧ cmdSlot v act s = act s) := by
  cases hm : s.mode <;> simp [cmdSlot, hm, State.busy, Mode.busy]

/-- A value written to CMD keeps the invariant if what an idle block does with it does. -/
theorem MachineInv.cmdSlot_keeps (h : MachineInv s) (v : Word) {act : State → State}
    (hact : s.mode = .idle → KeepsInvariant s (act s)) : KeepsInvariant s (cmdSlot v act s) := by
  rcases cmdSlot_cases v act s with ⟨-, e⟩ | ⟨-, e⟩ | ⟨hm, e⟩
  · rw [e]; exact h.keeps_self
  · rw [e]; exact (h.raise_fullInv _ _).keepsInvariant
  · rw [e]; exact hact hm

/-- A decode or an encode starts only with a legal GEOM_BPP (43 R143). -/
theorem MachineInv.needLegalBpp_keeps (h : MachineInv s) {start : State → State}
    (hstart : s.bpp = 3 ∨ s.bpp = 4 → KeepsInvariant s (start s)) : KeepsInvariant s (needLegalBpp start s) := by
  unfold needLegalBpp
  split
  next hb => exact hstart (by simpa [Config.legalBpp] using hb)
  next => exact (h.raise_fullInv _ _).keepsInvariant

theorem MachineInv.startParse_keeps (h : MachineInv s) (hm : s.mode = .idle) : KeepsInvariant s (startParse s) :=
  ⟨h.accept hm 1 (by decide) _ rfl rfl rfl rfl rfl rfl (.inr ⟨rfl, rfl, by simp [startParse]⟩)
    (fun _ => ⟨by show 0 < 18; omega, rfl⟩) (by simp [startParse]) (by simp [startParse]) (by simp [startParse]),
    fun _ => .of_not_done (by simp [startParse])⟩

theorem MachineInv.startSerialize_keeps (h : MachineInv s) (hm : s.mode = .idle) : KeepsInvariant s (startSerialize s) :=
  ⟨h.accept hm 2 (by decide) _ rfl rfl rfl rfl rfl rfl (.inr ⟨rfl, rfl, by simp [startSerialize]⟩)
    (by simp [startSerialize]) (fun _ => ⟨by show 0 < 18; omega, rfl, rfl⟩) (by simp [startSerialize]) (by simp [startSerialize]),
    fun _ => .of_not_done (by simp [startSerialize])⟩

/-- A decode of no bytes is complete at once, with PROD = CAP = 0; another starts at byte 0 (41 R96, R108). -/
theorem MachineInv.startDecode_keeps (h : MachineInv s) (hm : s.mode = .idle) (hb : s.bpp = 3 ∨ s.bpp = 4) :
    KeepsInvariant s (startDecode s) := by
  unfold startDecode
  split
  next hc =>
    exact ⟨h.accept hm 3 (by decide) _ rfl rfl rfl rfl rfl rfl (.inl ⟨rfl, rfl, by decide, by decide⟩)
      (by simp) (by simp) (by simp) (by simp), fun _ => ⟨fun _ _ _ => hc.symm, by simp⟩⟩
  next hc =>
    have room : 0 < s.cap := by omega
    have dec : DecInv { acceptCommand 3 s with mode := .dec, dstate := .hdr, dbi := 0 } :=
      .of_hdr rfl hb room rfl (Nat.zero_mod _) rfl (Nat.zero_le _)
    exact ⟨h.accept hm 3 (by decide) _ rfl rfl rfl rfl rfl rfl (.inr ⟨rfl, rfl, by simp⟩)
      (by simp) (by simp) (fun _ => dec) (by simp), fun _ => .of_not_done (by simp)⟩

/-- An encode of no pixels is complete at once, with PIDX = NPIX = 0; another starts at pixel 0 (42 R121, R137). -/
theorem MachineInv.startEncode_keeps (h : MachineInv s) (hm : s.mode = .idle) (hb : s.bpp = 3 ∨ s.bpp = 4) :
    KeepsInvariant s (startEncode s) := by
  unfold startEncode
  split
  next hn =>
    exact ⟨h.accept hm 4 (by decide) _ rfl rfl rfl rfl rfl rfl (.inl ⟨rfl, rfl, by decide, by decide⟩)
      (by simp) (by simp) (by simp) (by simp), fun _ => ⟨by simp, fun _ _ _ => hn.symm⟩⟩
  next hn =>
    have pidx : 0 < s.npix := by omega
    have bpp : 0 < s.bpp := by omega
    have enc : EncInv { acceptCommand 4 s with mode := .enc, estate := .load, ebi := 0 } :=
      .of_load rfl hb pidx bpp (pixelStartsCur_of_ebi_zero rfl) (Nat.zero_le _)
    exact ⟨h.accept hm 4 (by decide) _ rfl rfl rfl rfl rfl rfl (.inr ⟨rfl, rfl, by simp⟩)
      (by simp) (by simp) (by simp) (fun _ => enc), fun _ => .of_not_done (by simp)⟩

/-- Every value written to CMD keeps the invariant. -/
theorem MachineInv.cmdWrite_keeps (h : MachineInv s) {v : Word} (ht : cmdWrite v s = .next t) : KeepsInvariant s t := by
  unfold cmdWrite at ht
  split at ht
  next i hi =>
    have hword := Laws.Unique.decode_ok _ _ hi
    cases i with
    | decRun | decRaw | encEmitRun | encEmitRaw1 | hdrParse | hdrSerialize => cases hword
    | cmdNop => cases ht; exact h.keeps_self
    | cmdHdrParse => cases ht; exact h.cmdSlot_keeps 1 h.startParse_keeps
    | cmdHdrSerialize => cases ht; exact h.cmdSlot_keeps 2 h.startSerialize_keeps
    | cmdDecode => cases ht; exact h.cmdSlot_keeps 3 fun hm => h.needLegalBpp_keeps (h.startDecode_keeps hm)
    | cmdEncode => cases ht; exact h.cmdSlot_keeps 4 fun hm => h.needLegalBpp_keeps (h.startEncode_keeps hm)
  next =>
    cases ht
    exact h.cmdSlot_keeps v fun _ => (h.raise_fullInv _ _).keepsInvariant

/-! ## Register writes (43 R141, R142) -/

/-- A header register stored leaves the geometry. -/
theorem regStore_header_geometry {n : Nat} {r : Reg} (hr : regOfNumber n = some r) (hn : 0x10 ≤ n ∧ n ≤ 0x1B) (v : Word)
    (s : State) :
    (regStore r v s).geomW = s.geomW ∧ (regStore r v s).geomH = s.geomH ∧ (regStore r v s).geomBpp = s.geomBpp := by
  obtain ⟨h1, h2⟩ := hn
  interval_cases n <;> cases hr <;> exact ⟨rfl, rfl, rfl⟩

/-- A write to a number other than CMD's keeps the invariant, and the counts unless an idle block stores a geometry register. -/
theorem MachineInv.regWriteOther_keeps (h : MachineInv s) (n : Nat) (v : Word) :
    MachineInv (regWriteOther n v s) ∧
    (CompletionCounts s → ¬ (s.mode = .idle ∧ 0x04 ≤ n ∧ n ≤ 0x06) → CompletionCounts (regWriteOther n v s)) := by
  by_cases hw : WritableNumber n
  case neg => rw [regWriteOther_ignored hw]; exact ⟨h, fun hc _ => hc⟩
  by_cases hf : s.mode = .fault
  case pos => rw [regWriteOther_fault hf]; exact ⟨h, fun hc _ => hc⟩
  by_cases hb : s.busy = true
  case pos => rw [regWriteOther_busy hb hw]; exact (h.raise_fullInv _ _).imp_right fun hc _ _ => hc
  have hm : s.mode = .idle := by cases e : s.mode <;> simp [busy_iff, e] at hf hb ⊢
  obtain ⟨r, hr, hwr⟩ := regOfNumber_writable hw
  rw [regWriteOther_idle hm hr hwr]
  have frame := regStore_frame r v s
  refine ⟨h.idle_write hm frame, fun hc hg => ?_⟩
  obtain ⟨hW, hH, hB⟩ := regStore_header_geometry hr (hw.resolve_left fun hn => hg ⟨hm, hn⟩) v s
  exact hc.congr (by rw [frame]) (by rw [frame]) (by rw [frame]) (by rw [frame]) (by rw [frame]) hW hH hB

/-! ## The host's turns (20 R44 to R47; 70 R185) -/

/-- What the host moves outside IN and PB keeps the invariant and the counts. -/
theorem MachineInv.env_keeps (h : MachineInv s) (tu : List Turn) (hd : Word) (oq : List Byte) (orr rs : Bool) :
    KeepsInvariant s { s with turns := tu, hostData := hd, outq := oq, outReady := orr, rst := rs } :=
  ⟨h.env tu hd oq orr rs, fun hc => hc.congr rfl rfl rfl rfl rfl rfl rfl rfl⟩

/-- IN replaced by another that ends at most once. -/
theorem MachineInv.inq_keeps (h : MachineInv s) (q : List InItem) (hq : eosLast q = true) (hd : Word) :
    KeepsInvariant s { s with inq := q, hostData := hd } :=
  ⟨h.inq q hq hd, fun hc => hc.congr rfl rfl rfl rfl rfl rfl rfl rfl⟩

/-- A supply appends to an IN that has not ended, so EOS stays last (20 R45). -/
theorem MachineInv.supplyIn_keeps (h : MachineInv s) {item : InItem} (ht : supplyIn item s = .next t) : KeepsInvariant s t := by
  unfold supplyIn at ht
  split at ht
  next => cases ht
  next hn =>
    cases ht
    exact h.inq_keeps _ (eosLast_append h.inEnd (by simpa [inEnded] using hn) item) s.hostData

theorem MachineInv.takeIn_keeps (h : MachineInv s) (ht : takeIn s = .next t) : KeepsInvariant s t := by
  unfold takeIn at ht
  split at ht
  next => cases ht
  next =>
    split at ht
    next b q hq => cases ht; exact h.inq_keeps q (eosLast_tail (hq ▸ h.inEnd)) _
    next => cases ht; exact h.keeps_self
    next => cases ht; exact h.keeps_self

theorem MachineInv.clearIn_keeps (h : MachineInv s) (ht : clearIn s = .next t) : KeepsInvariant s t := by
  unfold clearIn at ht
  split at ht
  next => cases ht
  next => cases ht; exact h.inq_keeps [] rfl s.hostData

theorem MachineInv.takeOut_keeps (h : MachineInv s) (ht : takeOut s = .next t) : KeepsInvariant s t := by
  unfold takeOut at ht
  split at ht
  next b q _ => cases ht; exact h.env_keeps s.turns _ q s.outReady s.rst
  next => cases ht; exact h.keeps_self

/-- The host writes PB only where neither the decoder nor the encoder runs, and the invariant of those is the only one on its bytes. -/
theorem MachineInv.hostPbWrite_keeps (h : MachineInv s) {a : BitVec 34} {v : Byte} (ht : hostPbWrite a v s = .next t) :
    KeepsInvariant s t := by
  rcases hostPbWrite_cases s a v with ⟨-, e⟩ | ⟨hown, e⟩
  · rw [e] at ht; cases ht
  · rw [e] at ht; cases ht
    have notDec : s.mode ≠ .dec := fun hm => by simp [hm, Mode.ownsPb] at hown
    have notEnc : s.mode ≠ .enc := fun hm => by simp [hm, Mode.ownsPb] at hown
    exact ⟨{ h with
      memory := memWrite_wf _ _ _ h.memory
      pbAddr := memWrite_bound h.pbAddr a.isLt
      dec := fun hm => absurd hm notDec
      enc := fun hm => absurd hm notEnc }, fun hc => hc.congr rfl rfl rfl rfl rfl rfl rfl rfl⟩

theorem MachineInv.hostPbRead_keeps (h : MachineInv s) {a : BitVec 34} (ht : hostPbRead a s = .next t) : KeepsInvariant s t := by
  rcases hostPbRead_cases s a with ⟨-, e⟩ | ⟨-, e⟩
  · rw [e] at ht; cases ht
  · rw [e] at ht; cases ht
    exact h.env_keeps s.turns _ s.outq s.outReady s.rst

/-- A block held in reset satisfies the invariant, and no command is done (70 R185, R186). -/
theorem MachineInv.setRst_keeps (h : MachineInv s) (level : Bool) : KeepsInvariant s (setRst level s) := by
  have held (rs : Bool) : KeepsInvariant s { resetBlock s with rst := rs } :=
    ⟨h.reset_keeps.env _ _ _ _ rs, fun _ => .of_not_done fun _ => rfl⟩
  unfold setRst
  split
  · exact held true
  · split
    · exact held false
    · exact h.keeps_self

/-- What a turn has to keep: the invariant always, the counts unless it is a geometry write that is stored. -/
def TurnKeepsInvariant (u : Turn) (s t : State) : Prop :=
  MachineInv t ∧ (CompletionCounts s → ¬ GeometryWriteNext { s with turns := [u] } → CompletionCounts t)

theorem KeepsInvariant.turnKeeps (h : KeepsInvariant s t) (u : Turn) : TurnKeepsInvariant u s t := h.imp_right fun hc c _ => hc c

/-- Every turn of the host, of the block and of the reset input keeps the invariant. -/
theorem MachineInv.takeTurn_keeps (h : MachineInv s) {u : Turn} (ht : takeTurn u s = .next t) : TurnKeepsInvariant u s t := by
  cases u with
  | blockStep =>
    simp only [takeTurn] at ht
    split at ht
    next => cases ht; exact h.keeps_self.turnKeeps _
    next => exact (h.tick_keeps ht).turnKeeps _
  | regWrite n v =>
    simp only [takeTurn] at ht
    split at ht
    next => cases ht; exact h.keeps_self.turnKeeps _
    next hr =>
      unfold regWrite at ht
      split at ht
      next => exact (h.cmdWrite_keeps ht).turnKeeps _
      next =>
        cases ht
        refine (h.regWriteOther_keeps n v).imp_right fun hc c hg => hc c fun ⟨hm, hn⟩ => hg ?_
        exact ⟨by simpa using hr, hm, n, v, [], rfl, hn⟩
  | regRead n =>
    simp only [takeTurn] at ht
    split at ht
    next => cases ht; exact h.keeps_self.turnKeeps _
    next => cases ht; exact (h.env_keeps s.turns _ s.outq s.outReady s.rst).turnKeeps _
  | supply item => exact (h.supplyIn_keeps ht).turnKeeps _
  | takeIn => exact (h.takeIn_keeps ht).turnKeeps _
  | clearIn => exact (h.clearIn_keeps ht).turnKeeps _
  | acceptOut ready => cases ht; exact (h.env_keeps s.turns s.hostData s.outq ready s.rst).turnKeeps _
  | takeOut => exact (h.takeOut_keeps ht).turnKeeps _
  | pbWrite a v => exact (h.hostPbWrite_keeps ht).turnKeeps _
  | pbRead a => exact (h.hostPbRead_keeps ht).turnKeeps _
  | rst level => cases ht; exact (h.setRst_keeps level).turnKeeps _

/-- The turns behind the next one do not decide what it writes. -/
theorem GeometryWriteNext.of_head {u : Turn} {rest : List Turn} (ht : s.turns = u :: rest)
    (h : GeometryWriteNext { s with turns := [u] }) : GeometryWriteNext s := by
  obtain ⟨hr, hm, n, v, _, hu, hn⟩ := h
  obtain rfl := (List.cons.inj hu).1
  exact ⟨hr, hm, n, v, rest, ht, hn⟩

/-- With no turn coming, the step is the block's own. -/
theorem MachineInv.step_keeps_of_no_turn (h : MachineInv s) (hs : s.turns = []) (ht : step s = .next t) : KeepsInvariant s t := by
  cases hr : s.rst with
  | false => exact h.runBlock_keeps (step_undisturbed hs hr ▸ ht)
  | true =>
    obtain rfl : s = t := by simpa [step, advance, hs, hr] using ht
    exact h.keeps_self

/-- Settles O60: by the turn a step takes, and for the block by the atomic steps of its units, which each keep the invariant. -/
theorem everyStepKeepsTheInvariant : Obligations.EveryStepKeepsTheInvariant := by
  intro s t h ht
  match hs : s.turns with
  | [] => exact (h.step_keeps_of_no_turn hs ht).imp_right fun hc c _ => hc c
  | u :: rest =>
    rw [step_turn hs] at ht
    have taken := h.env_keeps rest s.hostData s.outq s.outReady s.rst
    refine (taken.1.takeTurn_keeps ht).imp_right fun hc c hg => hc (taken.2 c) fun hw => hg ?_
    exact GeometryWriteNext.of_head hs hw

end Sys2Proof.Machine

/-! PROOF. The state's views and its reset (10 R18, R19, R22, R28, R29): the fields of STATUS and ERR, the header views, the reset
values. -/

namespace Sys2Proof.Machine

variable {s t : State}

/-! ## STATUS and ERR (10 R18, R19) -/

/-- The four low bits of STATUS. -/
theorem statusWord_bits (s : State) :
    (statusWord s).getLsbD 0 = s.busy ∧ (statusWord s).getLsbD 1 = s.done ∧ (statusWord s).getLsbD 2 = s.faulted ∧
    (statusWord s).getLsbD 3 = s.ovr := by
  simp only [statusWord, BitVec.getLsbD_append]
  simp

theorem faulted_iff (s : State) : s.faulted = true ↔ s.mode = .fault := by simp [State.faulted]

/-- Settles O28: the four low bits one by one, and the rest by STATUS as a number. -/
theorem statusFields : Obligations.StatusFields := by
  intro s
  obtain ⟨bit0, bit1, bit2, bit3⟩ := statusWord_bits s
  refine ⟨by rw [bit0]; exact busy_iff s, bit1, by rw [bit2]; exact faulted_iff s, bit3, ?_⟩
  have := Bool.toNat_le s.ovr
  have := Bool.toNat_le s.faulted
  have := Bool.toNat_le s.done
  have := Bool.toNat_le s.busy
  rw [statusWord_toNat]
  omega

/-- Settles O29: CODE fills the low 8 bits, and above FMODE there are zeros. -/
theorem errFields : Obligations.ErrFields := by
  intro s
  have code := s.errCode.isLt
  rw [errWord, BitVec.toNat_append, BitVec.toNat_append, ← Nat.shiftLeft_add_eq_or_of_lt code, Nat.shiftLeft_eq]
  simp

/-! ## The header views (10 R22) -/

/-- A step that takes a write with no effect changes the coming turns only. -/
theorem step_regWrite_ignored {n : Nat} {v : Word} {rest : List Turn} (ht : s.turns = .regWrite n v :: rest) (h0 : n ≠ 0)
    (hw : ¬ WritableNumber n) : step s = .next { s with turns := rest } := by
  rw [step_turn ht, takeTurn]
  split
  · rfl
  · rw [regWrite, if_neg h0, regWriteOther_ignored hw]

theorem bppView_toNat (h : Header) : (bppView h).toNat = h.bitsPerPixel.toNat / 8 := by
  have := h.bitsPerPixel.isLt
  simp only [bppView, BitVec.extractLsb'_toNat, Nat.shiftRight_eq_div_pow]
  omega

theorem originView_toNat (h : Header) : (originView h).toNat = h.imageDescriptor.toNat / 16 % 4 := by
  simp only [originView, BitVec.extractLsb'_toNat, Nat.shiftRight_eq_div_pow]

/-- Settles O30: the views are bit fields of two header registers, and their numbers are not writable. -/
theorem headerViews : Obligations.HeaderViews := by
  intro s
  refine ⟨?_, ?_, fun n v rest hn ht => step_regWrite_ignored ht (by omega) ?_⟩
  · show ((bppView s.hdr).zeroExtend 64).toNat = _
    rw [BitVec.toNat_setWidth_of_le (by omega), bppView_toNat]
  · show ((originView s.hdr).zeroExtend 64).toNat = _
    rw [BitVec.toNat_setWidth_of_le (by omega), originView_toNat]
  · rintro (⟨h1, h2⟩ | ⟨h1, h2⟩) <;> omega

/-! ## Reset (10 R28; 70 R186) -/

theorem statusWord_resetBlock (s : State) : statusWord (resetBlock s) = 0 := by
  show (0#57 ++ 0#3 ++ BitVec.ofBool false ++ BitVec.ofBool false ++ BitVec.ofBool false ++ BitVec.ofBool false : Word) = 0
  decide

theorem errWord_resetBlock (s : State) : errWord (resetBlock s) = 0 := by
  show (0#53 ++ 0#3 ++ 0#8 : Word) = 0
  decide

/-- Every register reads 0 after reset. -/
theorem regValue_resetBlock (r : Reg) (s : State) : regValue r (resetBlock s) = 0 := by
  cases r with
  | status => exact statusWord_resetBlock s
  | err => exact errWord_resetBlock s
  | hdrBppView | hdrOriginView => simp only [regValue, resetBlock_hdr]; decide
  | _ => rfl

theorem regRead_resetBlock (n : Nat) (s : State) : regRead n (resetBlock s) = 0 := by
  unfold regRead
  cases regOfNumber n with
  | none => rfl
  | some r => exact regValue_resetBlock r s

/-- `State.reset` is its own reset. -/
theorem resetBlock_reset : resetBlock State.reset = State.reset := rfl

/-- A decode or an encode started right after reset is ConfigError, GEOM_BPP being 0 (60 R163). -/
theorem needLegalBpp_resetBlock (start : State → State) (v : Word) (s : State) :
    cmdSlot v (needLegalBpp start) (resetBlock s) = raise .configError 0 (resetBlock s) := rfl

/-- Settles O13: field by field, and register by register. -/
theorem resetClearsEveryStorageElement : Obligations.ResetClearsEveryStorageElement := by
  intro s r
  refine ⟨?_, fun n => regRead_resetBlock n s, ⟨rfl, rfl, rfl⟩, fun n => resetBlock_reset ▸ regRead_resetBlock n State.reset, rfl, ?_, ?_⟩
  · simp [r]
  · intro t ht
    rw [exec, execCmdDecode, needLegalBpp_resetBlock] at ht
    cases ht; rfl
  · intro t ht
    rw [exec, execCmdEncode, needLegalBpp_resetBlock] at ht
    cases ht; rfl

/-- Settles O59: an idle block with nothing done, no fault, no byte of PB and an empty IN. -/
theorem resetSatisfiesTheInvariant : Obligations.ResetSatisfiesTheInvariant := by
  refine ⟨?_, .of_not_done fun _ => rfl⟩
  exact {
    memory := reset_pb_wf
    pbAddr := by simp [State.reset]
    inEnd := rfl
    fault := by simp [State.reset]
    noFault := fun _ => ⟨rfl, rfl⟩
    busyDone := fun _ => rfl
    lastCmd := by simp [State.reset, State.busy, Mode.busy]
    lastCmdRange := by simp [State.reset]
    parse := nofun
    serialize := nofun
    doneParse := nofun
    doneSerialize := nofun
    dec := nofun
    enc := nofun }

end Sys2Proof.Machine

/-! PROOF. The decoder and the encoder do the same whatever the header registers hold, and leave them (10 R21; 20 R55). -/

namespace Sys2Proof.Machine

/-- The state with other header registers. -/
def State.withHdr (h : Header) (s : State) : State := { s with hdr := h }

/-- The attempt with other header registers in the state it answers. -/
def Attempt.withHdr (h : Header) : Attempt → Attempt
  | .stepped s => .stepped (s.withHdr h)
  | .held => .held
  | .faulted s => .faulted (s.withHdr h)
  | .quiescent => .quiescent
  | .stop r => .stop r

variable {s t : State} {h : Header}

theorem Attempt.stepped_withHdr : (Attempt.stepped s).withHdr h = .stepped (s.withHdr h) := rfl

/-! ## The decoder -/

theorem pixelByteDone_withHdr (h : Header) (s : State) : pixelByteDone (s.withHdr h) = (pixelByteDone s).withHdr h := by
  have hcase := pixelByteDone_cases s
  generalize pixelByteDone s = t at hcase
  cases hcase with
  | more hl => exact pixelByteDone_more hl
  | mid hl hc hk => rw [pixelByteDone_last (by exact hl)]; exact pixelDone_mid hc hk
  | ends hl hc hk => rw [pixelByteDone_last (by exact hl)]; exact pixelDone_end hc hk
  | full hl hc => rw [pixelByteDone_last (by exact hl)]; exact pixelDone_full hc

theorem decoderStep_withHdr (h : Header) (s : State) : decoderStep (s.withHdr h) = (decoderStep s).withHdr h := by
  have hcase := decoderStep_cases s
  generalize decoderStep s = a at hcase
  cases hcase with
  | empty hd hq => exact decoderStep_empty hd hq
  | ended hd hq => exact decoderStep_eos hd hq
  | header hd hq => exact decoderStep_hdr hd hq
  | pixMore hd hq hl => exact decoderStep_runPix_more hd hq hl
  | pixLast hd hq hl => exact decoderStep_runPix_last hd hq hl
  | out hd hp =>
    rw [Attempt.stepped_withHdr, ← pixelByteDone_withHdr]
    exact decoderStep_runOut hd hp
  | outOutside hd hp => exact decoderStep_runOut_outside hd hp
  | literal hd hq hp =>
    rw [Attempt.stepped_withHdr, ← pixelByteDone_withHdr]
    exact decoderStep_raw hd hq hp
  | literalOutside hd hq hp => exact decoderStep_raw_outside hd hq hp

/-! ## The encoder -/

theorem outPush_withHdr {b : Byte} {k k' : State → Attempt} (hk : ∀ t, k' (t.withHdr h) = (k t).withHdr h) :
    outPush (s.withHdr h) b k' = (outPush s b k).withHdr h := by
  rcases outPush_cases s b k with ⟨hr, e⟩ | ⟨hr, e⟩
  · rw [e]; exact outPush_hold hr
  · rw [e, ← hk]; exact outPush_ready hr

theorem blockRead_withHdr {a : Nat} {k k' : Byte → Attempt} (hk : ∀ b, k' b = (k b).withHdr h) :
    blockRead (s.withHdr h) a k' = (blockRead s a k).withHdr h := by
  obtain rfl : k' = fun b => (k b).withHdr h := funext hk
  show blockRead s a (fun b => (k b).withHdr h) = _
  rcases blockRead_cases s a k with ⟨ha, b, hb, e⟩ | ⟨ha, hb, e⟩ | ⟨ha, e⟩
  · rw [e, blockRead_some ha hb]
  · rw [e]; simp [blockRead, ha, hb, Attempt.withHdr]
  · rw [e]; simp [blockRead, Nat.not_lt.2 ha, Attempt.withHdr]

theorem encoderStep_withHdr (h : Header) (s : State) : encoderStep (s.withHdr h) = (encoderStep s).withHdr h := by
  have hst : (s.withHdr h).estate = s.estate := rfl
  unfold encoderStep
  rw [hst]
  cases s.estate with
  | load => exact blockRead_withHdr fun _ => by simp only [apply_ite (Attempt.withHdr h)]; rfl
  | scan => exact blockRead_withHdr fun _ => by simp only [apply_ite (Attempt.withHdr h)]; rfl
  | emitHdr => exact outPush_withHdr fun _ => rfl
  | emitPix => exact outPush_withHdr fun _ => by simp only [apply_ite (Attempt.withHdr h)]; rfl

/-! ## A tick -/

theorem blockStep_withHdr (hm : s.mode = .dec ∨ s.mode = .enc) : blockStep (s.withHdr h) = (blockStep s).withHdr h := by
  have hmode : (s.withHdr h).mode = s.mode := rfl
  unfold blockStep
  rw [hmode]
  rcases hm with hm | hm <;> rw [hm]
  · exact decoderStep_withHdr h s
  · exact encoderStep_withHdr h s

/-- A tick that goes on does so with other header registers, and answers the same state but for them. -/
theorem tick_withHdr_next (hm : s.mode = .dec ∨ s.mode = .enc) (ht : tick s = .next t) :
    tick (s.withHdr h) = .next (t.withHdr h) := by
  rw [tick, blockStep_withHdr hm]
  rcases tick_next ht with e | ⟨e, rfl⟩ | e | ⟨e, rfl⟩ <;> rw [e] <;> rfl

/-- A tick that stops does so with other header registers, for the same reason. -/
theorem tick_withHdr_fault (hm : s.mode = .dec ∨ s.mode = .enc) {r : Fault} (ht : tick s = .fault r) :
    tick (s.withHdr h) = .fault r := by
  rw [tick, blockStep_withHdr hm]
  unfold tick at ht
  cases e : blockStep s <;> rw [e] at ht <;> cases ht
  rfl

/-- Settles O56: a tick commutes with a replacement of the header registers; replaced by themselves, they are those of the next state. -/
theorem codecUnitsIgnoreTheHeaderRegisters : Obligations.CodecUnitsIgnoreTheHeaderRegisters := by
  intro s h hm
  refine ⟨fun t ht => ⟨?_, tick_withHdr_next hm ht⟩, fun r hr => tick_withHdr_fault hm hr⟩
  have same : tick s = .next (t.withHdr s.hdr) := tick_withHdr_next (h := s.hdr) hm ht
  rw [ht] at same
  calc t.hdr = (t.withHdr s.hdr).hdr := congrArg State.hdr (Host.Outcome.next.inj same)
    _ = s.hdr := rfl

end Sys2Proof.Machine

/-! PROOF. What an atomic step of the block moves, writes and accesses (20 R41, R50, R55): O52, O57 and O58. -/

namespace Sys2Proof.Machine

variable {s t : State}

/-! ## From an attempt to a tick -/

theorem Attempt.Leaves.imp {P Q : State → Prop} {a : Attempt} (h : a.Leaves P) (himp : ∀ t, P t → Q t) : a.Leaves Q := by
  cases a with
  | stepped u | faulted u => exact himp u h
  | held | quiescent | stop _ => trivial

/-- A hold or no step leaves the state itself, so what holds of it and of every state answered holds of the outcome. -/
theorem Attempt.Leaves.of_outcome {P : State → Prop} {a : Attempt} (h : a.Leaves P) (hs : P s) (ho : a.outcome s = .next t) :
    P t := by
  cases a with
  | stepped u | faulted u => cases ho; exact h
  | held | quiescent => cases ho; exact hs
  | stop r => cases ho

/-- A tick stops exactly where the block's attempt does. -/
theorem tick_fault_iff {r : Fault} : tick s = .fault r ↔ blockStep s = .stop r := by
  unfold tick
  cases blockStep s <;> simp [Attempt.outcome]

theorem tick_goes_on (h : ∀ r, blockStep s ≠ .stop r) : ∃ t, tick s = .next t := by
  unfold tick
  cases e : blockStep s with
  | stepped u | faulted u => exact ⟨u, rfl⟩
  | held | quiescent => exact ⟨s, rfl⟩
  | stop r => exact absurd e (h r)

/-! ## The bytes a step moves (20 R50) -/

/-- From `s` to `t` at most one byte is popped, one pushed and one written, each counted. -/
def MovesSingleBytes (s t : State) : Prop :=
  (t.inq = s.inq ∧ t.ipos = s.ipos ∨ ∃ b, s.inq = .byte b :: t.inq ∧ t.ipos = s.ipos + 1) ∧
  (t.outq = s.outq ∧ t.opos = s.opos ∨ ∃ b, t.outq = s.outq ++ [b] ∧ t.opos = s.opos + 1) ∧
  (t.pb = s.pb ∧ t.prod = s.prod ∨ ∃ v, t.pb = memWrite s.pb s.prod.toNat v ∧ t.prod = s.prod + 1)

/-- A step that moves no byte. -/
theorem MovesSingleBytes.none (hin : t.inq = s.inq ∧ t.ipos = s.ipos) (hout : t.outq = s.outq ∧ t.opos = s.opos)
    (hpb : t.pb = s.pb ∧ t.prod = s.prod) : MovesSingleBytes s t := ⟨.inl hin, .inl hout, .inl hpb⟩

/-- A step that pops a byte and moves no other. -/
theorem MovesSingleBytes.pop {b : Byte} (hin : s.inq = .byte b :: t.inq ∧ t.ipos = s.ipos + 1)
    (hout : t.outq = s.outq ∧ t.opos = s.opos) (hpb : t.pb = s.pb ∧ t.prod = s.prod) : MovesSingleBytes s t :=
  ⟨.inr ⟨b, hin⟩, .inl hout, .inl hpb⟩

/-- A step that pushes a byte and moves no other. -/
theorem MovesSingleBytes.push {b : Byte} (hin : t.inq = s.inq ∧ t.ipos = s.ipos)
    (hout : t.outq = s.outq ++ [b] ∧ t.opos = s.opos + 1) (hpb : t.pb = s.pb ∧ t.prod = s.prod) : MovesSingleBytes s t :=
  ⟨.inl hin, .inr ⟨b, hout⟩, .inl hpb⟩

/-- What follows a byte written to PB changes the packet's latches, OVR, DONE and MODE only (41 R103). -/
theorem pixelByteDone_frame (s : State) : pixelByteDone s = { s with
    dstate := (pixelByteDone s).dstate, pktLeft := (pixelByteDone s).pktLeft, dbi := (pixelByteDone s).dbi
    ovr := (pixelByteDone s).ovr, mode := (pixelByteDone s).mode, done := (pixelByteDone s).done } := by
  have hcase := pixelByteDone_cases s
  generalize pixelByteDone s = t at hcase
  cases hcase <;> rfl

theorem parseStep_moves (s : State) : (parseStep s).Leaves (MovesSingleBytes s) := by
  have hcase := parseStep_cases s
  generalize parseStep s = a at hcase
  cases hcase with
  | empty | outside => trivial
  | ended => exact .none ⟨rfl, rfl⟩ ⟨rfl, rfl⟩ ⟨rfl, rfl⟩
  | more hq | last hq => exact .pop ⟨hq, rfl⟩ ⟨rfl, rfl⟩ ⟨rfl, rfl⟩

theorem serializeStep_moves (s : State) : (serializeStep s).Leaves (MovesSingleBytes s) := by
  have hcase := serializeStep_cases s
  generalize serializeStep s = a at hcase
  cases hcase with
  | notReady | outside => trivial
  | more | last => exact .push ⟨rfl, rfl⟩ ⟨rfl, rfl⟩ ⟨rfl, rfl⟩

theorem decoderStep_moves (s : State) : (decoderStep s).Leaves (MovesSingleBytes s) := by
  have hcase := decoderStep_cases s
  generalize decoderStep s = a at hcase
  cases hcase with
  | empty | outOutside | literalOutside => trivial
  | ended => exact .none ⟨rfl, rfl⟩ ⟨rfl, rfl⟩ ⟨rfl, rfl⟩
  | header _ hq | pixMore _ hq | pixLast _ hq => exact .pop ⟨hq, rfl⟩ ⟨rfl, rfl⟩ ⟨rfl, rfl⟩
  | out =>
    rw [pixelByteDone_frame]
    exact ⟨.inl ⟨rfl, rfl⟩, .inl ⟨rfl, rfl⟩, .inr ⟨_, rfl, rfl⟩⟩
  | literal _ hq =>
    rw [pixelByteDone_frame]
    exact ⟨.inr ⟨_, hq, rfl⟩, .inl ⟨rfl, rfl⟩, .inr ⟨_, rfl, rfl⟩⟩

theorem encoderStep_moves (s : State) : (encoderStep s).Leaves (MovesSingleBytes s) := by
  have hcase := encoderStep_cases s
  generalize encoderStep s = a at hcase
  cases hcase with
  | loadUnwritten | loadOutside | scanUnwritten | scanOutside | notReady => trivial
  | loadMore | loadLast | scanDiffers | scanMore | scanLast => exact .none ⟨rfl, rfl⟩ ⟨rfl, rfl⟩ ⟨rfl, rfl⟩
  | header | pixMore | pixLast | pixDone => exact .push ⟨rfl, rfl⟩ ⟨rfl, rfl⟩ ⟨rfl, rfl⟩

theorem blockStep_moves (s : State) : (blockStep s).Leaves (MovesSingleBytes s) := by
  unfold blockStep
  cases s.mode with
  | idle | fault => trivial
  | hparse => exact parseStep_moves s
  | hser => exact serializeStep_moves s
  | dec => exact decoderStep_moves s
  | enc => exact encoderStep_moves s

/-- Settles O52: unit by unit, and by what each of its steps can do. -/
theorem atomicStepMovesSingleBytes : Obligations.AtomicStepMovesSingleBytes :=
  fun s _ ht => (blockStep_moves s).of_outcome (.none ⟨rfl, rfl⟩ ⟨rfl, rfl⟩ ⟨rfl, rfl⟩) ht

/-! ## What each unit writes (20 R55) -/

/-- From `s` to `t` only what the header parser owns has changed. -/
def OnlyParserWrites (s t : State) : Prop :=
  t = { s with
    hb := t.hb, hcnt := t.hcnt, ipos := t.ipos, hdr := t.hdr, inq := t.inq, mode := t.mode, done := t.done
    errCode := t.errCode, errFmode := t.errFmode, errarg := t.errarg }

/-- From `s` to `t` only what the header serializer owns has changed. -/
def OnlySerializerWrites (s t : State) : Prop :=
  t = { s with hcnt := t.hcnt, opos := t.opos, outq := t.outq, mode := t.mode, done := t.done }

/-- From `s` to `t` only what the decoder owns has changed, and of PB no byte but the one at PROD, counted by PROD. -/
def OnlyDecoderWrites (s t : State) : Prop :=
  SameOutside s.pb t.pb s.prod.toNat 1 ∧ (t.prod = s.prod → t.pb = s.pb) ∧
  t = { s with
    dstate := t.dstate, pktRun := t.pktRun, pktLeft := t.pktLeft, pix := t.pix, dbi := t.dbi, ipos := t.ipos
    prod := t.prod, ovr := t.ovr, pb := t.pb, inq := t.inq, mode := t.mode, done := t.done
    errCode := t.errCode, errFmode := t.errFmode, errarg := t.errarg }

/-- From `s` to `t` only what the encoder owns has changed. -/
def OnlyEncoderWrites (s t : State) : Prop :=
  t = { s with
    estate := t.estate, cur := t.cur, run := t.run, ebi := t.ebi, opos := t.opos, pidx := t.pidx
    outq := t.outq, mode := t.mode, done := t.done }

theorem parseStep_writes (s : State) : (parseStep s).Leaves (OnlyParserWrites s) := by
  have hcase := parseStep_cases s
  generalize parseStep s = a at hcase
  cases hcase with
  | empty | outside => trivial
  | ended | more | last => exact rfl

theorem serializeStep_writes (s : State) : (serializeStep s).Leaves (OnlySerializerWrites s) := by
  have hcase := serializeStep_cases s
  generalize serializeStep s = a at hcase
  cases hcase with
  | notReady | outside => trivial
  | more | last => exact rfl

/-- A step of the decoder that leaves PB. -/
theorem OnlyDecoderWrites.of_pb (hpb : t.pb = s.pb) (frame : t = { s with
    dstate := t.dstate, pktRun := t.pktRun, pktLeft := t.pktLeft, pix := t.pix, dbi := t.dbi, ipos := t.ipos
    prod := t.prod, ovr := t.ovr, pb := t.pb, inq := t.inq, mode := t.mode, done := t.done
    errCode := t.errCode, errFmode := t.errFmode, errarg := t.errarg }) : OnlyDecoderWrites s t :=
  ⟨fun _ _ => by rw [hpb], fun _ => hpb, frame⟩

/-- A byte written at PROD moves PROD, which 34 bits do not bring back to where it was. -/
theorem OnlyDecoderWrites.of_byteWritten (s : State) (q : List InItem) (i : BitVec 35) (b : Byte) : OnlyDecoderWrites s
    (pixelByteDone { s with inq := q, ipos := i, pb := memWrite s.pb s.prod.toNat b, prod := s.prod + 1 }) := by
  have moved : s.prod + 1 ≠ s.prod := by bv_omega
  rw [pixelByteDone_frame]
  exact ⟨sameOutside_memWrite s.pb s.prod.toNat b, fun h => absurd h moved, rfl⟩

theorem decoderStep_writes (s : State) : (decoderStep s).Leaves (OnlyDecoderWrites s) := by
  have hcase := decoderStep_cases s
  generalize decoderStep s = a at hcase
  cases hcase with
  | empty | outOutside | literalOutside => trivial
  | ended | header | pixMore | pixLast => exact .of_pb rfl rfl
  | out | literal => exact .of_byteWritten s _ _ _

theorem encoderStep_writes (s : State) : (encoderStep s).Leaves (OnlyEncoderWrites s) := by
  have hcase := encoderStep_cases s
  generalize encoderStep s = a at hcase
  cases hcase with
  | loadUnwritten | loadOutside | scanUnwritten | scanOutside | notReady => trivial
  | loadMore | loadLast | scanDiffers | scanMore | scanLast | header | pixMore | pixLast | pixDone => exact rfl

/-- Settles O58: by what each step of the unit that runs can do; a byte written to PB is the one at PROD. -/
theorem unitsWriteOnlyTheirOwnState : Obligations.UnitsWriteOnlyTheirOwnState := by
  intro s t ht
  refine ⟨fun hm => ?parse, fun hm => ?serialize, fun hm => ?decode, fun hm => ?encode⟩
  case parse => exact (parseStep_writes s).of_outcome (s := s) rfl (tick_hparse hm ▸ ht)
  case serialize => exact (serializeStep_writes s).of_outcome (s := s) rfl (tick_hser hm ▸ ht)
  case decode => exact (decoderStep_writes s).of_outcome (.of_pb rfl rfl) (tick_dec hm ▸ ht)
  case encode => exact (encoderStep_writes s).of_outcome (s := s) rfl (tick_enc hm ▸ ht)

/-! ## The accesses of a block that keeps its invariant (20 R41) -/

/-- Every byte of a pixel of the image is a byte of PB below CAP (20 R42). -/
theorem pixelAddr_lt_cap {k j : Nat} (hk : k < s.npix) (hj : j < s.bpp) : pixelAddr s.bpp k j < s.cap :=
  calc k * s.bpp + j < k * s.bpp + s.bpp := by omega
    _ = (k + 1) * s.bpp := (Nat.succ_mul k s.bpp).symm
    _ ≤ s.npix * s.bpp := Nat.mul_le_mul_right _ hk

theorem parseStep_ne_stop (h : s.hcnt.toNat < 18) (r : Fault) : parseStep s ≠ .stop r := by
  have hcase := parseStep_cases s
  generalize parseStep s = a at hcase
  cases hcase with
  | outside _ h18 => omega
  | empty | ended | more | last => nofun

theorem serializeStep_ne_stop (h : s.hcnt.toNat < 18) (r : Fault) : serializeStep s ≠ .stop r := by
  have hcase := serializeStep_cases s
  generalize serializeStep s = a at hcase
  cases hcase with
  | outside h18 => omega
  | notReady | more | last => nofun

/-- The decoder writes PB only while there is room. -/
theorem decoderStep_ne_stop (h : s.prod.toNat < s.cap) (r : Fault) : decoderStep s ≠ .stop r := by
  have hcase := decoderStep_cases s
  generalize decoderStep s = a at hcase
  cases hcase with
  | outOutside _ hp | literalOutside _ _ hp => omega
  | empty | ended | header | pixMore | pixLast | out | literal => nofun

/-- The encoder reads bytes of pixels of the image only, so it stops at most at one that nobody has written (70 R190). -/
theorem EncInv.encoderStep_stop (h : EncInv s) {r : Fault} (hr : encoderStep s = .stop r) : ∃ a, r = .pbUnwritten a := by
  have hcase := encoderStep_cases s
  rw [hr] at hcase
  cases hcase with
  | loadUnwritten | scanUnwritten => exact ⟨_, rfl⟩
  | loadOutside _ ha => exact absurd (pixelAddr_lt_cap h.pidx h.ebi) (Nat.not_lt.2 ha)
  | scanOutside he ha =>
    obtain ⟨-, -, inImage, -, -⟩ := h.scan he
    exact absurd (pixelAddr_lt_cap inImage h.ebi) (Nat.not_lt.2 ha)

/-- Outside an encode no atomic step stops. -/
theorem MachineInv.blockStep_ne_stop (h : MachineInv s) (hm : s.mode ≠ .enc) (r : Fault) : blockStep s ≠ .stop r := by
  unfold blockStep
  cases hmode : s.mode with
  | idle | fault => nofun
  | hparse => exact parseStep_ne_stop (h.parse hmode).1 r
  | hser => exact serializeStep_ne_stop (h.serialize hmode).1 r
  | dec => exact decoderStep_ne_stop (h.dec hmode).room r
  | enc => exact absurd hmode hm

/-- The one stop of a tick is an encode's read of a byte nobody has written. -/
theorem MachineInv.tick_fault (h : MachineInv s) {r : Fault} (hr : tick s = .fault r) : ∃ a, r = .pbUnwritten a := by
  have hstop := tick_fault_iff.1 hr
  by_cases hm : s.mode = .enc
  · have he : blockStep s = encoderStep s := by simp only [blockStep, hm]
    exact (h.enc hm).encoderStep_stop (he ▸ hstop)
  · exact absurd hstop (h.blockStep_ne_stop hm r)

/-- Settles O57: the invariant keeps HCNT below 18, PROD below CAP and the encoder's pixels in the image. -/
theorem blockStaysInsidePb : Obligations.BlockStaysInsidePb := by
  intro s h
  refine ⟨fun a ha => ?_, fun k hk => ?_, fun hm => tick_goes_on (h.blockStep_ne_stop hm)⟩
  · obtain ⟨_, e⟩ := h.tick_fault ha
    cases e
  · obtain ⟨_, e⟩ := h.tick_fault hk
    cases e

end Sys2Proof.Machine

/-! PROOF. The host's side of the channels and of PB (20 R41, R44, R45, R47; 70 R193, R200): O53 and O55. -/

namespace Sys2Proof.Machine

variable {s t : State}

/-! ## The channels -/

theorem inEnded_iff (s : State) : inEnded s = true ↔ .eos ∈ s.inq := by simp [inEnded]

/-- The parser and the decoder pop IN (20 R55). -/
theorem popsIn_iff (m : Mode) : m.popsIn = true ↔ m = .hparse ∨ m = .dec := by
  cases m <;> simp [Mode.popsIn]

/-- While no running unit pops IN the host takes the byte at its head. -/
theorem takeIn_byte {b : Byte} {q : List InItem} (hm : ¬ s.mode.popsIn = true) (hq : s.inq = .byte b :: q) :
    takeIn s = .next { s with inq := q, hostData := b.zeroExtend 64 } := by
  simp only [takeIn, if_neg hm, hq]

theorem takeOut_byte {b : Byte} {q : List Byte} (hq : s.outq = b :: q) :
    takeOut s = .next { s with outq := q, hostData := b.zeroExtend 64 } := by
  simp only [takeOut, hq]

/-- Settles O53: turn by turn, and for a take or a clear by whether the running unit pops IN. -/
theorem hostFeedsAndDrainsTheChannels : Obligations.HostFeedsAndDrainsTheChannels := by
  intro s rest
  refine ⟨fun i ht => ⟨fun hopen => ?supply, fun hended => ?supplyAfterEos⟩, fun r ht => step_turn ht,
    fun b q ht hq => ?takeOut, fun hparse hdec => ?between, fun hm ht => ?popping⟩
  case supply => exact (step_turn ht).trans (if_neg fun h => hopen ((inEnded_iff s).1 h))
  case supplyAfterEos => exact (step_turn ht).trans (if_pos ((inEnded_iff s).2 hended))
  case takeOut => exact (step_turn ht).trans (takeOut_byte hq)
  case between =>
    have free : ¬ s.mode.popsIn = true := fun h => ((popsIn_iff s.mode).1 h).elim hparse hdec
    exact ⟨fun b q ht hq => (step_turn ht).trans (takeIn_byte free hq), fun ht => (step_turn ht).trans (if_neg free)⟩
  case popping =>
    have pops : s.mode.popsIn = true := (popsIn_iff s.mode).2 hm
    rcases ht with ht | ht <;> exact (step_turn ht).trans (if_pos pops)

/-! ## PB -/

/-- The decoder and the encoder own PB (20 R44). -/
theorem ownsPb_iff (m : Mode) : m.ownsPb = true ↔ m = .dec ∨ m = .enc := by
  cases m <;> simp [Mode.ownsPb]

theorem OnlyParserWrites.pb (h : OnlyParserWrites s t) : t.pb = s.pb := by rw [h]

theorem OnlySerializerWrites.pb (h : OnlySerializerWrites s t) : t.pb = s.pb := by rw [h]

/-- Outside a decode and an encode an atomic step leaves PB. -/
theorem blockStep_leaves_pb (hm : ¬ s.mode.ownsPb = true) : (blockStep s).Leaves fun t => t.pb = s.pb := by
  unfold blockStep
  cases hmode : s.mode with
  | idle | fault => trivial
  | hparse => exact (parseStep_writes s).imp fun _ => OnlyParserWrites.pb
  | hser => exact (serializeStep_writes s).imp fun _ => OnlySerializerWrites.pb
  | dec | enc => exact absurd (by rw [hmode]; rfl) hm

/-- A run of the unit leaves PB where every step it makes does. -/
theorem runUnit_leaves_pb {st : State → Attempt} {going : State → Bool}
    (hst : ∀ u, (st u).Leaves fun v => v.pb = u.pb) {k : Nat} (ht : runUnit st going k s = .next t) : t.pb = s.pb :=
  runUnit_keeps (P := fun u => u.pb = s.pb) (fun u _ hu _ hv => ((hst u).of_answer hv).trans hu) k s t rfl ht

/-- Outside a decode and an encode the undisturbed block leaves PB: it runs HDR.PARSE, HDR.SERIALIZE or nothing. -/
theorem runBlock_leaves_pb (hm : ¬ s.mode.ownsPb = true) (ht : runBlock s = .next t) : t.pb = s.pb := by
  cases hf : fetchUnit s with
  | none =>
    rw [runBlock_of_fetchUnit_none hf] at ht
    exact (blockStep_leaves_pb hm).of_outcome rfl ht
  | some f =>
    obtain ⟨i, u⟩ := f
    have hrun : exec i u = .next t := by simpa only [runBlock, hf] using ht
    cases fetchUnit_cases hf with
    | parse => exact runUnit_leaves_pb (fun v => (parseStep_writes v).imp fun _ => OnlyParserWrites.pb) hrun
    | serialize => exact runUnit_leaves_pb (fun v => (serializeStep_writes v).imp fun _ => OnlySerializerWrites.pb) hrun
    | packet hmode | emit hmode => exact absurd (by rw [hmode]; rfl) hm

/-- With PB the host's, its read returns the byte of PB, written or free. -/
theorem step_pbRead {a : BitVec 34} {rest : List Turn} (ht : s.turns = .pbRead a :: rest) (hm : ¬ s.mode.ownsPb = true) :
    step s = .next { s with turns := rest, hostData := (pbByte s.pb a.toNat).zeroExtend 64 } :=
  (step_turn ht).trans (if_neg hm)

/-- Settles O55: by who owns PB; the undisturbed block accesses PB in no other unit than the decoder and the encoder. -/
theorem pbBelongsToOneAgentAtATime : Obligations.PbBelongsToOneAgentAtATime := by
  intro s a v rest
  refine ⟨fun hm => ?block, fun hdec henc => ?host⟩
  case block =>
    have own : s.mode.ownsPb = true := (ownsPb_iff s.mode).2 hm
    exact ⟨fun ht => (step_turn ht).trans (if_pos own), fun ht => (step_turn ht).trans (if_pos own)⟩
  case host =>
    have free : ¬ s.mode.ownsPb = true := fun h => ((ownsPb_iff s.mode).1 h).elim hdec henc
    refine ⟨fun ht => (step_turn ht).trans (if_neg free), fun ht => ⟨fun b hb => ?_, fun hn => ?_⟩,
      fun t hr hs ht => runBlock_leaves_pb free (step_undisturbed hs hr ▸ ht)⟩
    · rw [step_pbRead ht free, pbByte_written hb]
    · rw [step_pbRead ht free, pbByte_unwritten hn]

end Sys2Proof.Machine

/-! PROOF. The encodings: the words of the table, the packet-header byte, what the encoder pushes, and the stream of packets
(30_encoding R65 to R74; 41 R109): O1, O2, O4, O5, O6, O9 and O42. -/

namespace Sys2Proof.Machine

variable {s : State}

/-! ## Words and instructions (30 R65, R71, R72) -/

/-- The decoder reads both fields of a packet-header byte back, whatever they are (30 R65). -/
theorem decode_packetIn_packetByte (isRun : Bool) (n : BitVec 7) :
    decode (.packetIn (packetByte isRun n)) = .ok (if isRun then .decRun n else .decRaw n) := by
  simp only [decode, decodePacketIn, packetIsRun_packetByte, packetCountField_packetByte]

/-- An emitted run header is legal unless it is 0x80, whose count field is 0 (30 R71). -/
theorem decode_packetOut_packetByte_true {n : BitVec 7} (hn : n ≠ 0) :
    decode (.packetOut (packetByte true n)) = .ok (.encEmitRun n) := by
  have legal : (packetIsRun (packetByte true n) && packetCountField (packetByte true n) != 0) = true := by simpa using hn
  rw [decode, decodePacketOut, if_pos legal, packetCountField_packetByte]

/-- Settles O1: the packet forms by the two fields of their header byte, the other rows by their one word. -/
theorem decodeInvertsEncode : Obligations.DecodeInvertsEncode := by
  intro i hwf
  cases i with
  | decRun n => exact decode_packetIn_packetByte true n
  | decRaw n => exact decode_packetIn_packetByte false n
  | encEmitRun n => exact decode_packetOut_packetByte_true (bne_iff_ne.1 hwf)
  | encEmitRaw1 | hdrParse | hdrSerialize | cmdNop | cmdHdrParse | cmdHdrSerialize | cmdDecode | cmdEncode => rfl

/-- Settles O5: the legal words are the encodings of the instructions they decode to, so O1 gives those; the two rejected ones
are evaluated. -/
theorem sampleWordsDecode : Obligations.SampleWordsDecode :=
  ⟨decodeInvertsEncode (.decRun 3) rfl, decodeInvertsEncode (.decRaw 1) rfl, decodeInvertsEncode (.encEmitRun 1) rfl,
    decodeInvertsEncode .encEmitRaw1 rfl, rfl, decodeInvertsEncode .cmdHdrParse rfl, decodeInvertsEncode .cmdEncode rfl, rfl,
    decodeInvertsEncode .hdrParse rfl, decodeInvertsEncode .hdrSerialize rfl⟩

/-- A CMD value of 5 or more differs from each of the five codes in its whole 64 bits (30 R73). -/
theorem decode_command_reserved {v : Word} (h : 5 ≤ v.toNat) : decode (.command v) = .error (.reservedCommand v) := by
  have ne : ∀ k, k < 5 → v ≠ BitVec.ofNat 64 k := fun k hk c => by
    have := (word_eq_ofNat_iff v k (by omega)).1 c
    omega
  exact (if_neg (ne 0 (by decide))).trans <| (if_neg (ne 1 (by decide))).trans <| (if_neg (ne 2 (by decide))).trans <|
    (if_neg (ne 3 (by decide))).trans <| if_neg (ne 4 (by decide))

/-- A word with the value of a command's code is the word that encodes the command: all 64 bits are compared (30 R72). -/
theorem decode_command_of_toNat {v : Word} {c : Nat} {i : Instr} (hi : encode i = .command (BitVec.ofNat 64 c))
    (hwf : i.wf = true) (h : v.toNat = c) : decode (.command v) = .ok i := by
  rw [(word_eq_ofNat_iff v c (h ▸ v.isLt)).2 h, ← hi]
  exact decodeInvertsEncode i hwf

/-- Settles O6: a value below 5 is the word that encodes its command, so O1 decodes it; the others are reserved. -/
theorem commandIsSelectedByTheWholeValue : Obligations.CommandIsSelectedByTheWholeValue := fun _ =>
  ⟨decode_command_of_toNat (i := .cmdNop) rfl rfl, decode_command_of_toNat (i := .cmdHdrParse) rfl rfl,
    decode_command_of_toNat (i := .cmdHdrSerialize) rfl rfl, decode_command_of_toNat (i := .cmdDecode) rfl rfl,
    decode_command_of_toNat (i := .cmdEncode) rfl rfl, decode_command_reserved⟩

/-! ## The fields of a packet-header byte, as numbers (30 R65, R69) -/

theorem packetByte_toNat (isRun : Bool) (n : BitVec 7) : (packetByte isRun n).toNat = (if isRun then 128 else 0) + n.toNat := by
  revert isRun n; decide

theorem packetCountField_toNat (p : Byte) : (packetCountField p).toNat = (p &&& 0x7F).toNat := by revert p; decide

theorem packetIsRun_eq_bit7 (p : Byte) : packetIsRun p = p.getLsbD 7 := rfl

/-- Every count of the format is that of a count field (30 R69). -/
theorem packetCount_ofNat_pred {m : Nat} (h1 : 1 ≤ m) (h128 : m ≤ 128) : (packetCount (BitVec.ofNat 7 (m - 1))).toNat = m := by
  rw [packetCount_toNat, BitVec.toNat_ofNat]
  omega

/-- Settles O2: the count field is bits 6:0, and a byte without bit 7 is its count field. -/
theorem everyByteIsAPacketHeader : Obligations.EveryByteIsAPacketHeader := by
  intro p
  refine ⟨packetCountField p, ?count, packetCount_pos _, packetCount_le _, fun h7 => ?run, fun h7 => ⟨?raw, ?rawCount⟩⟩
  case count => rw [packetCount_toNat, packetCountField_toNat]
  all_goals rw [← packetIsRun_eq_bit7] at h7
  case run | raw => simp [decode, decodePacketIn, h7]
  case rawCount =>
    have value := packetByte_toNat (packetIsRun p) (packetCountField p)
    rw [packetByte_fields, h7] at value
    rw [packetCount_toNat, value]
    simp

/-! ## What the encoder pushes in E_EMIT_HDR (30 R71; 42 R126) -/

/-- The header byte of a run of 2 to 128 is 0x80 and the count field, which is not 0. -/
theorem emitHeader_toNat {r : BitVec 8} (h2 : 2 ≤ r.toNat) (h128 : r.toNat ≤ 128) : (emitHeader r).toNat = 127 + r.toNat := by
  have hfield : (BitVec.ofNat 7 (r.toNat - 1)).toNat = r.toNat - 1 := by rw [BitVec.toNat_ofNat]; omega
  have hr : r = packetCount (BitVec.ofNat 7 (r.toNat - 1)) :=
    BitVec.eq_of_toNat_eq (packetCount_ofNat_pred (by omega) h128).symm
  calc (emitHeader r).toNat = (packetByte true (BitVec.ofNat 7 (r.toNat - 1))).toNat := by
        rw [← emitHeader_run _ (by omega), ← hr]
    _ = 127 + r.toNat := by rw [packetByte_toNat, hfield, if_pos rfl]; omega

/-- A step in E_EMIT_HDR with OUT accepting (42 R126). -/
theorem tick_emitHdr (hm : s.mode = .enc) (he : s.estate = .emitHdr) (hr : s.outReady = true) :
    tick s = .next { s with outq := s.outq ++ [emitHeader s.run], opos := s.opos + 1, ebi := 0, estate := .emitPix } := by
  have header : encoderStep s = encEmitHdrStep s := by simp only [encoderStep, he]
  rw [tick_enc hm, header, encEmitHdrStep, outPush_ready hr, Attempt.outcome]

/-- Settles O4: the invariant holds RUN between 1 and 128 when the header byte is due (42 R131 (e)). -/
theorem encoderPushesOnlyItsTwoHeaderForms : Obligations.EncoderPushesOnlyItsTwoHeaderForms := by
  intro s hinv hm he hr
  obtain ⟨h1, h128, -⟩ := (hinv.enc hm).emit (.inl he)
  refine ⟨_, emitHeader s.run, tick_emitHdr hm he hr, rfl, ?_⟩
  by_cases hone : s.run.toNat = 1
  · have hrun : s.run = 1 := BitVec.eq_of_toNat_eq hone
    exact .inl ⟨by rw [hrun, emitHeader_one], hone⟩
  · have value := emitHeader_toNat (r := s.run) (by omega) h128
    exact .inr ⟨by omega, by omega, h128⟩

/-! ## Packets (30 R66 to R68) -/

variable {bpp : Nat} {k : Packet}

theorem Packet.wf_run {n : BitVec 7} {x : List Byte} : (Packet.run n x).wf bpp = true ↔ x.length = bpp := by simp [Packet.wf]

theorem Packet.wf_raw {xs : List (List Byte)} :
    (Packet.raw xs).wf bpp = true ↔ 1 ≤ xs.length ∧ xs.length ≤ 128 ∧ ∀ x ∈ xs, x.length = bpp := by
  show _ ↔ _ ∧ xs.length ≤ Config.maxRun ∧ _
  simp [Packet.wf, and_assoc]

theorem Packet.pixel_length (hk : k.wf bpp = true) : ∀ x ∈ k.pixels, x.length = bpp := by
  cases k with
  | run n x => exact fun y hy => List.eq_of_mem_replicate hy ▸ wf_run.1 hk
  | raw xs => exact (wf_raw.1 hk).2.2

/-- Pixels of `bpp` bytes, one after the other. -/
theorem flatten_length_of_pixels {xs : List (List Byte)} (h : ∀ x ∈ xs, x.length = bpp) : xs.flatten.length = xs.length * bpp := by
  rw [List.length_flatten, List.sum_eq_card_nsmul _ bpp (by simpa using h), List.length_map, smul_eq_mul]

theorem packetLength_run (n : BitVec 7) : packetLength (packetByte true n) bpp = 1 + bpp := by simp [packetLength]

theorem packetLength_raw (n : BitVec 7) : packetLength (packetByte false n) bpp = 1 + (packetCount n).toNat * bpp := by
  simp [packetLength]

/-- Settles O9: a run packet has one pixel after its header byte, a raw packet as many as its count says. -/
theorem packetLengthFromItsHeaderByte : Obligations.PacketLengthFromItsHeaderByte := by
  intro bpp k hb hk
  cases k with
  | run n x =>
    have hx := Packet.wf_run.1 hk
    refine ⟨packetByte true n, x, rfl, ?_⟩
    rw [packetLength_run, Packet.bytes, List.length_cons]
    omega
  | raw xs =>
    obtain ⟨h1, h128, hx⟩ := Packet.wf_raw.1 hk
    refine ⟨packetByte false (BitVec.ofNat 7 (xs.length - 1)), xs.flatten, rfl, ?_⟩
    rw [packetLength_raw, packetCount_ofNat_pred h1 h128, Packet.bytes, List.length_cons, flatten_length_of_pixels hx]
    rcases hb with rfl | rfl <;> omega

/-! ## The stream of packets (30 R74; 41 R107, R109) -/

/-- `decode` over whole packets whose pixels fill what is left of the buffer: a pass for each packet, and the pass that finds the
buffer full, which is why `fuel` exceeds the number of packets. What precedes the packets has been consumed, what follows is not. -/
theorem decodeLoop_packets (hb : bpp = 3 ∨ bpp = 4) (tail : List Byte) {cap : Nat} (ks : List Packet) :
    ∀ (pre out : List Byte) (fuel : Nat), (∀ k ∈ ks, k.wf bpp = true) → ks.length < fuel →
      cap = out.length + (ks.map Packet.pixels).flatten.length * bpp →
      decodeLoop bpp cap (pre ++ ((ks.map Packet.bytes).flatten ++ tail)) fuel out pre.length =
        .done (out ++ (ks.map Packet.pixels).flatten.flatten) (pre.length + (ks.map Packet.bytes).flatten.length) false := by
  induction ks with
  | nil =>
    intro pre out fuel _ hfuel hcap
    obtain ⟨f, rfl⟩ := Nat.exists_eq_succ_of_ne_zero (Nat.ne_of_gt hfuel)
    have full : out.length = cap := by simpa using hcap.symm
    simp [decodeLoop, full]
  | cons k ks ih =>
    intro pre out fuel hwf hfuel hcap
    obtain ⟨hk, hks⟩ := List.forall_mem_cons.1 hwf
    obtain ⟨f, rfl⟩ := Nat.exists_eq_succ_of_ne_zero (Nat.ne_of_gt (Nat.zero_lt_of_lt hfuel))
    simp only [List.map_cons, List.flatten_cons, List.flatten_append, List.length_append, List.length_cons, Nat.add_mul,
      List.append_assoc] at hfuel hcap ⊢
    have written : (out ++ k.pixels.flatten).length = out.length + k.pixels.length * bpp := by
      rw [List.length_append, flatten_length_of_pixels (Packet.pixel_length hk)]
    have rest := ih (pre ++ k.bytes) (out ++ k.pixels.flatten) f hks (by omega) (by omega)
    rw [decodeLoop_packet bpp cap hb k hk pre _ out f (by omega)]
    simpa only [List.append_assoc, List.length_append, Nat.add_assoc] using rest

/-- Settles O42: every packet has a byte, so the passes that `decode` allows itself, one more than the stream's bytes, are enough. -/
theorem packetStreamDecodesToItsPixels : Obligations.PacketStreamDecodesToItsPixels := by
  intro bpp ks tail hb hwf body pixels
  have packets : ks.length ≤ body.length := by
    have nonempty : ∀ l ∈ (ks.map Packet.bytes).map List.length, 1 ≤ l := by
      simp only [List.mem_map]
      rintro l ⟨_, ⟨k, hk, rfl⟩, rfl⟩
      obtain ⟨-, -, -, -, h4, -⟩ := packetLengthFromItsHeaderByte bpp k hb (hwf k hk)
      omega
    calc ks.length = ((ks.map Packet.bytes).map List.length).length := by rw [List.length_map, List.length_map]
      _ ≤ ((ks.map Packet.bytes).map List.length).sum := List.length_le_sum_of_one_le _ nonempty
      _ = body.length := List.length_flatten.symm
  have stream := decodeLoop_packets hb tail (cap := pixels.length * bpp) ks [] [] ((body ++ tail).length + 1) hwf
    (by rw [List.length_append]; omega) (Nat.zero_add _).symm
  rw [← Nat.zero_add body.length]
  exact stream

end Sys2Proof.Machine

/-! PROOF. The header codec: the fields of the record, and the header unit's steps and whole instructions (40_header_codec R80 to R88):
O7, O8, O31, O32, O33 and O34. -/

namespace Sys2Proof.Machine

variable {s : State}

/-! ## The record (40 R82, R85, R86) -/

/-- Settles O8: a 16-bit field is `u16le` of its two bytes, and these are its `lo8` and `hi8`. -/
theorem headerRecordFields : Obligations.HeaderRecordFields :=
  ⟨fun _ => ⟨rfl, rfl, rfl, u16le_toNat _ _, u16le_toNat _ _, rfl, u16le_toNat _ _, u16le_toNat _ _, u16le_toNat _ _,
      u16le_toNat _ _, rfl, rfl⟩,
    fun _ => ⟨rfl, rfl, rfl, lo8_toNat _, hi8_toNat _, lo8_toNat _, hi8_toNat _, rfl, lo8_toNat _, hi8_toNat _, lo8_toNat _,
      hi8_toNat _, lo8_toNat _, hi8_toNat _, lo8_toNat _, hi8_toNat _, rfl, rfl⟩⟩

theorem unpack_pack (h : Header) : unpack (pack h) = h := by simp [unpack, pack]

theorem pack_unpack (b : Vector Byte 18) : pack (unpack b) = b := by
  simp only [pack, unpack, lo8_u16le, hi8_u16le]
  refine Vector.ext fun i hi => ?_
  interval_cases i <;> rfl

/-- Settles O7: `u16le` is inverse to `lo8` and `hi8`, and every byte of the record is in one field. -/
theorem packAndUnpackAreInverse : Obligations.PackAndUnpackAreInverse := ⟨unpack_pack, pack_unpack⟩

/-! ## The commands an idle block accepts (43 R143, R145, R146) -/

/-- A CMD write to an idle block is decided by what comes after the tests for M_FAULT and BUSY (43 R143). -/
theorem cmdSlot_idle (hm : s.mode = .idle) (v : Word) (act : State → State) : cmdSlot v act s = act s := by
  rw [cmdSlot, if_neg (by simp [hm]), if_neg (by simp [busy_iff, hm])]

theorem exec_cmdHdrParse_idle (hm : s.mode = .idle) : exec .cmdHdrParse s = .next (startParse s) :=
  congrArg Host.Outcome.next (cmdSlot_idle hm 1 startParse)

theorem exec_cmdHdrSerialize_idle (hm : s.mode = .idle) : exec .cmdHdrSerialize s = .next (startSerialize s) :=
  congrArg Host.Outcome.next (cmdSlot_idle hm 2 startSerialize)

/-! ## One step of the parser (40 R81) -/

theorem parseStep_eos {q : List InItem} (hq : s.inq = .eos :: q) :
    parseStep s = .faulted (raise .formatError (s.hcnt.zeroExtend 64) s) := inPop_eos hq

/-- A byte before the eighteenth. -/
theorem parseStep_more {b : Byte} {q : List InItem} (hq : s.inq = .byte b :: q) (h : s.hcnt.toNat < 17) :
    parseStep s = .stepped { s with
      inq := q, ipos := s.ipos + 1, hb := s.hb.setIfInBounds s.hcnt.toNat b, hcnt := s.hcnt + 1 } := by
  have hcase := parseStep_cases s
  generalize parseStep s = a at hcase
  cases hcase with
  | empty hq' | ended hq' => cases hq.symm.trans hq'
  | more hq' => cases hq.symm.trans hq'; rfl
  | last _ h17 => simp [h17] at h
  | outside => omega

/-- The eighteenth byte. -/
theorem parseStep_last {b : Byte} {q : List InItem} (hq : s.inq = .byte b :: q) (h : s.hcnt = 17) :
    parseStep s = .stepped { s with
      inq := q, ipos := s.ipos + 1, hb := s.hb.setIfInBounds 17 b, hcnt := 18
      hdr := unpack (s.hb.setIfInBounds 17 b), mode := .idle, done := true } := by
  have hcase := parseStep_cases s
  generalize parseStep s = a at hcase
  cases hcase with
  | empty hq' | ended hq' => cases hq.symm.trans hq'
  | last hq' => cases hq.symm.trans hq'; rfl
  | more _ hlt | outside _ hlt => simp [h] at hlt

/-- Settles O33: by the item at the head of IN, and a byte by whether it is the eighteenth. -/
theorem parserStepMovesOneByte : Obligations.ParserStepMovesOneByte := by
  refine fun s => ⟨fun hm => ⟨_, exec_cmdHdrParse_idle hm, rfl, rfl⟩, fun hm => ⟨fun hq => ?hold, fun q hq => ?eos,
    fun b q hq hlt => ?more, fun b q hq h17 => ?last⟩⟩
  case hold => rw [tick_hparse hm, parseStep_empty hq, Attempt.outcome]
  case eos => rw [tick_hparse hm, parseStep_eos hq, Attempt.outcome, raise, hm, BitVec.ofNat_toNat]; rfl
  case more => rw [tick_hparse hm, parseStep_more hq hlt, Attempt.outcome]
  case last => rw [tick_hparse hm, parseStep_last hq (BitVec.eq_of_toNat_eq h17), Attempt.outcome]

/-! ## HDR.PARSE (40 R80, R88) -/

/-- HB once its last byte is stored. -/
theorem setIfInBounds_last {hb x : Vector Byte 18} (h : ∀ i, i < 17 → hb[i]? = x[i]?) : hb.setIfInBounds 17 x[17] = x := by
  refine Vector.ext fun i hi => ?_
  rw [Vector.getElem_setIfInBounds]
  split
  next last => subst last; rfl
  next ne => simpa [hi] using h i (by omega)

/-- HDR.PARSE from a parser at its first byte, with the whole record on IN. -/
theorem exec_hdrParse_record {x : Vector Byte 18} {rest : List InItem} (hm : s.mode = .hparse) (h0 : s.hcnt = 0)
    (hq : s.inq = onIn x.toList rest) :
    exec .hdrParse s = .next { s with
      mode := .idle, done := true, hcnt := 18, hb := x, hdr := unpack x, ipos := s.ipos + 18, inq := rest } := by
  have split : x.toList = x.pop.toList ++ [x[17]] := by
    rw [← Vector.toList_push]; exact congrArg _ (Vector.push_pop_back x).symm
  have len : x.pop.toList.length = 17 := Vector.length_toList
  obtain ⟨hb, -, stored, -, run⟩ := parse_bytes x.pop.toList (onIn [x[17]] rest) 1 s hm (by simp [h0])
    (by rw [hq, split, onIn_append])
  have filled : hb.setIfInBounds 17 x[17] = x := setIfInBounds_last fun i hi => by
    simpa [h0, hi, show i < 18 by omega] using stored i (by omega)
  have counted : s.ipos + BitVec.ofNat 35 17 + 1 = s.ipos + 18 := bv_add_ofNat _ _ _
  rw [len] at run
  calc exec .hdrParse s = _ := run
    _ = _ := runUnit_stepped (by exact beq_iff_eq.2 hm) (parseStep_last (q := rest) rfl (by simp [h0])) 0
    _ = _ := by simp only [runUnit, filled, counted]

/-- Settles O31: from the command on, the parse starts with IPOS at 0. -/
theorem parseLoadsTheHeader : Obligations.ParseLoadsTheHeader := fun _ _ _ hq =>
  ⟨fun hm h0 => exec_hdrParse_record hm h0 hq,
    fun hm => ⟨_, exec_cmdHdrParse_idle hm, exec_hdrParse_record rfl rfl hq⟩⟩

/-- Settles O32: the bytes before EOS are parsed one by one, and the step after them raises FormatError with HCNT. -/
theorem shortHeaderRaisesFormatError : Obligations.ShortHeaderRaisesFormatError := by
  intro s x rest hm h0 hip hlen hq
  have hcnt0 : s.hcnt.toNat = 0 := by rw [h0]; rfl
  have ipos0 : s.ipos.toNat = 0 := by rw [hip]; rfl
  have hcnt : (s.hcnt + BitVec.ofNat 5 x.length).toNat = x.length := by rw [toNat_add_ofNat _ _ (by omega)]; omega
  have ipos : (s.ipos + BitVec.ofNat 35 x.length).toNat = x.length := by rw [toNat_add_ofNat _ _ (by omega)]; omega
  obtain ⟨k, fuel⟩ : ∃ k, Config.hdrLen = k + 1 + x.length := ⟨17 - x.length, by rw [Config.hdrLen]; omega⟩
  obtain ⟨hb, -, stored, kept, run⟩ := parse_bytes x (.eos :: rest) (k + 1) s hm (by omega) hq
  simp only [hcnt0, Nat.zero_add] at stored kept
  rw [← fuel] at run
  refine ⟨_, run.trans (runUnit_faulted (by exact beq_iff_eq.2 hm) (parseStep_eos rfl) k), rfl, rfl, ?fmode, ?arg, hcnt, ipos,
    rfl, stored, kept, ?frame⟩
  case fmode => rw [raise_errFmode, hm]; rfl
  case arg => rw [raise_errarg, BitVec.zeroExtend, BitVec.toNat_setWidth, hcnt]; omega
  case frame => rw [raise, hm]; rfl

/-! ## One step of the serializer (40 R84) -/

/-- A byte before the eighteenth. -/
theorem serializeStep_more {b : Byte} (hr : s.outReady = true) (hb : s.hb[s.hcnt.toNat]? = some b) (h : s.hcnt.toNat < 17) :
    serializeStep s = .stepped { s with outq := s.outq ++ [b], opos := s.opos + 1, hcnt := s.hcnt + 1 } := by
  have hcase := serializeStep_cases s
  generalize serializeStep s = a at hcase
  cases hcase with
  | notReady _ hr' => cases hr.symm.trans hr'
  | more => rw [hb]; rfl
  | last h17 => simp [h17] at h
  | outside => omega

/-- The eighteenth byte. -/
theorem serializeStep_last (hr : s.outReady = true) (h : s.hcnt = 17) :
    serializeStep s = .stepped { s with
      outq := s.outq ++ [s.hb[17]], opos := s.opos + 1, hcnt := 18, mode := .idle, done := true } := by
  have hcase := serializeStep_cases s
  generalize serializeStep s = a at hcase
  cases hcase with
  | notReady _ hr' => cases hr.symm.trans hr'
  | last => rfl
  | more hlt | outside hlt => simp [h] at hlt

/-! ## HDR.SERIALIZE (40 R83) -/

/-- HDR.SERIALIZE from any byte on, with OUT accepting. -/
theorem exec_hdrSerialize_ready (hr : s.outReady = true) (hm : s.mode = .hser) (h : s.hcnt.toNat < 18) :
    exec .hdrSerialize s = .next { s with
      mode := .idle, done := true, hcnt := 18
      outq := s.outq ++ s.hb.toList.drop s.hcnt.toNat, opos := s.opos + BitVec.ofNat 35 (18 - s.hcnt.toNat) } := by
  obtain ⟨n, hn⟩ : ∃ n, s.hcnt.toNat + n = 17 := ⟨17 - s.hcnt.toNat, by omega⟩
  have fuel : Config.hdrLen = s.hcnt.toNat + 1 + n := by rw [Config.hdrLen]; omega
  have at17 : s.hcnt + BitVec.ofNat 5 n = 17 := BitVec.eq_of_toNat_eq ((toNat_add_ofNat _ _ (by omega)).trans hn)
  have sent : (s.hb.toList.drop s.hcnt.toNat).take n ++ [s.hb[17]] = s.hb.toList.drop s.hcnt.toNat := by
    have len : (s.hb.toList.drop s.hcnt.toNat).length = n + 1 := by simp; omega
    have last : (s.hb.toList.drop s.hcnt.toNat)[n] = s.hb[17] := by simp [hn]
    rw [← last, List.take_append_getElem, ← len, List.take_length]
  have counted : s.opos + BitVec.ofNat 35 n + 1 = s.opos + BitVec.ofNat 35 (18 - s.hcnt.toNat) := by
    rw [show 18 - s.hcnt.toNat = n + 1 by omega]; exact bv_add_ofNat _ _ _
  have run := serialize_bytes n (s.hcnt.toNat + 1) s hm hr (by omega)
  rw [← fuel] at run
  calc exec .hdrSerialize s = _ := run
    _ = _ := runUnit_stepped (by exact beq_iff_eq.2 hm) (serializeStep_last (by exact hr) at17) _
    _ = _ := runUnit_stop rfl _
    _ = _ := by simp only [List.append_assoc, sent, counted]

/-- Settles O34: the command starts at HCNT 0 and OPOS 0, from where HDR.SERIALIZE pushes all of HB. -/
theorem serializePushesThePackedHeader : Obligations.SerializePushesThePackedHeader := by
  refine fun s => ⟨fun hr hm => ⟨_, exec_cmdHdrSerialize_idle hm, rfl, rfl, rfl,
      exec_hdrSerialize_ready hr rfl (Nat.zero_lt_succ 17)⟩, exec_hdrSerialize_ready,
    fun hr hm b hb => ⟨fun hlt => ?more, fun h17 => ?last⟩, fun hr hm hlt => ?hold⟩
  case more => rw [tick_hser hm, serializeStep_more hr hb hlt, Attempt.outcome]
  case last =>
    have hb17 : s.hb[17] = b := by simpa [h17] using hb
    rw [tick_hser hm, serializeStep_last hr (BitVec.eq_of_toNat_eq h17), Attempt.outcome, hb17]
  case hold =>
    obtain ⟨-, -, held, -⟩ := holdChangesNothing s
    exact held hr hm hlt

end Sys2Proof.Machine

/-! PROOF. The decoder's packets, whole and cut short, its faults and its writes (41_rle_decoder R98 to R106, R112): O35 to O39
and O41. The units' instructions issued elsewhere (log entry 9): O54. -/

namespace Sys2Proof.Machine

variable {s t : State} {n : BitVec 7}

/-! ## A unit's instruction outside its unit (log entry 9) -/

theorem awaitsPacket_iff (s : State) : awaitsPacket s = true ↔ s.mode = .dec ∧ s.dstate = .hdr := by simp [awaitsPacket]

theorem awaitsEmit_iff (s : State) : awaitsEmit s = true ↔ s.mode = .enc ∧ s.estate = .emitHdr := by simp [awaitsEmit]

/-- Settles O54: the packet forms test for their unit, and the header unit's instructions do not begin outside its modes. -/
theorem unitInstructionOutsideItsUnitDoesNothing : Obligations.UnitInstructionOutsideItsUnitDoesNothing := by
  refine fun s n => ⟨fun h => ?packet, fun h => ?emit, fun h => ?parse, fun h => ?serialize⟩
  case packet =>
    have idle : ¬ awaitsPacket s = true := mt (awaitsPacket_iff s).1 h
    exact ⟨if_neg idle, if_neg idle⟩
  case emit =>
    have idle : ¬ awaitsEmit s = true := mt (awaitsEmit_iff s).1 h
    exact ⟨if_neg idle, if_neg idle⟩
  case parse =>
    have stopped : (s.mode == .hparse) = false := beq_eq_false_iff_ne.2 h
    exact runUnit_stop stopped _
  case serialize =>
    have stopped : (s.mode == .hser) = false := beq_eq_false_iff_ne.2 h
    exact runUnit_stop stopped _

/-! ## The faults of a decode (41 R106) -/

/-- A tick of the decoder is its step. -/
theorem tick_of_decoderStep {a : Attempt} (hm : s.mode = .dec) (h : decoderStep s = a) : tick s = a.outcome s := by
  rw [tick_dec hm, h]

/-- TruncatedStream, as the decoder raises it (60 R162, R173). -/
theorem raise_truncatedStream (hm : s.mode = .dec) : raise .truncatedStream (iposArg s) s =
    { s with errCode := 2, errFmode := 3, errarg := s.ipos.zeroExtend 64, mode := .fault } := by
  rw [raise, hm]; rfl

/-- Settles O39: of all that a step of the decoder can do, only the pop of EOS raises anything. -/
theorem truncatedStreamInExactlyThreePlaces : Obligations.TruncatedStreamInExactlyThreePlaces := by
  refine fun s hm => ⟨fun q hq hd => ?raises, fun t ht hf => ?only⟩
  case raises => rw [tick_of_decoderStep hm (decoderStep_eos hd hq), Attempt.outcome, raise_truncatedStream hm]
  case only =>
    have running : s.mode ≠ .fault := by simp [hm]
    have hcase := decoderStep_cases s
    rw [tick_dec hm] at ht
    generalize decoderStep s = a at hcase ht
    cases hcase with
    | ended hd hq => exact ⟨hd, _, hq⟩
    | empty | header | pixMore | pixLast => cases ht; exact absurd hf running
    | out | literal => cases ht; exact absurd hf (pixelByteDone_mode _ hm)
    | outOutside | literalOutside => cases ht

/-! ## The writes of a decode (41 R112) -/

/-- A step that leaves PB does the same whatever PB holds. -/
def LeavesPbUnread (s t : State) : Prop :=
  t.prod = s.prod ∧ t.pb = s.pb ∧ ∀ m : Memory, tick { s with pb := m } = .next { t with pb := m }

/-- A step that writes one byte at PROD writes the same one whatever PB holds. -/
def WritesPbUnread (s t : State) : Prop :=
  t.prod = s.prod + 1 ∧ ∃ v : Byte, t.pb = memWrite s.pb s.prod.toNat v ∧
    ∀ m : Memory, tick { s with pb := m } = .next { t with pb := memWrite m s.prod.toNat v }

theorem tick_withPb {m : Memory} {a : Attempt} (hm : s.mode = .dec) (h : decoderStep { s with pb := m } = a) :
    tick { s with pb := m } = a.outcome { s with pb := m } := tick_of_decoderStep hm h

theorem LeavesPbUnread.of_stepped (hm : s.mode = .dec) (hprod : t.prod = s.prod) (hpb : t.pb = s.pb)
    (h : ∀ m : Memory, decoderStep { s with pb := m } = .stepped { t with pb := m }) : LeavesPbUnread s t :=
  ⟨hprod, hpb, fun m => tick_withPb hm (h m)⟩

theorem pixelByteDone_prod (s : State) : (pixelByteDone s).prod = s.prod := by rw [pixelByteDone_frame]

theorem pixelByteDone_pb_eq (s : State) : (pixelByteDone s).pb = s.pb := by rw [pixelByteDone_frame]

/-- A step that ends with a byte written to PB, the same one whatever PB holds. -/
theorem WritesPbUnread.of_byteWritten {q : List InItem} {i : BitVec 35} {v : Byte} (hm : s.mode = .dec)
    (h : ∀ m : Memory, decoderStep { s with pb := m } = .stepped (pixelByteDone { s with
      inq := q, ipos := i, pb := memWrite m s.prod.toNat v, prod := s.prod + 1 })) :
    WritesPbUnread s (pixelByteDone { s with inq := q, ipos := i, pb := memWrite s.pb s.prod.toNat v, prod := s.prod + 1 }) := by
  refine ⟨pixelByteDone_prod _, v, pixelByteDone_pb_eq _, fun m => ?_⟩
  rw [tick_withPb hm (h m), ← pixelByteDone_pb, Attempt.outcome]

/-- Settles O41: step by step; what follows a written byte does not depend on PB. -/
theorem decodeWritesInOrderAndNeverReads : Obligations.DecodeWritesInOrderAndNeverReads := by
  intro s t hm ht
  show LeavesPbUnread s t ∨ WritesPbUnread s t
  have hcase := decoderStep_cases s
  rw [tick_dec hm] at ht
  generalize decoderStep s = a at hcase ht
  cases hcase with
  | empty hd hq =>
    cases ht
    have held (m : Memory) : decoderStep { s with pb := m } = .held := decoderStep_empty hd hq
    exact .inl ⟨rfl, rfl, fun m => tick_withPb hm (held m)⟩
  | ended hd hq =>
    cases ht
    have faulted (m : Memory) : decoderStep { s with pb := m } =
        .faulted { raise .truncatedStream (iposArg s) s with pb := m } := decoderStep_eos hd hq
    exact .inl ⟨rfl, rfl, fun m => tick_withPb hm (faulted m)⟩
  | header hd hq => cases ht; exact .inl (.of_stepped hm rfl rfl fun _ => decoderStep_hdr hd hq)
  | pixMore hd hq hl => cases ht; exact .inl (.of_stepped hm rfl rfl fun _ => decoderStep_runPix_more hd hq hl)
  | pixLast hd hq hl => cases ht; exact .inl (.of_stepped hm rfl rfl fun _ => decoderStep_runPix_last hd hq hl)
  | out hd hp => cases ht; exact .inr (.of_byteWritten hm fun _ => decoderStep_runOut hd hp)
  | literal hd hq hp => cases ht; exact .inr (.of_byteWritten hm fun _ => decoderStep_raw hd hq hp)
  | outOutside | literalOutside => cases ht

/-! ## A packet cut short by the end of the stream (41 R98, R101, R106) -/

theorem exec_decRun {k : Nat} (hm : s.mode = .dec) (hd : s.dstate = .hdr) (hk : Config.runPacketSteps = k) :
    exec (.decRun n) s = runUnit decoderStep packetGoing k (dispatchPacket true n s) :=
  hk ▸ if_pos ((awaitsPacket_iff s).2 ⟨hm, hd⟩)

theorem exec_decRaw {k : Nat} (hm : s.mode = .dec) (hd : s.dstate = .hdr) (hk : Config.rawPacketSteps = k) :
    exec (.decRaw n) s = runUnit decoderStep packetGoing k (dispatchPacket false n s) :=
  hk ▸ if_pos ((awaitsPacket_iff s).2 ⟨hm, hd⟩)

/-- A packet in progress that meets EOS ends with TruncatedStream. -/
theorem runUnit_eos {q : List InItem} (hm : s.mode = .dec) (hh : s.dstate ≠ .hdr) (ho : s.dstate ≠ .runOut)
    (hq : s.inq = .eos :: q) (k : Nat) : runUnit decoderStep packetGoing (k + 1) s = .next { s with
      errCode := 2, errFmode := 3, errarg := s.ipos.zeroExtend 64, mode := .fault } := by
  rw [runUnit_faulted (packetGoing_eq hm hh) (decoderStep_eos ho hq), raise_truncatedStream hm]

/-- PIX once a pixel is in it: its bytes first, and the rest as before (41 R99). -/
theorem pixelByte_loadFrom_zero (v : Vector Byte 4) {x : List Byte} (hx : x.length ≤ 4) (j : BitVec 2) :
    pixelByte (loadFrom v 0 x) j = if j.toNat < x.length then (x[j.toNat]?).getD 0 else pixelByte v j := by
  simpa using pixelByte_loadFrom v 0 x (by omega) j

/-- Settles O37: the bytes there are stand in PIX when the pop of EOS raises the fault. -/
theorem runPacketCutShortFaults : Obligations.RunPacketCutShortFaults := by
  intro s n x rest hm hd hb hx hq
  obtain ⟨k, fuel⟩ : ∃ k, Config.runPacketSteps = k + 1 + x.length :=
    ⟨515 - x.length, by rw [Config.runPacketSteps]; omega⟩
  have bytes := runPix_bytes (k + 1) x (.eos :: rest) (dispatchPacket true n s) hm rfl hb (by simpa using hx) hq
  have cut := bytes.trans (runUnit_eos (q := rest) (by exact hm) (by simp) (by simp) rfl k)
  refine ⟨_, (exec_decRun hm hd fuel).trans cut, rfl, rfl, rfl, fun j => ?pix, ?frame⟩
  case pix => exact pixelByte_loadFrom_zero s.pix (by omega) j
  case frame => simp [dispatchPacket]

/-- Taking from a counter that is large enough does not wrap. -/
theorem sub_ofNat_eq {w : Nat} (x : BitVec w) {j : Nat} (h : j ≤ x.toNat) :
    x - BitVec.ofNat w j = BitVec.ofNat w (x.toNat - j) := by
  apply BitVec.eq_of_toNat_eq
  have := x.isLt
  rw [BitVec.toNat_sub_of_le (by rw [BitVec.le_def, BitVec.toNat_ofNat, Nat.mod_eq_of_lt (by omega)]; exact h),
    BitVec.toNat_ofNat, BitVec.toNat_ofNat, Nat.mod_eq_of_lt (by omega), Nat.mod_eq_of_lt (by omega)]

/-- The first `k` bytes of a stream and what follows them. -/
theorem exists_append_of_le_length {k : Nat} {x : List Byte} (h : k ≤ x.length) : ∃ xs ys, x = xs ++ ys ∧ xs.length = k :=
  ⟨x.take k, x.drop k, (List.take_append_drop k x).symm, List.length_take_of_le h⟩

/-- Literal bytes that end neither the packet nor the buffer: whole pixels, and the first bytes of another. -/
theorem raw_stream (k : Nat) (x : List Byte) (rest : List InItem) (hm : s.mode = .dec) (hd : s.dstate = .raw)
    (hb : s.bpp = 3 ∨ s.bpp = 4) (hi : s.dbi = 0) (hl : x.length / s.bpp < s.pktLeft.toNat)
    (hp : s.prod.toNat + x.length < s.cap) (hq : s.inq = onIn x rest) :
    runUnit decoderStep packetGoing (k + x.length) s = runUnit decoderStep packetGoing k { s with
      pb := memWriteList s.pb s.prod.toNat x, prod := s.prod + BitVec.ofNat 34 x.length
      ipos := s.ipos + BitVec.ofNat 35 x.length, inq := rest
      pktLeft := s.pktLeft - BitVec.ofNat 8 (x.length / s.bpp), dbi := BitVec.ofNat 2 (x.length % s.bpp) } := by
  have hlt := cap_lt hb
  have split : x.length / s.bpp * s.bpp + x.length % s.bpp = x.length := Nat.div_add_mod' _ _
  have short : x.length % s.bpp < s.bpp := Nat.mod_lt _ (by omega)
  generalize x.length / s.bpp = j at hl split ⊢
  generalize x.length % s.bpp = r at split short ⊢
  obtain ⟨xs, ys, rfl, hxs⟩ := exists_append_of_le_length (x := x) (k := j * s.bpp) (by omega)
  rw [List.length_append] at split hp ⊢
  have hys : ys.length = r := by omega
  have prod := toNat_add_ofNat s.prod (j * s.bpp) (by omega)
  have pixels := raw_pixels (k + ys.length) (onIn ys rest) j xs s hm hd hb hi hl hxs (by omega) (by rw [hq, onIn_append])
  have bytes := raw_bytes k ys rest { s with
    pb := memWriteList s.pb s.prod.toNat xs, prod := s.prod + BitVec.ofNat 34 (j * s.bpp)
    ipos := s.ipos + BitVec.ofNat 35 (j * s.bpp), inq := onIn ys rest, pktLeft := s.pktLeft - BitVec.ofNat 8 j }
    hm hd hb (by rw [prod]; show _ ≤ s.cap; omega) (by rw [hi]; show 0 + ys.length < s.bpp; omega) rfl
  rw [hxs, show k + (j * s.bpp + ys.length) = k + ys.length + j * s.bpp by omega]
  refine (pixels.trans bytes).trans ?_
  have dbi : s.dbi + BitVec.ofNat 2 r = BitVec.ofNat 2 r := by rw [hi]; exact BitVec.zero_add _
  simp only [prod, dbi, hys, memWriteList_append, hxs, bv_add_ofNat]

/-- The pixels a packet of `n + 1` finds room for: one at least, and within the packet, the buffer and the steps an instruction
takes. -/
theorem pixels_in_room {p m : Nat} (n : BitVec 7) (hb : s.bpp = 3 ∨ s.bpp = 4) (hp : p < s.cap) (hpm : p % s.bpp = 0)
    (hmin : m = min (packetCount n).toNat ((s.cap - p) / s.bpp)) :
    1 ≤ m ∧ m ≤ (packetCount n).toNat ∧ p + m * s.bpp ≤ s.cap ∧ s.bpp ≤ m * s.bpp ∧ m * s.bpp ≤ 512 := by
  obtain ⟨-, h1, fits, -, -, -⟩ := room_facts s.cap p s.bpp (packetCount n).toNat hb hp hpm (cap_mod s) (packetCount_pos n)
    _ m rfl hmin
  have count := packetCount_le n
  have one : 1 * s.bpp ≤ m * s.bpp := Nat.mul_le_mul_right _ h1
  have steps : m * s.bpp ≤ 128 * 4 := Nat.mul_le_mul (by omega) (by omega)
  exact ⟨h1, by omega, fits, by omega, steps⟩

/-- Settles O38: the literals there are have been written when the pop of EOS raises the fault. -/
theorem rawPacketCutShortFaults : Obligations.RawPacketCutShortFaults := by
  intro s n x rest hm hd hb hp hpm hx hq
  obtain ⟨-, hle, fits, -, steps⟩ := pixels_in_room n hb hp hpm rfl
  have pixels : x.length / s.bpp < (packetCount n).toNat :=
    (Nat.div_lt_iff_lt_mul (by omega)).2 (hx.trans_le (Nat.mul_le_mul_right _ hle))
  have hlt := cap_lt hb
  obtain ⟨k, fuel⟩ : ∃ k, Config.rawPacketSteps = k + 1 + x.length :=
    ⟨511 - x.length, by rw [Config.rawPacketSteps]; omega⟩
  have bytes := raw_stream (k + 1) x (.eos :: rest) (s := dispatchPacket false n s) hm rfl hb rfl pixels
    (show s.prod.toNat + x.length < s.cap by omega) hq
  have cut := bytes.trans (runUnit_eos (q := rest) (by exact hm) (by simp) (by simp) rfl k)
  refine ⟨_, (exec_decRaw hm hd fuel).trans cut, holdsAt_memWriteList _ _ _, sameOutside_memWriteList _ _ _,
    toNat_add_ofNat _ _ (show s.prod.toNat + x.length < 2 ^ 34 by omega), rfl, ?frame⟩
  case frame => rw [← sub_ofNat_eq _ pixels.le]; rfl

/-! ## A whole packet, as far as there is room (41 R98, R101, R103 to R105) -/

/-- The literals of a raw packet, as far as there is room: the last of them is followed by `pixel_done()`. -/
theorem raw_literals (k m : Nat) (x : List Byte) (rest : List InItem) (hm : s.mode = .dec) (hd : s.dstate = .raw)
    (hb : s.bpp = 3 ∨ s.bpp = 4) (hi : s.dbi = 0) (hl : m < s.pktLeft.toNat) (hx : x.length = (m + 1) * s.bpp)
    (hp : s.prod.toNat + (m + 1) * s.bpp ≤ s.cap) (hq : s.inq = onIn x rest) :
    runUnit decoderStep packetGoing (k + (m + 1) * s.bpp) s = runUnit decoderStep packetGoing k (pixelDone { s with
      pb := memWriteList s.pb s.prod.toNat x, prod := s.prod + BitVec.ofNat 34 ((m + 1) * s.bpp)
      ipos := s.ipos + BitVec.ofNat 35 ((m + 1) * s.bpp), inq := rest, pktLeft := s.pktLeft - BitVec.ofNat 8 m }) := by
  have hlt := cap_lt hb
  rw [Nat.succ_mul] at hx hp ⊢
  obtain ⟨xs, ys, rfl, hxs⟩ := exists_append_of_le_length (x := x) (k := m * s.bpp) (by omega)
  rw [List.length_append] at hx
  have prod := toNat_add_ofNat s.prod (m * s.bpp) (by omega)
  have before := raw_pixels (k + s.bpp) (onIn ys rest) m xs s hm hd hb hi hl hxs (by omega) (by rw [hq, onIn_append])
  have last := raw_pixel k ys rest (s := { s with
    pb := memWriteList s.pb s.prod.toNat xs, prod := s.prod + BitVec.ofNat 34 (m * s.bpp)
    ipos := s.ipos + BitVec.ofNat 35 (m * s.bpp), inq := onIn ys rest, pktLeft := s.pktLeft - BitVec.ofNat 8 m })
    hm hd hb hi (show ys.length = s.bpp by omega) (by rw [prod]; show _ + s.bpp ≤ s.cap; omega) rfl
  rw [Nat.add_comm (m * s.bpp), ← Nat.add_assoc]
  refine (before.trans last).trans ?_
  rw [← hi]
  simp only [prod, memWriteList_append, hxs]
  rw [Nat.add_comm s.bpp, ← bv_add_ofNat, ← bv_add_ofNat]
  rfl

/-- Copies of a pixel, one after the other. -/
theorem copies_length {bpp : Nat} {x : List Byte} (m : Nat) (hx : x.length = bpp) :
    (List.replicate m x).flatten.length = m * bpp := by
  rw [flatten_length_of_pixels fun y hy => List.eq_of_mem_replicate hy ▸ hx, List.length_replicate]

/-- The copies of a run packet's pixel, as far as there is room: the last of them is followed by `pixel_done()`. -/
theorem runOut_copies (k m : Nat) (x : List Byte) (hm : s.mode = .dec) (hd : s.dstate = .runOut)
    (hb : s.bpp = 3 ∨ s.bpp = 4) (hi : s.dbi = 0) (hl : m < s.pktLeft.toNat) (hxl : x.length = s.bpp)
    (hx : ∀ j : BitVec 2, j.toNat < s.bpp → x[j.toNat]? = some (pixelByte s.pix j))
    (hp : s.prod.toNat + (m + 1) * s.bpp ≤ s.cap) :
    runUnit decoderStep packetGoing (k + (m + 1) * s.bpp) s = runUnit decoderStep packetGoing k (pixelDone { s with
      pb := memWriteList s.pb s.prod.toNat (List.replicate (m + 1) x).flatten
      prod := s.prod + BitVec.ofNat 34 ((m + 1) * s.bpp), pktLeft := s.pktLeft - BitVec.ofNat 8 m }) := by
  have hlt := cap_lt hb
  rw [Nat.succ_mul] at hp ⊢
  have prod := toNat_add_ofNat s.prod (m * s.bpp) (by omega)
  have before := runOut_pixels (k + s.bpp) x m s hm hd hb hi hxl hx hl (by omega)
  have last := runOut_pixel k x (s := { s with
    pb := memWriteList s.pb s.prod.toNat (List.replicate m x).flatten
    prod := s.prod + BitVec.ofNat 34 (m * s.bpp), pktLeft := s.pktLeft - BitVec.ofNat 8 m })
    hm hd hb hi hxl hx (by rw [prod]; show _ + s.bpp ≤ s.cap; omega)
  rw [Nat.add_comm (m * s.bpp), ← Nat.add_assoc]
  refine (before.trans last).trans ?_
  rw [← hi]
  have written := copies_length m hxl
  simp only [prod, List.replicate_succ', List.flatten_append, List.flatten_singleton, memWriteList_append, written]
  rw [Nat.add_comm s.bpp, ← bv_add_ofNat]
  rfl

/-- A run packet after its header byte: its pixel into PIX, then the copies of it, as far as there is room. -/
theorem runPix_copies (k m : Nat) (x : List Byte) (rest : List InItem) (hm : s.mode = .dec) (hd : s.dstate = .runPix)
    (hb : s.bpp = 3 ∨ s.bpp = 4) (hi : s.dbi = 0) (hl : m < s.pktLeft.toNat) (hx : x.length = s.bpp)
    (hp : s.prod.toNat + (m + 1) * s.bpp ≤ s.cap) (hq : s.inq = onIn x rest) :
    runUnit decoderStep packetGoing (k + (m + 1) * s.bpp + s.bpp) s = runUnit decoderStep packetGoing k (pixelDone { s with
      pix := loadFrom s.pix 0 x, ipos := s.ipos + BitVec.ofNat 35 s.bpp, dstate := .runOut, inq := rest
      pb := memWriteList s.pb s.prod.toNat (List.replicate (m + 1) x).flatten
      prod := s.prod + BitVec.ofNat 34 ((m + 1) * s.bpp), pktLeft := s.pktLeft - BitVec.ofNat 8 m, dbi := 0 }) := by
  have latched (j : BitVec 2) (hj : j.toNat < s.bpp) : x[j.toNat]? = some (pixelByte (loadFrom s.pix 0 x) j) := by
    rw [pixelByte_loadFrom_zero s.pix (by omega), if_pos (by omega), List.getElem?_eq_getElem (by omega), Option.getD_some]
  exact (runPix_pixel (k + (m + 1) * s.bpp) x rest hm hd hb hi hx hq).trans
    (runOut_copies k m x (s := { s with
      pix := loadFrom s.pix 0 x, ipos := s.ipos + BitVec.ofNat 35 s.bpp, dbi := 0, dstate := .runOut, inq := rest })
      hm rfl hb rfl hl hx latched hp)

/-- The end of a packet of `c` pixels, begun at byte `p` of PB, with the last pixel that finds room: the decode completes with it
when the buffer is full, and else the packet was whole. -/
theorem packet_end (k : Nat) {p c m : Nat} (hm : s.mode = .dec) (hb : s.bpp = 3 ∨ s.bpp = 4) (hp : p < s.cap)
    (hpm : p % s.bpp = 0) (hc : 1 ≤ c) (hmin : m = min c ((s.cap - p) / s.bpp)) (hprod : s.prod.toNat = p + m * s.bpp)
    (hleft : s.pktLeft.toNat + (m - 1) = c) :
    let full : Bool := p + m * s.bpp = s.cap
    runUnit decoderStep packetGoing k (pixelDone s) = .next { s with
      pktLeft := BitVec.ofNat 8 (c - m), dstate := if full then s.dstate else .hdr
      ovr := s.ovr || decide ((s.cap - p) / s.bpp < c), mode := if full then .idle else .dec, done := s.done || full } := by
  obtain ⟨-, h1, -, -, atCap, -⟩ := room_facts s.cap p s.bpp c hb hp hpm (cap_mod s) hc _ m rfl hmin
  refine lastPixel_done k s c m hm hb hleft (by omega) h1 _ _ (by rw [hprod]) (by omega) ?_
  rw [Bool.eq_iff_iff, Bool.and_eq_true, decide_eq_true_iff, decide_eq_true_iff, decide_eq_true_iff, atCap]
  omega

/-- The instruction at hand where a packet-header byte is awaited and stands on IN (41 R97). -/
theorem fetchUnit_packet {isRun : Bool} {q : List InItem} (hm : s.mode = .dec) (hd : s.dstate = .hdr)
    (hq : s.inq = .byte (packetByte isRun n) :: q) :
    fetchUnit s = some (if isRun then .decRun n else .decRaw n, { s with inq := q, ipos := s.ipos + 1 }) := by
  simp only [fetchUnit, hm, hd, hq, decode_packetIn_packetByte]

/-- PKT_LEFT after all pixels of the packet but the last of the `j + 1` that find room. -/
theorem left_before_last {j : Nat} (h : j + 1 ≤ (packetCount n).toNat) :
    (packetCount n - BitVec.ofNat 8 j).toNat + j = (packetCount n).toNat := by
  have := packetCount_le n
  rw [sub_ofNat_eq _ (by omega), BitVec.toNat_ofNat]
  omega

/-- Settles O36: the literals up to the last that finds room, and `pixel_done()` after it. -/
theorem rawPacketCopiesItsPixels : Obligations.RawPacketCopiesItsPixels := by
  intro s n x rest hm hd hb hp hpm hx hq
  refine ⟨fetchUnit_packet (isRun := false) hm hd hq, ?_⟩
  generalize hmin : min (packetCount n).toNat ((s.cap - s.prod.toNat) / s.bpp) = m at hx ⊢
  obtain ⟨h1, hle, fits, -, steps⟩ := pixels_in_room n hb hp hpm hmin.symm
  obtain ⟨j, rfl⟩ : ∃ j, m = j + 1 := ⟨m - 1, by omega⟩
  obtain ⟨k, fuel⟩ : ∃ k, Config.rawPacketSteps = k + (j + 1) * s.bpp :=
    ⟨512 - (j + 1) * s.bpp, by rw [Config.rawPacketSteps]; omega⟩
  have prod := toNat_add_ofNat s.prod ((j + 1) * s.bpp) (fits.trans_lt (cap_lt hb))
  have literals := raw_literals k j x rest (s := dispatchPacket false n { s with inq := onIn x rest, ipos := s.ipos + 1 })
    hm rfl hb rfl hle hx fits rfl
  have ended := literals.trans
    (packet_end k (by exact hm) (by exact hb) hp hpm (packetCount_pos n) hmin.symm prod (left_before_last hle))
  exact ⟨_, (exec_decRaw (by exact hm) (by exact hd) fuel).trans ended, holdsAt_memWriteList _ _ _,
    hx ▸ sameOutside_memWriteList _ _ _, prod, rfl⟩

/-- Settles O35: the pixel into PIX, its copies up to the last that finds room, and `pixel_done()` after it. -/
theorem runPacketExpandsItsPixel : Obligations.RunPacketExpandsItsPixel := by
  intro s n x rest hm hd hb hp hpm hx hq
  refine ⟨fetchUnit_packet (isRun := true) hm hd hq, ?_⟩
  generalize hmin : min (packetCount n).toNat ((s.cap - s.prod.toNat) / s.bpp) = m
  obtain ⟨h1, hle, fits, -, steps⟩ := pixels_in_room n hb hp hpm hmin.symm
  obtain ⟨j, rfl⟩ : ∃ j, m = j + 1 := ⟨m - 1, by omega⟩
  obtain ⟨k, fuel⟩ : ∃ k, Config.runPacketSteps = k + (j + 1) * s.bpp + s.bpp :=
    ⟨516 - (j + 1) * s.bpp - s.bpp, by rw [Config.runPacketSteps]; omega⟩
  have prod := toNat_add_ofNat s.prod ((j + 1) * s.bpp) (fits.trans_lt (cap_lt hb))
  have copies := runPix_copies k j x rest (s := dispatchPacket true n { s with inq := onIn x rest, ipos := s.ipos + 1 })
    hm rfl hb rfl hle hx fits rfl
  have ended := copies.trans
    (packet_end k (by exact hm) (by exact hb) hp hpm (packetCount_pos n) hmin.symm prod (left_before_last hle))
  have written := copies_length (j + 1) hx
  exact ⟨_, (exec_decRun (by exact hm) (by exact hd) fuel).trans ended, holdsAt_memWriteList _ _ _,
    written ▸ sameOutside_memWriteList _ _ _, prod, hx ▸ pixelByte_loadFrom_zero s.pix (by omega), rfl⟩

end Sys2Proof.Machine

/-! PROOF. The decoder agrees with the function `decode` (41 R109, R110, R114): O40. The decode follows `loop(out, i)` packet by
packet, each packet one step of the machine, whose meaning O35 to O39 give. -/

namespace Sys2Proof.Machine

variable {s t : State} {n : BitVec 7}

/-! ## One pass of `decode` (41 R109) -/

section pass
variable {bpp cap fuel i : Nat} {S out x rest : List Byte}

theorem decodeLoop_full (h : out.length = cap) : decodeLoop bpp cap S (fuel + 1) out i = .done out i false := by
  simp only [decodeLoop, if_pos h]

theorem decodeLoop_ended (h : out.length ≠ cap) (hS : S.drop i = []) :
    decodeLoop bpp cap S (fuel + 1) out i = .truncated out i := by
  simp only [decodeLoop, if_neg h, hS]

theorem decodeLoop_run_cut (h : out.length ≠ cap) (hS : S.drop i = packetByte true n :: rest) (hr : rest.length < bpp) :
    decodeLoop bpp cap S (fuel + 1) out i = .truncated out S.length := by
  simp only [decodeLoop, if_neg h, hS, packetIsRun_packetByte, if_true, if_pos hr]

theorem decodeLoop_raw_cut (h : out.length ≠ cap) (hS : S.drop i = packetByte false n :: rest)
    (hr : rest.length < min (packetCount n).toNat ((cap - out.length) / bpp) * bpp) :
    decodeLoop bpp cap S (fuel + 1) out i = .truncated (out ++ rest) S.length := by
  simp only [decodeLoop, if_neg h, hS, packetIsRun_packetByte, packetCountField_packetByte, Bool.false_eq_true, if_false,
    if_pos hr]

/-- What `decode` does after a packet of `count` pixels with room for `room` of them. -/
def decodeAfterPacket (bpp cap : Nat) (S : List Byte) (fuel count room : Nat) (out : List Byte) (i : Nat) : DecodeResult :=
  if room < count then .done out i true else decodeLoop bpp cap S fuel out i

/-- With the buffer full the decode is done, whether the packet was clipped or ended there. -/
theorem decodeAfterPacket_full {count room : Nat} (h : out.length = cap) :
    decodeAfterPacket bpp cap S (fuel + 1) count room out i = .done out i (decide (room < count)) := by
  rw [decodeAfterPacket, decodeLoop_full h]
  split
  next clipped => rw [decide_eq_true clipped]
  next whole => rw [decide_eq_false whole]

theorem decodeLoop_run (h : out.length ≠ cap) (hS : S.drop i = packetByte true n :: (x ++ rest)) (hx : x.length = bpp) :
    decodeLoop bpp cap S (fuel + 1) out i = decodeAfterPacket bpp cap S fuel (packetCount n).toNat ((cap - out.length) / bpp)
      (out ++ (List.replicate (min (packetCount n).toNat ((cap - out.length) / bpp)) x).flatten) (i + 1 + x.length) := by
  have enough : ¬ (x ++ rest).length < bpp := by simp [hx]
  have pixel : (x ++ rest).take bpp = x := by simp [← hx]
  simp only [decodeLoop, if_neg h, hS, packetIsRun_packetByte, packetCountField_packetByte, if_true, if_neg enough, pixel, hx,
    decodeAfterPacket]

theorem decodeLoop_raw (h : out.length ≠ cap) (hS : S.drop i = packetByte false n :: (x ++ rest))
    (hx : x.length = min (packetCount n).toNat ((cap - out.length) / bpp) * bpp) :
    decodeLoop bpp cap S (fuel + 1) out i = decodeAfterPacket bpp cap S fuel (packetCount n).toNat ((cap - out.length) / bpp)
      (out ++ x) (i + 1 + x.length) := by
  have enough : ¬ (x ++ rest).length < x.length := by simp
  simp only [decodeLoop, if_neg h, hS, packetIsRun_packetByte, packetCountField_packetByte, Bool.false_eq_true, if_false, ← hx,
    if_neg enough, List.take_left, decodeAfterPacket]

/-- The stream behind a packet's header byte and the `x` that follow it. -/
theorem drop_behind {p : Byte} (hS : S.drop i = p :: (x ++ rest)) :
    S.drop (i + 1 + x.length) = rest ∧ i + 1 + x.length + rest.length = S.length := by
  have len := congrArg List.length hS
  simp only [List.length_drop, List.length_cons, List.length_append] at len
  refine ⟨?_, by omega⟩
  rw [Nat.add_assoc, ← List.drop_drop, hS, Nat.add_comm 1, List.drop_succ_cons, List.drop_left]

end pass

/-! ## A decode from its command to its end (41 R110) -/

/-- A decode leaves the header and geometry registers and OUT (20 R55). -/
def DecodeKeeps (s t : State) : Prop :=
  t.hdr = s.hdr ∧ t.geomW = s.geomW ∧ t.geomH = s.geomH ∧ t.geomBpp = s.geomBpp ∧ t.outq = s.outq

/-- `t` is the end that the result of `decode` gives of a decode of `S` begun in `s`. -/
def DecodeEnds (s : State) (S : List Byte) (t : State) : DecodeResult → Prop
  | .done out used ovr =>
    t.mode = .idle ∧ t.done = true ∧ t.ovr = ovr ∧ t.prod.toNat = s.cap ∧ t.ipos.toNat = used ∧
    out.length = s.cap ∧ HoldsAt t.pb 0 out ∧ SameOutside s.pb t.pb 0 s.cap ∧
    t.inq = onIn (S.drop used) [.eos]
  | .truncated out used =>
    t.mode = .fault ∧ t.errCode = 2 ∧ t.errFmode = 3 ∧ t.errarg.toNat = used ∧ t.ipos.toNat = used ∧
    t.prod.toNat = out.length ∧ HoldsAt t.pb 0 out ∧ SameOutside s.pb t.pb 0 out.length ∧
    t.inq = [.eos]

/-- From `u`, the decode of `S` begun in `s` reaches the end that `r` gives within `N` steps. -/
def DecodeReaches (s : State) (S : List Byte) (N : Nat) (u : State) (r : DecodeResult) : Prop :=
  ∃ k t, k ≤ N ∧ steps k u = .next t ∧ DecodeKeeps s t ∧ DecodeEnds s S t r

/-- The decode of `S` begun in `s` awaits a packet after `out` has been written and `i` bytes consumed. With R113's bound on IPOS,
as every packet consumes at most 4 bytes for every 3 it writes. -/
structure BetweenPackets (s : State) (S out : List Byte) (i : Nat) (u : State) : Prop where
  mode : u.mode = .dec
  dstate : u.dstate = .hdr
  turns : u.turns = []
  rst : u.rst = false
  ovr : u.ovr = false
  keeps : DecodeKeeps s u
  bpp : s.bpp = 3 ∨ s.bpp = 4
  prod : u.prod.toNat = out.length
  room : out.length < s.cap
  aligned : out.length % s.bpp = 0
  ipos : u.ipos.toNat = i
  used : 3 * i ≤ 4 * out.length
  within : i ≤ S.length
  inq : u.inq = onIn (S.drop i) [.eos]
  holds : HoldsAt u.pb 0 out
  same : SameOutside s.pb u.pb 0 out.length

variable {u v : State} {S out w : List Byte} {i N M : Nat} {r : DecodeResult}

theorem DecodeReaches.here (hk : DecodeKeeps s u) (he : DecodeEnds s S u r) : DecodeReaches s S N u r :=
  ⟨0, u, Nat.zero_le N, rfl, hk, he⟩

theorem DecodeReaches.after_step (hs : step u = .next v) (h : DecodeReaches s S N v r) (hN : N < M) :
    DecodeReaches s S M u r := by
  obtain ⟨k, t, hk, hrun, hend⟩ := h
  exact ⟨k + 1, t, by omega, steps_succ hs hrun, hend⟩

theorem DecodeKeeps.trans (h : DecodeKeeps s u) (h' : DecodeKeeps u v) : DecodeKeeps s v := by
  obtain ⟨hhdr, hW, hH, hB, ho⟩ := h
  obtain ⟨hhdr', hW', hH', hB', ho'⟩ := h'
  exact ⟨hhdr'.trans hhdr, hW'.trans hW, hH'.trans hH, hB'.trans hB, ho'.trans ho⟩

theorem DecodeKeeps.bpp (h : DecodeKeeps s u) : u.bpp = s.bpp := by
  obtain ⟨-, -, -, hB, -⟩ := h
  rw [State.bpp, State.bpp, hB]

theorem DecodeKeeps.cap (h : DecodeKeeps s u) : u.cap = s.cap := by
  obtain ⟨-, hW, hH, hB, -⟩ := h
  rw [State.cap, State.cap, hW, hH, hB]

/-! ### The stream ends -/

/-- From `u` to `t` the stream ended: `w` has been written, `x` bytes consumed, and TruncatedStream raised. -/
structure StreamEnded (u t : State) (w : List Byte) (x : Nat) : Prop where
  mode : t.mode = .fault
  code : t.errCode = 2
  fmode : t.errFmode = 3
  arg : t.errarg = t.ipos.zeroExtend 64
  keeps : DecodeKeeps u t
  ipos : t.ipos = u.ipos + BitVec.ofNat 35 x
  inq : t.inq = [.eos]
  prod : t.prod.toNat = u.prod.toNat + w.length
  holds : HoldsAt t.pb u.prod.toNat w
  same : SameOutside u.pb t.pb u.prod.toNat w.length

/-- Where the stream ends the decode ends, `decode` having consumed all of it. R113's bound keeps IPOS from wrapping. -/
theorem BetweenPackets.reaches_truncated {x : Nat} (h : BetweenPackets s S out i u) (hs : step u = .next t)
    (ht : StreamEnded u t w x) (hi : i + x = S.length) (hx : x ≤ s.cap - out.length + 4) (hN : 1 ≤ N) :
    DecodeReaches s S N u (.truncated (out ++ w) S.length) := by
  have hlt := cap_lt h.bpp
  have used := h.used
  have room := h.room
  have ipos : t.ipos.toNat = S.length := by
    rw [ht.ipos, toNat_add_ofNat _ _ (by rw [h.ipos]; omega), h.ipos, hi]
  have arg : t.errarg.toNat = S.length := by
    rw [ht.arg, BitVec.zeroExtend, BitVec.toNat_setWidth, ipos]; omega
  have holds := ht.holds
  have same := ht.same
  rw [h.prod] at holds same
  refine .after_step (N := 0) hs (.here (h.keeps.trans ht.keeps) ⟨ht.mode, ht.code, ht.fmode, arg, ipos, ?prod,
    holdsAt_append h.holds holds same, ?same, ht.inq⟩) hN
  case prod => rw [ht.prod, h.prod, List.length_append]
  case same => rw [List.length_append]; exact sameOutside_append h.same same

/-- A step with an instruction at hand runs it (70 R202). -/
theorem step_fetched {j : Instr} (ht : u.turns = []) (hr : u.rst = false) (hf : fetchUnit u = some (j, v)) :
    step u = exec j v := by
  rw [step_undisturbed ht hr]
  simp only [runBlock, hf]

variable {x : List Byte}

theorem BetweenPackets.inq_packet {p : Byte} (h : BetweenPackets s S out i u) (hS : S.drop i = p :: x) :
    u.inq = .byte p :: onIn x [.eos] := by
  rw [h.inq, hS, onIn, List.map_cons, List.cons_append, onIn]

theorem BetweenPackets.step_packet {isRun : Bool} (h : BetweenPackets s S out i u) (hS : S.drop i = packetByte isRun n :: x) :
    step u = exec (if isRun then .decRun n else .decRaw n) { u with inq := onIn x [.eos], ipos := u.ipos + 1 } :=
  step_fetched h.turns h.rst (fetchUnit_packet h.mode h.dstate (h.inq_packet hS))

theorem BetweenPackets.legal_bpp (h : BetweenPackets s S out i u) : u.bpp = 3 ∨ u.bpp = 4 := h.keeps.bpp ▸ h.bpp

theorem BetweenPackets.prod_lt_cap (h : BetweenPackets s S out i u) : u.prod.toNat < u.cap := by
  rw [h.prod, h.keeps.cap]; exact h.room

theorem BetweenPackets.prod_aligned (h : BetweenPackets s S out i u) : u.prod.toNat % u.bpp = 0 := by
  rw [h.prod, h.keeps.bpp]; exact h.aligned

/-- What the fault left: the decoder's own registers and latches, and ERR. -/
theorem StreamEnded.of_frame {y : Nat} (frame : t = { u with
      dstate := t.dstate, pktRun := t.pktRun, pktLeft := t.pktLeft, pix := t.pix, dbi := t.dbi, ipos := t.ipos
      prod := t.prod, pb := t.pb, inq := [.eos], errCode := 2, errFmode := 3, errarg := t.errarg, mode := .fault })
    (arg : t.errarg = t.ipos.zeroExtend 64) (ipos : t.ipos = u.ipos + BitVec.ofNat 35 y)
    (prod : t.prod.toNat = u.prod.toNat + w.length) (holds : HoldsAt t.pb u.prod.toNat w)
    (same : SameOutside u.pb t.pb u.prod.toNat w.length) : StreamEnded u t w y where
  mode := by rw [frame]
  code := by rw [frame]
  fmode := by rw [frame]
  arg := arg
  keeps := by rw [frame]; exact ⟨rfl, rfl, rfl, rfl, rfl⟩
  ipos := ipos
  inq := by rw [frame]
  prod := prod
  holds := holds
  same := same

/-- EOS where a packet-header byte is awaited. -/
theorem BetweenPackets.step_ended (h : BetweenPackets s S out i u) (hS : S.drop i = []) :
    ∃ t, step u = .next t ∧ StreamEnded u t [] 0 := by
  have eos : u.inq = [.eos] := by rw [h.inq, hS]; rfl
  have noInstr : fetchUnit u = none := by simp only [fetchUnit, h.mode, h.dstate, eos]
  obtain ⟨faults, -⟩ := truncatedStreamInExactlyThreePlaces u h.mode
  have run := faults [] eos (by simp [h.dstate])
  rw [← runBlock_of_fetchUnit_none noInstr, ← step_undisturbed h.turns h.rst] at run
  exact ⟨_, run, .of_frame (by rw [eos]) rfl (BitVec.add_zero _).symm rfl nofun fun _ _ => rfl⟩

/-- A run packet whose pixel the stream does not hold. -/
theorem BetweenPackets.step_run_cut (h : BetweenPackets s S out i u) (hS : S.drop i = packetByte true n :: x)
    (hx : x.length < s.bpp) : ∃ t, step u = .next t ∧ StreamEnded u t [] (1 + x.length) := by
  obtain ⟨t, run, pb, prod, arg, -, frame⟩ := runPacketCutShortFaults { u with inq := onIn x [.eos], ipos := u.ipos + 1 }
    n x [] h.mode h.dstate h.legal_bpp (h.keeps.bpp ▸ hx) rfl
  have ipos : t.ipos = u.ipos + 1 + BitVec.ofNat 35 x.length := by rw [frame]
  exact ⟨t, (h.step_packet hS).trans run, .of_frame (by rw [frame]) arg (ipos.trans (bv_add_ofNat _ 1 _)) (by rw [prod]; rfl)
    nofun (by rw [pb]; exact fun _ _ => rfl)⟩

/-- A raw packet whose literals, as far as there is room, the stream does not hold. -/
theorem BetweenPackets.step_raw_cut (h : BetweenPackets s S out i u) (hS : S.drop i = packetByte false n :: x)
    (hx : x.length < min (packetCount n).toNat ((s.cap - out.length) / s.bpp) * s.bpp) :
    ∃ t, step u = .next t ∧ StreamEnded u t x (1 + x.length) := by
  rw [← h.prod, ← h.keeps.bpp, ← h.keeps.cap] at hx
  obtain ⟨t, run, holds, same, prod, arg, frame⟩ := rawPacketCutShortFaults { u with inq := onIn x [.eos], ipos := u.ipos + 1 }
    n x [] h.mode h.dstate h.legal_bpp h.prod_lt_cap h.prod_aligned hx rfl
  have ipos : t.ipos = u.ipos + 1 + BitVec.ofNat 35 x.length := by rw [frame]
  exact ⟨t, (h.step_packet hS).trans run, .of_frame (by rw [frame]) arg (ipos.trans (bv_add_ofNat _ 1 _)) prod holds same⟩

/-! ### A whole packet -/

/-- From `u` to `t` a packet has been read that wrote `w` and was `clipped` or not, and of which `x` bytes were consumed and `q` is
what follows them. -/
structure PacketWritten (u t : State) (w : List Byte) (x : Nat) (q : List InItem) (clipped : Bool) : Prop where
  full : u.prod.toNat + w.length = u.cap → t.mode = .idle ∧ t.done = true
  goesOn : u.prod.toNat + w.length ≠ u.cap → t.mode = .dec ∧ t.dstate = .hdr
  turns : t.turns = u.turns
  rst : t.rst = u.rst
  keeps : DecodeKeeps u t
  ovr : t.ovr = (u.ovr || clipped)
  ipos : t.ipos = u.ipos + BitVec.ofNat 35 x
  inq : t.inq = q
  prod : t.prod.toNat = u.prod.toNat + w.length
  holds : HoldsAt t.pb u.prod.toNat w
  same : SameOutside u.pb t.pb u.prod.toNat w.length

/-- What a whole packet left: the decoder's own registers and latches, OVR, DONE and MODE. -/
theorem PacketWritten.of_frame {y : Nat} {q : List InItem} {clipped full : Bool} {d : DState}
    (hfull : full = decide (u.prod.toNat + w.length = u.cap)) (frame : t = { u with
      dstate := if full then d else .hdr, pktRun := t.pktRun, pktLeft := t.pktLeft, pix := t.pix, dbi := t.dbi
      ipos := u.ipos + 1 + BitVec.ofNat 35 y, prod := t.prod, pb := t.pb, inq := q, ovr := u.ovr || clipped
      mode := if full then .idle else .dec, done := u.done || full })
    (prod : t.prod.toNat = u.prod.toNat + w.length) (holds : HoldsAt t.pb u.prod.toNat w)
    (same : SameOutside u.pb t.pb u.prod.toNat w.length) : PacketWritten u t w (1 + y) q clipped where
  full := fun h => by rw [frame]; simp [hfull, h]
  goesOn := fun h => by rw [frame]; simp [hfull, h]
  turns := by rw [frame]
  rst := by rw [frame]
  keeps := by rw [frame]; exact ⟨rfl, rfl, rfl, rfl, rfl⟩
  ovr := by rw [frame]
  ipos := by rw [frame]; exact bv_add_ofNat u.ipos 1 y
  inq := by rw [frame]
  prod := prod
  holds := holds
  same := same

variable {rest : List Byte}

/-- A run packet whose pixel is there. -/
theorem BetweenPackets.step_run (h : BetweenPackets s S out i u) (hS : S.drop i = packetByte true n :: (x ++ rest))
    (hx : x.length = s.bpp) : ∃ t, step u = .next t ∧
      PacketWritten u t (List.replicate (min (packetCount n).toNat ((s.cap - out.length) / s.bpp)) x).flatten (1 + x.length)
        (onIn rest [.eos]) (decide ((s.cap - out.length) / s.bpp < (packetCount n).toNat)) := by
  rw [← h.keeps.bpp] at hx
  rw [← h.prod, ← h.keeps.bpp, ← h.keeps.cap]
  obtain ⟨-, t, run, holds, same, prod, -, frame⟩ := runPacketExpandsItsPixel u n x (onIn rest [.eos]) h.mode h.dstate
    h.legal_bpp h.prod_lt_cap h.prod_aligned hx (by rw [h.inq_packet hS, onIn_append])
  rw [← onIn_append] at run
  generalize min (packetCount n).toNat ((u.cap - u.prod.toNat) / u.bpp) = m at holds same prod frame ⊢
  have written := copies_length m hx
  rw [← written] at same prod frame
  exact ⟨t, (h.step_packet hS).trans run, .of_frame (d := .runOut) rfl (by rw [hx, frame]) prod holds same⟩

/-- A raw packet whose literals, as far as there is room, are there. -/
theorem BetweenPackets.step_raw (h : BetweenPackets s S out i u) (hS : S.drop i = packetByte false n :: (x ++ rest))
    (hx : x.length = min (packetCount n).toNat ((s.cap - out.length) / s.bpp) * s.bpp) : ∃ t, step u = .next t ∧
      PacketWritten u t x (1 + x.length) (onIn rest [.eos]) (decide ((s.cap - out.length) / s.bpp < (packetCount n).toNat)) := by
  rw [← h.prod, ← h.keeps.bpp, ← h.keeps.cap] at hx ⊢
  obtain ⟨-, t, run, holds, same, prod, frame⟩ := rawPacketCopiesItsPixels u n x (onIn rest [.eos]) h.mode h.dstate h.legal_bpp
    h.prod_lt_cap h.prod_aligned hx (by rw [h.inq_packet hS, onIn_append])
  rw [← onIn_append] at run
  rw [← hx] at same prod frame
  exact ⟨t, (h.step_packet hS).trans run, .of_frame (d := .raw) rfl (by rw [frame]) prod holds same⟩

section after
variable {p : Byte} {clipped : Bool} (h : BetweenPackets s S out i u)
  (ht : PacketWritten u t w (1 + x.length) (onIn rest [.eos]) clipped) (hS : S.drop i = p :: (x ++ rest))
  (fits : out.length + w.length ≤ s.cap) (used : 3 * (1 + x.length) ≤ 4 * w.length)
include h ht

include fits used in
/-- IPOS counts the bytes of the packet: R113's bound keeps it from wrapping. -/
theorem BetweenPackets.ipos_after_packet : t.ipos.toNat = i + 1 + x.length := by
  have hlt := cap_lt h.bpp
  have before := h.used
  rw [ht.ipos, toNat_add_ofNat _ _ (by rw [h.ipos]; omega), h.ipos, Nat.add_assoc]

theorem BetweenPackets.holds_after_packet : HoldsAt t.pb 0 (out ++ w) :=
  holdsAt_append h.holds (h.prod ▸ ht.holds) (h.prod ▸ ht.same)

theorem BetweenPackets.same_after_packet : SameOutside s.pb t.pb 0 (out ++ w).length := by
  rw [List.length_append]
  exact sameOutside_append h.same (h.prod ▸ ht.same)

theorem BetweenPackets.prod_after_packet : t.prod.toNat = (out ++ w).length := by
  rw [ht.prod, h.prod, List.length_append]

include hS fits used

/-- A packet that fills the buffer completes the decode (41 R103). -/
theorem BetweenPackets.ends_at_capacity (full : out.length + w.length = s.cap) :
    DecodeEnds s S t (.done (out ++ w) (i + 1 + x.length) clipped) := by
  obtain ⟨mode, done⟩ := ht.full (by rw [h.prod, h.keeps.cap, full])
  obtain ⟨behind, -⟩ := drop_behind hS
  have len : (out ++ w).length = s.cap := by rw [List.length_append, full]
  refine ⟨mode, done, ?ovr, (h.prod_after_packet ht).trans len, h.ipos_after_packet ht fits used, len, h.holds_after_packet ht,
    len ▸ h.same_after_packet ht, ?inq⟩
  case ovr => rw [ht.ovr, h.ovr, Bool.false_or]
  case inq => rw [ht.inq, behind]

/-- After a packet that leaves room the next one is awaited. -/
theorem BetweenPackets.next_packet (room : out.length + w.length ≠ s.cap) (whole : w.length % s.bpp = 0)
    (hclip : clipped = false) : BetweenPackets s S (out ++ w) (i + 1 + x.length) t := by
  obtain ⟨mode, dstate⟩ := ht.goesOn (by rw [h.prod, h.keeps.cap]; exact room)
  obtain ⟨behind, len⟩ := drop_behind hS
  have before := h.used
  exact {
    mode := mode
    dstate := dstate
    turns := ht.turns.trans h.turns
    rst := ht.rst.trans h.rst
    ovr := by rw [ht.ovr, h.ovr, hclip]; rfl
    keeps := h.keeps.trans ht.keeps
    bpp := h.bpp
    prod := h.prod_after_packet ht
    room := by rw [List.length_append]; omega
    aligned := by rw [List.length_append, Nat.add_mod, h.aligned, whole]; simp
    ipos := h.ipos_after_packet ht fits used
    used := by rw [List.length_append]; omega
    within := by omega
    inq := by rw [ht.inq, behind]
    holds := h.holds_after_packet ht
    same := h.same_after_packet ht }

end after

/-- From every state between packets that `loop(out, i)` can be in, the decode reaches the end that `loop(out, i)` gives. -/
def LoopReaches (s : State) (S : List Byte) (fuel : Nat) : Prop :=
  ∀ (u : State) (out : List Byte) (i : Nat), BetweenPackets s S out i u → S.length < i + fuel →
    DecodeReaches s S (s.cap - out.length + 1) u (decodeLoop s.bpp s.cap S fuel out i)

/-- A whole packet, and what the decode reaches after it: its end, or what `loop` gives from there. -/
theorem BetweenPackets.reaches_after_packet {p : Byte} {fuel m : Nat} (h : BetweenPackets s S out i u)
    (ih : LoopReaches s S fuel) (hfuel : S.length < i + (fuel + 1)) (hs : step u = .next t)
    (ht : PacketWritten u t w (1 + x.length) (onIn rest [.eos]) (decide ((s.cap - out.length) / s.bpp < (packetCount n).toNat)))
    (hS : S.drop i = p :: (x ++ rest)) (used : 3 * (1 + x.length) ≤ 4 * w.length)
    (hmin : m = min (packetCount n).toNat ((s.cap - out.length) / s.bpp)) (hw : w.length = m * s.bpp) :
    DecodeReaches s S (s.cap - out.length + 1) u (decodeAfterPacket s.bpp s.cap S fuel (packetCount n).toNat
      ((s.cap - out.length) / s.bpp) (out ++ w) (i + 1 + x.length)) := by
  obtain ⟨-, h1, fits, -, atCap, -⟩ := room_facts s.cap out.length s.bpp (packetCount n).toNat h.bpp h.room h.aligned
    (cap_mod s) (packetCount_pos n) _ m rfl hmin
  obtain ⟨-, len⟩ := drop_behind hS
  have bpp := h.bpp
  have onePixel : 1 * s.bpp ≤ m * s.bpp := Nat.mul_le_mul_right _ h1
  rw [← hw] at fits atCap onePixel
  by_cases full : out.length + w.length = s.cap
  · have ends := h.ends_at_capacity ht hS fits used full
    obtain ⟨f, rfl⟩ : ∃ f, fuel = f + 1 := ⟨fuel - 1, by omega⟩
    rw [decodeAfterPacket_full (by rw [List.length_append, full])]
    exact .after_step hs (.here (h.keeps.trans ht.keeps) ends) (Nat.succ_pos _)
  · have unclipped : ¬ (s.cap - out.length) / s.bpp < (packetCount n).toNat := by
      have := mt atCap.2 full
      omega
    have awaits := h.next_packet ht hS fits used full (by rw [hw]; exact Nat.mul_mod_left _ _) (decide_eq_false unclipped)
    rw [decodeAfterPacket, if_neg unclipped]
    exact .after_step hs (ih t _ _ awaits (by omega)) (by rw [List.length_append]; omega)

/-- EOS where a packet-header byte is awaited. -/
theorem BetweenPackets.reaches_ended {fuel : Nat} (h : BetweenPackets s S out i u) (hS : S.drop i = []) :
    DecodeReaches s S (s.cap - out.length + 1) u (decodeLoop s.bpp s.cap S (fuel + 1) out i) := by
  obtain ⟨t, run, ended⟩ := h.step_ended hS
  have all : i = S.length := Nat.le_antisymm h.within (List.drop_eq_nil_iff.1 hS)
  rw [decodeLoop_ended (Nat.ne_of_lt h.room) hS, ← out.append_nil, all]
  exact h.reaches_truncated run ended all (Nat.zero_le _) (Nat.succ_pos _)

/-- A run packet. -/
theorem BetweenPackets.reaches_run {fuel : Nat} {y : List Byte} (h : BetweenPackets s S out i u) (ih : LoopReaches s S fuel)
    (hfuel : S.length < i + (fuel + 1)) (hS : S.drop i = packetByte true n :: y) :
    DecodeReaches s S (s.cap - out.length + 1) u (decodeLoop s.bpp s.cap S (fuel + 1) out i) := by
  have notFull := Nat.ne_of_lt h.room
  have bpp := h.bpp
  by_cases hy : y.length < s.bpp
  · obtain ⟨t, run, ended⟩ := h.step_run_cut hS hy
    obtain ⟨-, len⟩ := drop_behind (rest := []) (y.append_nil.symm ▸ hS)
    rw [decodeLoop_run_cut notFull hS hy, ← out.append_nil]
    exact h.reaches_truncated run ended (by rw [← len]; simp; omega) (by omega) (Nat.succ_pos _)
  · obtain ⟨x, rest, rfl, hx⟩ := exists_append_of_le_length (Nat.le_of_not_lt hy)
    obtain ⟨-, -, -, one, -⟩ := pixels_in_room n h.bpp h.room h.aligned rfl
    obtain ⟨t, run, written⟩ := h.step_run hS hx
    have hw := copies_length (min (packetCount n).toNat ((s.cap - out.length) / s.bpp)) hx
    rw [decodeLoop_run notFull hS hx]
    exact h.reaches_after_packet ih hfuel run written hS (by omega) rfl hw

/-- A raw packet. -/
theorem BetweenPackets.reaches_raw {fuel : Nat} {y : List Byte} (h : BetweenPackets s S out i u) (ih : LoopReaches s S fuel)
    (hfuel : S.length < i + (fuel + 1)) (hS : S.drop i = packetByte false n :: y) :
    DecodeReaches s S (s.cap - out.length + 1) u (decodeLoop s.bpp s.cap S (fuel + 1) out i) := by
  have notFull := Nat.ne_of_lt h.room
  have bpp := h.bpp
  obtain ⟨-, -, fits, one, -⟩ := pixels_in_room n h.bpp h.room h.aligned rfl
  by_cases hy : y.length < min (packetCount n).toNat ((s.cap - out.length) / s.bpp) * s.bpp
  · obtain ⟨t, run, ended⟩ := h.step_raw_cut hS hy
    obtain ⟨-, len⟩ := drop_behind (rest := []) (y.append_nil.symm ▸ hS)
    rw [decodeLoop_raw_cut notFull hS hy]
    exact h.reaches_truncated run ended (by rw [← len]; simp; omega) (by omega) (Nat.succ_pos _)
  · obtain ⟨x, rest, rfl, hx⟩ := exists_append_of_le_length (Nat.le_of_not_lt hy)
    obtain ⟨t, run, written⟩ := h.step_raw hS hx
    rw [decodeLoop_raw notFull hS hx]
    exact h.reaches_after_packet ih hfuel run written hS (by omega) rfl hx

/-- The decode follows `loop(out, i)` packet by packet (41 R109, R110). -/
theorem loop_reaches (s : State) (S : List Byte) (fuel : Nat) : LoopReaches s S fuel := by
  induction fuel with
  | zero => intro u out i h hfuel; have := h.within; omega
  | succ fuel ih =>
    intro u out i h hfuel
    match hS : S.drop i with
    | [] => exact h.reaches_ended hS
    | p :: y =>
      rw [← packetByte_fields p] at hS
      cases hr : packetIsRun p <;> rw [hr] at hS
      · exact h.reaches_raw ih hfuel hS
      · exact h.reaches_run ih hfuel hS

/-! ### The command -/

theorem exec_cmdDecode_idle (hm : s.mode = .idle) (hb : s.bpp = 3 ∨ s.bpp = 4) : exec .cmdDecode s = .next (startDecode s) := by
  have legal : Config.legalBpp s.bpp = true := by simpa [Config.legalBpp] using hb
  show Host.Outcome.next (cmdSlot 3 (needLegalBpp startDecode) s) = _
  rw [cmdSlot_idle hm, needLegalBpp, if_pos legal]

/-- A decode of no bytes is complete at once (41 R96, R108). -/
theorem startDecode_empty (h : s.cap = 0) : startDecode s = finish (acceptCommand 3 s) := if_pos h

/-- A decode of some bytes awaits its first packet (43 R150). -/
theorem startDecode_some (h : s.cap ≠ 0) :
    startDecode s = { acceptCommand 3 s with mode := .dec, dstate := .hdr, dbi := 0 } := if_neg h

/-- The decode of `S` that 3 written to CMD begins. -/
theorem BetweenPackets.start (hb : s.bpp = 3 ∨ s.bpp = 4) (hr : s.rst = false) (hq : s.inq = onIn S [.eos]) (hc : s.cap ≠ 0) :
    BetweenPackets s S [] 0 (startDecode { s with turns := [] }) := by
  rw [startDecode_some (by exact hc)]
  exact {
    mode := rfl
    dstate := rfl
    turns := rfl
    rst := hr
    ovr := rfl
    keeps := ⟨rfl, rfl, rfl, rfl, rfl⟩
    bpp := hb
    prod := rfl
    room := Nat.pos_of_ne_zero hc
    aligned := Nat.zero_mod _
    ipos := rfl
    used := Nat.zero_le _
    within := Nat.zero_le _
    inq := hq
    holds := nofun
    same := fun _ _ => rfl }

/-- Settles O40: the command starts `loop([], 0)`, which the decode follows packet by packet, each packet one step. -/
theorem decodeAgreesWithTheFunction : Obligations.DecodeAgreesWithTheFunction := by
  intro s S hm hr hb hq ht
  have command : step s = .next (startDecode { s with turns := [] }) := by
    rw [step_turn ht]
    show (if s.rst then _ else _) = _
    rw [hr]
    exact exec_cmdDecode_idle hm hb
  have reaches : DecodeReaches s S (s.cap + 2) s (decodeFn s.bpp s.cap S) := by
    by_cases hc : s.cap = 0
    · have result : decodeFn s.bpp s.cap S = .done [] 0 false := decodeLoop_full hc.symm
      rw [result]
      rw [startDecode_empty (by exact hc)] at command
      exact .after_step command (.here (N := 0) ⟨rfl, rfl, rfl, rfl, rfl⟩
        ⟨rfl, rfl, rfl, hc.symm, rfl, hc.symm, nofun, fun _ _ => rfl, hq⟩) (by omega)
    · exact .after_step command (loop_reaches s S _ _ _ _ (.start hb hr hq hc) (by omega)) (by simp)
  obtain ⟨k, t, hk, run, ⟨hhdr, hW, hH, hB, ho⟩, ends⟩ := reaches
  refine ⟨k, t, by omega, run, hhdr, hW, hH, hB, ho, ?_⟩
  generalize decodeFn s.bpp s.cap S = r at ends
  cases r with
  | done | truncated => exact ends

end Sys2Proof.Machine

/-! PROOF. The encoder's packets: the header byte of every run length, a whole packet emitted, and what no step of the encoder does
(42_rle_encoder R124 to R127, R131, R138): O3, O43, O44 and O45. -/

namespace Sys2Proof.Machine

variable {s t : State} {n : BitVec 7}

/-! ## The emitted header byte (30 R69, R71; 42 R126) -/

/-- A run of two pixels and more is that of a count field other than 0 (30 R69). -/
theorem exists_packetCount {r : BitVec 8} (h2 : 2 ≤ r.toNat) (h128 : r.toNat ≤ 128) :
    ∃ n : BitVec 7, 1 ≤ n.toNat ∧ packetCount n = r :=
  ⟨BitVec.ofNat 7 (r.toNat - 1), by rw [BitVec.toNat_ofNat]; omega,
    BitVec.eq_of_toNat_eq (packetCount_ofNat_pred (by omega) h128)⟩

/-- The header byte of a run of two pixels and more stands for ENC.EMIT_RUN with the run's count field. -/
theorem decode_emitHeader_packetCount (hn : 1 ≤ n.toNat) : decode (.packetOut (emitHeader (packetCount n))) = .ok (.encEmitRun n) := by
  have nonzero : n ≠ 0 := by rintro rfl; exact absurd hn (by decide)
  rw [emitHeader_run n hn, decode_packetOut_packetByte_true nonzero]

/-- Settles O3: a run of one has the raw header of one pixel, a longer run its count field under bit 7. -/
theorem emittedHeaderByteOfEveryRun : Obligations.EmittedHeaderByteOfEveryRun := by
  refine fun r h1 h128 => ⟨fun hr => ?single, fun h2 => ?run⟩
  case single =>
    obtain rfl : r = 1 := BitVec.eq_of_toNat_eq hr
    exact ⟨emitHeader_one, rfl⟩
  case run =>
    have value := emitHeader_toNat h2 h128
    obtain ⟨n, hn, rfl⟩ := exists_packetCount h2 h128
    exact ⟨by omega, by omega, n, rfl, decode_emitHeader_packetCount hn⟩

/-! ## A whole packet emitted (42 R124 to R127) -/

/-- The packet of the counted run ends with the image. -/
def lastPacket (s : State) : Bool := decide (s.pidx.toNat + s.run.toNat = s.npix)

/-- The state after the packet of the counted run, header byte and pixel (42 R126, R127). -/
def emitted (s : State) : State :=
  { s with
    outq := s.outq ++ emitHeader s.run :: s.cur.toList.take s.bpp
    opos := s.opos + 1 + BitVec.ofNat 35 s.bpp
    pidx := s.pidx + s.run.zeroExtend 32, ebi := 0
    estate := if lastPacket s then .emitPix else .load
    mode := if lastPacket s then .idle else .enc
    done := s.done || lastPacket s }

/-- A run within the image does not make PIDX wrap. -/
theorem pidx_add_run_toNat (fits : s.pidx.toNat + s.run.toNat ≤ s.npix) :
    (s.pidx + s.run.zeroExtend 32).toNat = s.pidx.toNat + s.run.toNat := by
  have := npix_lt s
  have run : (s.run.zeroExtend 32).toNat = s.run.toNat := by simp; omega
  rw [BitVec.toNat_add, run, Nat.mod_eq_of_lt (by omega)]

theorem encoderStep_emitHdr (he : s.estate = .emitHdr) (hr : s.outReady = true) : encoderStep s = .stepped { s with
    outq := s.outq ++ [emitHeader s.run], opos := s.opos + 1, ebi := 0, estate := .emitPix } := by
  simp only [encoderStep, he, encEmitHdrStep, outPush_ready hr]

/-- The last byte of the packet's pixel: the encode completes with the last pixel of the image, and else loads the next (42 R127). -/
theorem encoderStep_pix_last (he : s.estate = .emitPix) (hr : s.outReady = true) (hl : s.ebi.toNat + 1 = s.bpp)
    (hm : s.mode = .enc) (fits : s.pidx.toNat + s.run.toNat ≤ s.npix) : encoderStep s = .stepped { s with
      outq := s.outq ++ [pixelByte s.cur s.ebi], opos := s.opos + 1, ebi := 0, pidx := s.pidx + s.run.zeroExtend 32
      estate := if lastPacket s then .emitPix else .load
      mode := if lastPacket s then .idle else .enc
      done := s.done || lastPacket s } := by
  rw [encoderStep_pix he hr, if_pos hl]
  simp only [pidx_add_run_toNat fits, lastPacket, decide_eq_true_eq]
  split
  next last => simp [finish, last, he]
  next more => simp [more, hm]

/-- A packet is in progress where its header byte is due. -/
theorem emitGoing_hdr (hm : s.mode = .enc) (he : s.estate = .emitHdr) : emitGoing s = true := by simp [emitGoing, hm, he]

/-- Behind a packet's last byte the instruction has ended. -/
theorem emitGoing_after_packet {last : Bool} (hm : s.mode = if last then .idle else .enc)
    (he : s.estate = if last then .emitPix else .load) : emitGoing s = false := by
  cases last <;> simp_all [emitGoing]

/-- The bytes of the packet's pixel, all but the last and then the last. -/
theorem runUnit_emitPix (k : Nat) (hm : s.mode = .enc) (he : s.estate = .emitPix) (hr : s.outReady = true)
    (hb : s.bpp = 3 ∨ s.bpp = 4) (hi : s.ebi = 0) (fits : s.pidx.toNat + s.run.toNat ≤ s.npix) :
    runUnit encoderStep emitGoing (k + s.bpp) s = .next { s with
      outq := s.outq ++ s.cur.toList.take s.bpp, opos := s.opos + BitVec.ofNat 35 s.bpp
      pidx := s.pidx + s.run.zeroExtend 32, ebi := 0
      estate := if lastPacket s then .emitPix else .load
      mode := if lastPacket s then .idle else .enc
      done := s.done || lastPacket s } := by
  obtain ⟨m, hbpp⟩ : ∃ m, s.bpp = m + 1 := ⟨s.bpp - 1, by omega⟩
  have index : (s.ebi + BitVec.ofNat 2 m).toNat = m := by rw [hi]; simp; omega
  have pixel : s.cur.toList.take (m + 1) = s.cur.toList.take m ++ [pixelByte s.cur (s.ebi + BitVec.ofNat 2 m)] := by
    rw [List.take_add_one]
    simp only [pixelByte, index]
    simp
  have bytes := emit_bytes m s hm he hr hb hi (by omega) (k + 1)
  have last := runUnit_stepped (by exact emitGoing_pix hm he) (encoderStep_pix_last (s := { s with
      outq := s.outq ++ s.cur.toList.take m, opos := s.opos + BitVec.ofNat 35 m, ebi := s.ebi + BitVec.ofNat 2 m })
    he hr (by rw [index]; exact hbpp.symm) hm fits) k
  rw [hbpp, show k + (m + 1) = k + 1 + m by omega]
  refine (bytes.trans last).trans ((runUnit_stop (emitGoing_after_packet rfl rfl) k).trans ?_)
  simp only [pixel, List.append_assoc]
  rw [← bv_add_ofNat]
  rfl

/-- The packet of the counted run, whole: its header byte, then its pixel. -/
theorem runUnit_emit (hm : s.mode = .enc) (he : s.estate = .emitHdr) (hb : s.bpp = 3 ∨ s.bpp = 4) (hr : s.outReady = true)
    (fits : s.pidx.toNat + s.run.toNat ≤ s.npix) :
    runUnit encoderStep emitGoing Config.emitSteps s = .next (emitted s) := by
  obtain ⟨k, fuel⟩ : ∃ k, Config.emitSteps = k + s.bpp + 1 := ⟨4 - s.bpp, by rw [Config.emitSteps]; omega⟩
  have header := runUnit_stepped (emitGoing_hdr hm he) (encoderStep_emitHdr he hr) (k + s.bpp)
  have pixel := runUnit_emitPix k (s := { s with
    outq := s.outq ++ [emitHeader s.run], opos := s.opos + 1, ebi := 0, estate := .emitPix }) hm rfl hr hb rfl fits
  rw [fuel]
  refine (header.trans pixel).trans ?_
  simp only [List.append_assoc, List.singleton_append]
  rfl

theorem exec_encEmitRun (hm : s.mode = .enc) (he : s.estate = .emitHdr) :
    exec (.encEmitRun n) s = runUnit encoderStep emitGoing Config.emitSteps { s with run := packetCount n } :=
  if_pos ((awaitsEmit_iff s).2 ⟨hm, he⟩)

theorem exec_encEmitRaw1 (hm : s.mode = .enc) (he : s.estate = .emitHdr) :
    exec .encEmitRaw1 s = runUnit encoderStep emitGoing Config.emitSteps { s with run := 1 } :=
  if_pos ((awaitsEmit_iff s).2 ⟨hm, he⟩)

theorem packetCount_eq_ofNat (n : BitVec 7) : packetCount n = BitVec.ofNat 8 (n.toNat + 1) := by
  apply BitVec.eq_of_toNat_eq
  rw [packetCount_toNat, BitVec.toNat_ofNat]
  omega

/-- Settles O43: the packet of a run of `n + 1`, whose header byte is the run header with `n`. -/
theorem emitRunPacket : Obligations.EmitRunPacket := by
  intro s n hm he hb hr hn fits
  have count := packetCount_toNat n
  have header : emitHeader (packetCount n) = 0x80 ||| n.zeroExtend 8 := by rw [emitHeader_run n hn, packetByte_true]
  have run : (packetCount n).zeroExtend 32 = BitVec.ofNat 32 (n.toNat + 1) := by
    apply BitVec.eq_of_toNat_eq
    rw [BitVec.zeroExtend, BitVec.toNat_setWidth, count, BitVec.toNat_ofNat]
  rw [exec_encEmitRun hm he, runUnit_emit (by exact hm) (by exact he) (by exact hb) (by exact hr) (by exact count ▸ fits)]
  simp only [emitted, lastPacket, header, run, count]
  rw [packetCount_eq_ofNat]
  rfl

/-- Settles O44: the packet of a run of one, whose header byte is 0x00. -/
theorem emitSinglePixelPacket : Obligations.EmitSinglePixelPacket := by
  intro s hm he hb hr fits
  rw [exec_encEmitRaw1 hm he]
  exact runUnit_emit (s := { s with run := 1 }) hm he hb hr fits

/-! ## What no step of the encoder does (42 R131, R138) -/

/-- No step of the encoder enters M_FAULT. -/
theorem encoderStep_no_fault (hm : s.mode = .enc) : (encoderStep s).Leaves fun t => t.mode ≠ .fault := by
  have running : s.mode ≠ .fault := by simp [hm]
  have hcase := encoderStep_cases s
  generalize encoderStep s = a at hcase
  cases hcase with
  | loadUnwritten | loadOutside | scanUnwritten | scanOutside | notReady => trivial
  | loadMore | loadLast | scanDiffers | scanMore | scanLast | header | pixMore | pixLast => exact running
  | pixDone => exact nofun

/-- Settles O45: no step faults, each writes the encoder's own state only (O58), and moves at most one byte to OUT (O52). -/
theorem encoderOnlyReadsPbAndPushes : Obligations.EncoderOnlyReadsPbAndPushes := by
  intro s t hm ht
  obtain ⟨-, -, -, writes⟩ := unitsWriteOnlyTheirOwnState s t ht
  obtain ⟨-, pushes, -⟩ := atomicStepMovesSingleBytes s t ht
  exact ⟨(encoderStep_no_fault hm).of_outcome (s := s) (by simp [hm]) (tick_enc hm ▸ ht), writes hm, pushes⟩

end Sys2Proof.Machine

/-! PROOF. The functions `runlen` and `encode`, packet by packet (42_rle_encoder R128, R129, R133 to R135): O47, O48, O49 and O50. -/

namespace Sys2Proof.Machine

variable {bpp npix i r : Nat} {P x : List Byte}

/-! ## `runlen(i)` (42 R128) -/

/-- A run of `r` pixels from pixel `i` on, as R128 admits it. -/
def RunFits (bpp npix : Nat) (P : List Byte) (i r : Nat) : Prop :=
  1 ≤ r ∧ r ≤ 128 ∧ i + r ≤ npix ∧ ∀ k, i < k → k < i + r → pixelOf bpp P k = pixelOf bpp P i

theorem runLen_fits (hi : i < npix) : RunFits bpp npix P i (runLen bpp npix P i) := by
  obtain ⟨pos, le, inside, equal, -⟩ := runLen_spec bpp npix P i hi
  exact ⟨pos, le, inside, equal⟩

/-- A run that cannot go on is no shorter than any other. -/
theorem RunFits.le_of_maximal {q : Nat} (hq : RunFits bpp npix P i q)
    (maximal : r = 128 ∨ i + r = npix ∨ pixelOf bpp P (i + r) ≠ pixelOf bpp P i) (hr : 1 ≤ r) : q ≤ r := by
  obtain ⟨-, le, inside, equal⟩ := hq
  rcases maximal with full | last | differs
  · omega
  · omega
  · exact Nat.le_of_not_lt fun longer => differs (equal (i + r) (by omega) (by omega))

theorem RunFits.le_runLen (hr : RunFits bpp npix P i r) (hi : i < npix) : r ≤ runLen bpp npix P i := by
  obtain ⟨pos, -, -, -, maximal⟩ := runLen_spec bpp npix P i hi
  exact hr.le_of_maximal maximal pos

/-- A run that cannot go on is `runlen`. -/
theorem RunFits.eq_runLen (hr : RunFits bpp npix P i r)
    (maximal : r = 128 ∨ i + r = npix ∨ pixelOf bpp P (i + r) ≠ pixelOf bpp P i) : runLen bpp npix P i = r := by
  obtain ⟨pos, -, inside, -⟩ := id hr
  have hi : i < npix := by omega
  exact Nat.le_antisymm ((runLen_fits hi).le_of_maximal maximal pos) (hr.le_runLen hi)

/-- Settles O47: `runlen` is a run that cannot go on, and no run is longer than such a one. -/
theorem runLengthIsTheLargest : Obligations.RunLengthIsTheLargest :=
  fun _ _ _ _ hi => ⟨runLen_fits hi, fun _ fits => RunFits.le_runLen fits hi⟩

/-! ## `enc(i)` (42 R129) -/

/-- What `enc` gives does not depend on its bound on the packets, as long as there is one for each pixel left. -/
theorem encodeFrom_fuel (f g : Nat) : ∀ i, npix ≤ i + f → npix ≤ i + g →
    encodeFrom bpp npix P f i = encodeFrom bpp npix P g i := by
  induction f generalizing g with
  | zero =>
    intro i hf _
    cases g with
    | zero => rfl
    | succ g => rw [encodeFrom, encodeFrom, if_pos (by omega)]
  | succ f ih =>
    intro i hf hg
    by_cases ended : npix ≤ i
    · cases g <;> simp [encodeFrom, ended]
    · obtain ⟨g, rfl⟩ : ∃ g', g = g' + 1 := ⟨g - 1, by omega⟩
      obtain ⟨pos, -⟩ := runLen_fits (bpp := bpp) (P := P) (Nat.lt_of_not_le ended)
      simp only [encodeFrom, if_neg ended]
      rw [ih g _ (by omega) (by omega)]

/-- `enc(i)`: the encoding of the pixels from `i` on. -/
def encodeRest (bpp npix : Nat) (P : List Byte) (i : Nat) : List Byte := encodeFrom bpp npix P (npix - i) i

theorem encodeFn_eq_encodeRest (bpp npix : Nat) (P : List Byte) : encodeFn bpp npix P = encodeRest bpp npix P 0 := rfl

theorem encodeRest_end (h : npix ≤ i) : encodeRest bpp npix P i = [] := by
  rw [encodeRest, Nat.sub_eq_zero_of_le h, encodeFrom]

/-- A packet for the run at pixel `i`, and the encoding of what follows it. -/
theorem encodeRest_packet (hi : i < npix) : encodeRest bpp npix P i =
    emitHeader (BitVec.ofNat 8 (runLen bpp npix P i)) :: (pixelOf bpp P i ++ encodeRest bpp npix P (i + runLen bpp npix P i)) := by
  obtain ⟨f, fuel⟩ : ∃ f, npix - i = f + 1 := ⟨npix - i - 1, by omega⟩
  obtain ⟨pos, -⟩ := runLen_fits (bpp := bpp) (P := P) hi
  simp only [encodeRest, fuel, encodeFrom, if_neg (Nat.not_le.2 hi)]
  rw [encodeFrom_fuel f (npix - (i + runLen bpp npix P i)) _ (by omega) (by omega)]

/-- Induction along the packets of an encode, from the last back: what holds behind the image, and at a pixel of it if it holds behind
the run there, holds everywhere. -/
theorem encode_induction {motive : Nat → Prop} (bpp npix : Nat) (P : List Byte) (ended : ∀ i, npix ≤ i → motive i)
    (packet : ∀ i, i < npix → motive (i + runLen bpp npix P i) → motive i) (i : Nat) : motive i := by
  by_cases last : npix ≤ i
  · exact ended i last
  · have inside : i < npix := Nat.lt_of_not_le last
    obtain ⟨pos, -⟩ := runLen_fits (bpp := bpp) (P := P) inside
    exact packet i inside (encode_induction bpp npix P ended packet _)
termination_by npix - i

/-! ## The length of an encode (42 R134) -/

/-- An encode of the pixels from `i` on is `m` packets of one pixel, each for 1 to 128 pixels. -/
theorem encodeRest_length (hP : P.length = npix * bpp) (i : Nat) :
    ∃ m, (encodeRest bpp npix P i).length = m * (1 + bpp) ∧ m ≤ npix - i ∧ npix - i ≤ 128 * m ∧
      ((∀ k, k + 1 < npix → pixelOf bpp P (k + 1) ≠ pixelOf bpp P k) → m = npix - i) := by
  induction i using encode_induction bpp npix P with
  | ended i hi => exact ⟨0, by rw [encodeRest_end hi]; simp, by omega, by omega, fun _ => by omega⟩
  | packet i hi ih =>
    obtain ⟨m, length, le, ge, alone⟩ := ih
    obtain ⟨pos, le128, inside, equal⟩ := runLen_fits (bpp := bpp) (P := P) hi
    have pixel := pixelOf_length hP hi
    refine ⟨m + 1, ?length, by omega, by omega, fun differ => ?alone⟩
    case length =>
      rw [encodeRest_packet hi, List.length_cons, List.length_append, length, pixel, Nat.succ_mul]
      omega
    case alone =>
      have single : runLen bpp npix P i = 1 := by
        by_contra more
        exact differ i (by omega) (equal (i + 1) (by omega) (by omega))
      have := alone differ
      omega

/-- Settles O50: an encode is a number of packets of one pixel each, and a packet covers 1 to 128 pixels. -/
theorem encodeOutputBound : Obligations.EncodeOutputBound := by
  intro bpp npix P hb hP
  obtain ⟨m, length, le, ge, alone⟩ := encodeRest_length hP 0
  rw [encodeFn_eq_encodeRest, length]
  have upper : m * (1 + bpp) ≤ npix * (1 + bpp) := Nat.mul_le_mul_right _ (by omega)
  refine ⟨upper, Nat.mul_le_mul_right _ (by omega), fun differ => ?exact, fun small => ?width⟩
  case exact => rw [alone differ, Nat.sub_zero]
  case width =>
    calc m * (1 + bpp) ≤ npix * (1 + bpp) := upper
      _ ≤ 65535 * 65535 * 5 := Nat.mul_le_mul small (by omega)
      _ < 2 ^ 35 := by decide

/-! ## The packets of an encode, and their decode (42 R135) -/

/-- The packet the encoder emits for a run of `r` pixels `x` (42 R126). -/
def encoderPacket (r : Nat) (x : List Byte) : Packet :=
  if r = 1 then .raw [x] else .run (BitVec.ofNat 7 (r - 1)) x

theorem encoderPacket_wf (hx : x.length = bpp) : (encoderPacket r x).wf bpp = true := by
  unfold encoderPacket
  split
  · exact Packet.wf_raw.2 ⟨by simp, by simp, by simpa using hx⟩
  · exact Packet.wf_run.2 hx

theorem encoderPacket_bytes (h1 : 1 ≤ r) (h128 : r ≤ 128) :
    (encoderPacket r x).bytes = emitHeader (BitVec.ofNat 8 r) :: x := by
  unfold encoderPacket
  split
  next single =>
    have header : packetByte false (BitVec.ofNat 7 0) = emitHeader (BitVec.ofNat 8 1) := by decide
    rw [Packet.bytes, List.flatten_singleton, List.length_singleton, header, single]
  next more =>
    have field : (BitVec.ofNat 7 (r - 1)).toNat = r - 1 := by rw [BitVec.toNat_ofNat]; omega
    have count : packetCount (BitVec.ofNat 7 (r - 1)) = BitVec.ofNat 8 r := by
      rw [packetCount_eq_ofNat, field, Nat.sub_add_cancel h1]
    rw [Packet.bytes, ← count, emitHeader_run _ (by omega)]

theorem encoderPacket_pixels (h1 : 1 ≤ r) (h128 : r ≤ 128) : (encoderPacket r x).pixels = List.replicate r x := by
  unfold encoderPacket
  split
  next single => subst single; rfl
  next more => rw [Packet.pixels, packetCount_ofNat_pred h1 h128]

/-- An encode of the pixels from `i` on is well-formed packets that stand for those pixels. -/
theorem encodeRest_packets (hP : P.length = npix * bpp) (i : Nat) :
    ∃ ks : List Packet, (∀ k ∈ ks, k.wf bpp = true) ∧ encodeRest bpp npix P i = (ks.map Packet.bytes).flatten ∧
      (ks.map Packet.pixels).flatten.length = npix - i ∧ (ks.map Packet.pixels).flatten.flatten = P.drop (i * bpp) := by
  induction i using encode_induction bpp npix P with
  | ended i hi =>
    have behind : P.drop (i * bpp) = [] := List.drop_eq_nil_of_le (hP ▸ Nat.mul_le_mul_right bpp hi)
    exact ⟨[], nofun, encodeRest_end hi, (Nat.sub_eq_zero_of_le hi).symm, behind.symm⟩
  | packet i hi ih =>
    obtain ⟨ks, wf, bytes, count, pixels⟩ := ih
    obtain ⟨pos, le128, inside, equal⟩ := runLen_fits (bpp := bpp) (P := P) hi
    have run := drop_run bpp P i (pixelOf bpp P i) (runLen bpp npix P i) fun k hk hlt =>
      (Nat.eq_or_lt_of_le hk).elim (fun e => e ▸ rfl) fun hk => equal k hk hlt
    refine ⟨encoderPacket (runLen bpp npix P i) (pixelOf bpp P i) :: ks, ?wf, ?bytes, ?count, ?pixels⟩
    case wf => exact List.forall_mem_cons.2 ⟨encoderPacket_wf (pixelOf_length hP hi), wf⟩
    case bytes =>
      rw [encodeRest_packet hi, List.map_cons, List.flatten_cons, encoderPacket_bytes pos le128, bytes, List.cons_append]
    case count =>
      rw [List.map_cons, List.flatten_cons, encoderPacket_pixels pos le128, List.length_append, List.length_replicate, count]
      omega
    case pixels =>
      rw [List.map_cons, List.flatten_cons, encoderPacket_pixels pos le128, List.flatten_append, pixels, run]

/-- Settles O48: an encode is packets that stand for all pixels, which O42 decodes; two equal pixels in a raw packet, which the encoder
would join in a run packet, are the stream that does not come back. -/
theorem encodeThenDecodeIsTheIdentity : Obligations.EncodeThenDecodeIsTheIdentity := by
  refine ⟨fun bpp npix P hb hP => ?identity, [0x01, 0, 0, 0, 0, 0, 0], [0, 0, 0, 0, 0, 0], by decide, by decide⟩
  obtain ⟨ks, wf, bytes, count, pixels⟩ := encodeRest_packets hP 0
  have decoded : decodeFn bpp ((ks.map Packet.pixels).flatten.length * bpp) ((ks.map Packet.bytes).flatten ++ []) =
      .done (ks.map Packet.pixels).flatten.flatten (ks.map Packet.bytes).flatten.length false :=
    packetStreamDecodesToItsPixels bpp ks [] hb wf
  rw [Nat.zero_mul, List.drop_zero] at pixels
  rwa [List.append_nil, ← bytes, ← encodeFn_eq_encodeRest, pixels, count, Nat.sub_zero] at decoded

/-! ## An image of one colour (42 R133) -/

/-- Every pixel of an image of one colour is that colour. -/
theorem pixelOf_uniform {N k : Nat} (hx : x.length = bpp) (hk : k < N) :
    pixelOf bpp (List.replicate N x).flatten k = x := by
  obtain ⟨m, rfl⟩ : ∃ m, N = k + (m + 1) := ⟨N - k - 1, by omega⟩
  rw [pixelOf, List.replicate_add, List.flatten_append, ← copies_length k hx, List.drop_left, List.replicate_succ,
    List.flatten_cons, ← hx, List.take_left]

/-- In an image of one colour a run goes on to 128 pixels or to the end. -/
theorem runLen_uniform {N : Nat} (hx : x.length = bpp) (hi : i < N) :
    runLen bpp N (List.replicate N x).flatten i = min 128 (N - i) := by
  have fits : RunFits bpp N (List.replicate N x).flatten i (min 128 (N - i)) :=
    ⟨by omega, by omega, by omega, fun k _ hk => by rw [pixelOf_uniform hx (by omega), pixelOf_uniform hx hi]⟩
  exact fits.eq_runLen (by omega)

/-- The packet behind the whole runs of 128 in an image of one colour, for the `r` pixels left (42 R133). -/
def lastUniformPacket (r : Nat) (x : List Byte) : List Byte :=
  if r = 0 then [] else if r = 1 then 0x00 :: x else BitVec.ofNat 8 (128 + (r - 1)) :: x

theorem lastUniformPacket_of_pos (h1 : 1 ≤ r) (h128 : r < 128) :
    lastUniformPacket r x = emitHeader (BitVec.ofNat 8 r) :: x := by
  rw [lastUniformPacket, if_neg (by omega)]
  split
  next single => rw [single]; rfl
  next more =>
    have run : (BitVec.ofNat 8 r).toNat = r := by rw [BitVec.toNat_ofNat]; omega
    have header : emitHeader (BitVec.ofNat 8 r) = BitVec.ofNat 8 (128 + (r - 1)) := by
      apply BitVec.eq_of_toNat_eq
      rw [emitHeader_toNat (by omega) (by omega), run, BitVec.toNat_ofNat]
      omega
    rw [header]

/-- From pixel `i` of an image of one colour: a packet for every 128 pixels, and one for what they leave. -/
theorem encodeRest_uniform {N : Nat} (hx : x.length = bpp) (hr : r < 128) (q : Nat) : ∀ i, N = i + (128 * q + r) →
    encodeRest bpp N (List.replicate N x).flatten i =
      (List.replicate q ((0xFF : Byte) :: x)).flatten ++ lastUniformPacket r x := by
  induction q with
  | zero =>
    intro i hi
    by_cases none : r = 0
    · rw [encodeRest_end (by omega), lastUniformPacket, if_pos none]; rfl
    · have inside : i < N := by omega
      have run : min 128 (N - i) = r := by omega
      rw [encodeRest_packet inside, runLen_uniform hx inside, pixelOf_uniform hx inside, run, encodeRest_end (by omega),
        lastUniformPacket_of_pos (by omega) hr, List.append_nil]
      rfl
  | succ q ih =>
    intro i hi
    have inside : i < N := by omega
    have run : min 128 (N - i) = 128 := by omega
    rw [encodeRest_packet inside, runLen_uniform hx inside, pixelOf_uniform hx inside, run, ih (i + 128) (by omega),
      List.replicate_succ, List.flatten_cons, List.append_assoc, List.cons_append]
    rfl

theorem lastUniformPacket_length (hx : x.length = bpp) : (lastUniformPacket r x).length = min 1 r * (1 + bpp) := by
  unfold lastUniformPacket
  split
  next none => simp [none]
  next some =>
    have one : min 1 r = 1 := by omega
    split <;> simp [one, hx, Nat.add_comm]

/-- Settles O49: from pixel 0 on, `N div 128` runs of 128 and a packet for the rest. -/
theorem uniformImageEncodesToMaximalRuns : Obligations.UniformImageEncodesToMaximalRuns := by
  intro bpp N x hb hx hN r last
  have packets : encodeFn bpp N (List.replicate N x).flatten =
      (List.replicate (N / 128) ((0xFF : Byte) :: x)).flatten ++ last :=
    encodeRest_uniform hx (show r < 128 by omega) (N / 128) 0 (by omega)
  have whole : ((0xFF : Byte) :: x).length = 1 + bpp := by rw [List.length_cons, hx, Nat.add_comm]
  have rest : last.length = min 1 r * (1 + bpp) := lastUniformPacket_length hx
  refine ⟨packets, ?length⟩
  rw [packets, List.length_append, copies_length _ whole, rest, ← Nat.add_mul]
  congr 1
  omega

end Sys2Proof.Machine

/-! PROOF. The encoder agrees with the function `encode` (42_rle_encoder R129, R130): O46. The encode follows `enc(i)` packet by packet:
atomic steps load a pixel and count its run, and one step of the machine emits the packet, as `runUnit_emit` says. -/

namespace Sys2Proof.Machine

variable {s u v : State} {P made : List Byte} {k : Nat}

/-! ## The buffer behind PB (42 R128) -/

/-- What an encode of the buffer `P` that the host leaves alone needs: `P` in PB, OUT accepting, and no turn coming. -/
structure EncodeSetting (s : State) (P : List Byte) : Prop where
  turns : s.turns = []
  rst : s.rst = false
  ready : s.outReady = true
  size : P.length = s.npix * s.bpp
  holds : HoldsAt s.pb 0 P

theorem OnlyEncoderWrites.bpp (h : OnlyEncoderWrites s u) : u.bpp = s.bpp := (congrArg State.bpp h :)

theorem OnlyEncoderWrites.npix (h : OnlyEncoderWrites s u) : u.npix = s.npix := (congrArg State.npix h :)

theorem OnlyEncoderWrites.pb (h : OnlyEncoderWrites s u) : u.pb = s.pb := (congrArg State.pb h :)

theorem OnlyEncoderWrites.trans (h : OnlyEncoderWrites s u) (h' : OnlyEncoderWrites u v) : OnlyEncoderWrites s v := by
  unfold OnlyEncoderWrites at h h' ⊢
  rw [h', h]

/-- The encoder leaves what its encode needs. -/
theorem EncodeSetting.of_writes (h : EncodeSetting s P) (hw : OnlyEncoderWrites s u) : EncodeSetting u P where
  turns := (congrArg State.turns hw).trans h.turns
  rst := (congrArg State.rst hw).trans h.rst
  ready := (congrArg State.outReady hw).trans h.ready
  size := by rw [hw.npix, hw.bpp, h.size]
  holds := by rw [hw.pb]; exact h.holds

/-- Byte `j` of a pixel of the image is byte `j` of the pixel in `P`. -/
theorem EncodeSetting.memRead_pixel (h : EncodeSetting u P) (hk : k < u.npix) {j : Nat} (hj : j < u.bpp) :
    memRead u.pb (pixelAddr u.bpp k j) = (pixelOf u.bpp P k)[j]? := by
  have inside : pixelAddr u.bpp k j < P.length := h.size ▸ cap_eq u ▸ pixelAddr_lt_cap hk hj
  rw [pixelOf, List.getElem?_take_of_lt hj, List.getElem?_drop, ← pixelAddr, ← h.holds _ inside, Nat.zero_add]

/-- No pixel of the image has a byte that nobody has written. -/
theorem EncodeSetting.memRead_ne_none (h : EncodeSetting u P) {a : Nat} (ha : a < u.cap) : memRead u.pb a ≠ none := by
  have inside : a < P.length := h.size ▸ cap_eq u ▸ ha
  have byte := h.holds a inside
  rw [Nat.zero_add, List.getElem?_eq_getElem inside] at byte
  simp [byte]

/-- A pixel of PB equal to CUR is that pixel of `P`. -/
theorem EncodeSetting.pixelOf_eq_cur (h : EncodeSetting u P) (hb : u.bpp = 3 ∨ u.bpp = 4) (hk : k < u.npix)
    (cur : PixelIsCur u k) : pixelOf u.bpp P k = u.cur.toList.take u.bpp :=
  latch_take u.cur _ u.bpp (by omega) (pixelOf_length h.size hk) fun j hj => by rw [← h.memRead_pixel hk hj, cur j hj]

/-- A pixel of PB that differs from CUR differs in `P` from one that is equal to CUR. -/
theorem EncodeSetting.pixelOf_ne (h : EncodeSetting u P) {i : Nat} (hk : k < u.npix) (hi : i < u.npix) (cur : PixelIsCur u i)
    (differs : PixelDiffers u k) : pixelOf u.bpp P k ≠ pixelOf u.bpp P i := by
  obtain ⟨j, hj, b, read, ne⟩ := differs
  intro same
  rw [h.memRead_pixel hk hj, same, ← h.memRead_pixel hi hj, cur j hj] at read
  exact ne (Option.some.inj read).symm

/-- The run the encoder has counted is `runlen` (42 R128, R131 (e)). -/
theorem RunCounted.eq_runLen (hr : RunCounted u) (h : EncodeSetting u P) (hb : u.bpp = 3 ∨ u.bpp = 4) :
    runLen u.bpp u.npix P u.pidx.toNat = u.run.toNat := by
  obtain ⟨pos, le, inside, pixels, maximal⟩ := hr
  have first : PixelIsCur u u.pidx.toNat := pixels 0 pos
  have equal (k : Nat) (hk : u.pidx.toNat < k) (hlt : k < u.pidx.toNat + u.run.toNat) :
      pixelOf u.bpp P k = pixelOf u.bpp P u.pidx.toNat := by
    have same : PixelIsCur u k := by
      have := pixels (k - u.pidx.toNat) (by omega)
      rwa [Nat.add_sub_cancel' hk.le] at this
    rw [h.pixelOf_eq_cur hb (by omega) same, h.pixelOf_eq_cur hb (by omega) first]
  have fits : RunFits u.bpp u.npix P u.pidx.toNat u.run.toNat := ⟨pos, le, inside, equal⟩
  by_cases last : u.pidx.toNat + u.run.toNat = u.npix
  · exact fits.eq_runLen (.inr (.inl last))
  · refine fits.eq_runLen (maximal.imp_right fun h' => .inr ?_)
    exact h.pixelOf_ne (by omega) (by omega) first (h'.resolve_left last)

/-! ## How far an encode has come -/

/-- The encode begun in `s` has pushed `made`, and the encoding of the pixels from PIDX on is what is left of `encode`. -/
structure EncodedTo (s : State) (P made : List Byte) (u : State) : Prop where
  writes : OnlyEncoderWrites s u
  outq : u.outq = s.outq ++ made
  opos : u.opos.toNat = made.length
  rest : made ++ encodeRest s.bpp s.npix P u.pidx.toNat = encodeFn s.bpp s.npix P

/-- The encode begun in `s` runs, and no packet is half emitted. -/
structure Encoding (s : State) (P made : List Byte) (u : State) : Prop extends EncodedTo s P made u where
  setting : EncodeSetting s P
  mode : u.mode = .enc
  whole : u.estate ≠ .emitPix
  inv : EncInv u

/-- The encode begun in `s` is complete. -/
structure EncodeDone (s : State) (P : List Byte) (t : State) : Prop where
  writes : OnlyEncoderWrites s t
  mode : t.mode = .idle
  done : t.done = true
  pidx : t.pidx.toNat = s.npix
  outq : t.outq = s.outq ++ encodeFn s.bpp s.npix P
  opos : t.opos.toNat = (encodeFn s.bpp s.npix P).length

/-- An encode that has covered all pixels has pushed all of `encode`. -/
theorem EncodedTo.done (h : EncodedTo s P made u) (hm : u.mode = .idle) (hd : u.done = true) (hp : u.pidx.toNat = s.npix) :
    EncodeDone s P u := by
  have all : made = encodeFn s.bpp s.npix P := by
    rw [← h.rest, encodeRest_end hp.ge, List.append_nil]
  exact ⟨h.writes, hm, hd, hp, all ▸ h.outq, all ▸ h.opos⟩

/-- Progress on the packet at hand: the bytes loaded, then those found equal, and more than any of these when its header byte is due. -/
def packetProgress (s : State) : Nat :=
  match s.estate with
  | .load => s.ebi.toNat
  | .scan => s.run.toNat * s.bpp + s.ebi.toNat
  | .emitHdr => 512
  | .emitPix => 0

/-- A bound on the steps left of an encode: 513 for a packet, and there is a packet at most for every pixel left. -/
def encodeStepsLeft (s : State) : Nat := (s.npix - s.pidx.toNat) * 513 - packetProgress s

/-! ### Loading and scanning (42 R122, R123) -/

/-- Where the encoder loads or scans, the step of the machine is its atomic step. -/
theorem Encoding.step_eq_tick (h : Encoding s P made u) (he : u.estate = .load ∨ u.estate = .scan) :
    step u = (encoderStep u).outcome u := by
  have setting := h.setting.of_writes h.writes
  have noInstr : fetchUnit u = none := by rcases he with he | he <;> simp only [fetchUnit, h.mode, he]
  rw [step_undisturbed setting.turns setting.rst, runBlock_of_fetchUnit_none noInstr, tick_enc h.mode]

/-- A step that pushes nothing goes on with the encode. -/
theorem Encoding.goes_on (h : Encoding s P made u)
    (frame : v = { u with estate := v.estate, cur := v.cur, run := v.run, ebi := v.ebi }) (inv : EncInv v)
    (whole : v.estate ≠ .emitPix) : Encoding s P made v where
  writes := h.writes.trans (by rw [frame]; rfl)
  outq := by rw [frame]; exact h.outq
  opos := by rw [frame]; exact h.opos
  rest := by rw [frame]; exact h.rest
  setting := h.setting
  mode := by rw [frame]; exact h.mode
  whole := whole
  inv := inv

theorem packetProgress_load (he : s.estate = .load) : packetProgress s = s.ebi.toNat := by rw [packetProgress, he]

theorem packetProgress_scan (he : s.estate = .scan) : packetProgress s = s.run.toNat * s.bpp + s.ebi.toNat := by
  rw [packetProgress, he]

theorem packetProgress_emitHdr (he : s.estate = .emitHdr) : packetProgress s = 512 := by rw [packetProgress, he]

/-- A counted run is at most 127 pixels of at most 4 bytes, and the bytes of the next pixel. -/
theorem EncInv.packetProgress_lt (h : EncInv u) (he : u.estate = .load ∨ u.estate = .scan) : packetProgress u < 512 := by
  have bpp := h.bpp
  have ebi := h.ebi
  rcases he with he | he
  · rw [packetProgress_load he]; omega
  · obtain ⟨-, le, -⟩ := h.scan he
    have : u.run.toNat * u.bpp ≤ 127 * u.bpp := Nat.mul_le_mul_right _ le
    rw [packetProgress_scan he]; omega

/-- From `u` the encode begun in `s` goes on to a state from which fewer steps are left. -/
def EncodeAdvances (s : State) (P : List Byte) (u : State) (o : Host.Outcome State Fault Refusal) : Prop :=
  ∃ v made, o = .next v ∧ Encoding s P made v ∧ encodeStepsLeft v < encodeStepsLeft u

/-- Progress on the packet at hand leaves fewer steps. -/
theorem Encoding.advances (h : Encoding s P made u) (he : u.estate = .load ∨ u.estate = .scan)
    (frame : v = { u with estate := v.estate, cur := v.cur, run := v.run, ebi := v.ebi }) (inv : EncInv v)
    (whole : v.estate ≠ .emitPix) (progress : packetProgress u < packetProgress v) : EncodeAdvances s P u (.next v) := by
  refine ⟨v, made, rfl, h.goes_on frame inv whole, ?_⟩
  have bound := h.inv.packetProgress_lt he
  have pidx := h.inv.pidx
  have same : v.npix = u.npix ∧ v.pidx = u.pidx := by rw [frame]; exact ⟨rfl, rfl⟩
  obtain ⟨hn, hi⟩ := same
  have onePixel : 1 * 513 ≤ (u.npix - u.pidx.toNat) * 513 := Nat.mul_le_mul_right _ (by omega)
  rw [encodeStepsLeft, encodeStepsLeft, hn, hi]
  omega

/-- Every step that loads or scans goes on with the encode. -/
theorem Encoding.step_quiet (h : Encoding s P made u) (he : u.estate = .load ∨ u.estate = .scan) :
    EncodeAdvances s P u (step u) := by
  have setting := h.setting.of_writes h.writes
  have inv := h.inv
  have bpp := inv.bpp
  have ebi := inv.ebi
  have bound := inv.packetProgress_lt he
  rw [h.step_eq_tick he]
  have hcase := encoderStep_cases u
  generalize encoderStep u = a at hcase
  cases hcase with
  | loadUnwritten _ ha hb | scanUnwritten _ ha hb => exact absurd hb (setting.memRead_ne_none ha)
  | loadOutside _ ha => exact absurd (pixelAddr_lt_cap inv.pidx ebi) (Nat.not_lt.2 ha)
  | scanOutside hs ha =>
    obtain ⟨-, -, inside, -⟩ := inv.scan hs
    exact absurd (pixelAddr_lt_cap inside ebi) (Nat.not_lt.2 ha)
  | notReady hn => rcases he with he | he <;> simp [he] at hn
  | header hn | pixMore hn | pixLast hn | pixDone hn => simp [hn] at he
  | loadMore hs _ hb hl =>
    have next : (u.ebi + 1).toNat = u.ebi.toNat + 1 := toNat_add_ofNat u.ebi 1 (by omega)
    refine h.advances he rfl (inv.loadMore_keeps hs hb hl) (by simp [hs]) ?_
    rw [packetProgress_load hs, packetProgress_load (by exact hs), next]
    omega
  | loadLast hs _ hb hl =>
    refine h.advances he rfl (inv.loadLast_keeps hs hb hl) (by dsimp only; split <;> simp) ?_
    rw [packetProgress_load hs] at bound ⊢
    split
    next more => rw [packetProgress_scan rfl]; show _ < 1 * u.bpp + 0; omega
    next last => exact bound.trans_eq (packetProgress_emitHdr rfl).symm
  | scanDiffers hs _ hb hne =>
    refine h.advances he rfl (inv.scanDiffers_keeps hs hb hne) (by simp) ?_
    exact bound.trans_eq (packetProgress_emitHdr rfl).symm
  | scanMore hs _ hb hl =>
    have next : (u.ebi + 1).toNat = u.ebi.toNat + 1 := toNat_add_ofNat u.ebi 1 (by omega)
    refine h.advances he rfl (inv.scanMore_keeps hs hb hl) (by simp [hs]) ?_
    rw [packetProgress_scan hs, packetProgress_scan (by exact hs), next]
    show _ < u.run.toNat * u.bpp + _
    omega
  | scanLast hs _ hb hl =>
    obtain ⟨-, le, -⟩ := inv.scan hs
    have run : (u.run + 1).toNat = u.run.toNat + 1 := toNat_add_ofNat u.run 1 (by omega)
    refine h.advances he rfl (inv.scanLast_keeps hs hb hl) (by dsimp only; split <;> simp) ?_
    split
    next ends => exact bound.trans_eq (packetProgress_emitHdr rfl).symm
    next more =>
      rw [packetProgress_scan hs, packetProgress_scan (by rfl)]
      show _ < (u.run + 1).toNat * u.bpp + 0
      rw [run, Nat.succ_mul]
      omega

/-! ### Emitting (42 R126, R127) -/

/-- Every counted run selects a packet form (30 R71). -/
theorem exists_decode_emitHeader {r : BitVec 8} (h1 : 1 ≤ r.toNat) (h128 : r.toNat ≤ 128) :
    ∃ i, decode (.packetOut (emitHeader r)) = .ok i := by
  obtain ⟨single, run⟩ := emittedHeaderByteOfEveryRun r h1 h128
  rcases Nat.eq_or_lt_of_le h1 with h | h
  · exact ⟨_, (single h.symm).2⟩
  · obtain ⟨-, -, n, -, form⟩ := run h
    exact ⟨_, form⟩

/-- Where a packet is due, the step of the machine emits it. -/
theorem Encoding.step_emit (h : Encoding s P made u) (he : u.estate = .emitHdr) : step u = .next (emitted u) := by
  have setting := h.setting.of_writes h.writes
  obtain ⟨pos, le, inside, -⟩ := h.inv.emit (.inl he)
  obtain ⟨i, form⟩ := exists_decode_emitHeader pos le
  have instr : fetchUnit u = some (i, u) := by simp only [fetchUnit, h.mode, he, form]
  rw [step_fetched setting.turns setting.rst instr, exec_emit h.mode he pos le form]
  exact runUnit_emit h.mode he h.inv.bpp setting.ready inside

theorem emitted_writes (s : State) : OnlyEncoderWrites s (emitted s) := rfl

theorem emitted_pidx (fits : s.pidx.toNat + s.run.toNat ≤ s.npix) : (emitted s).pidx.toNat = s.pidx.toNat + s.run.toNat :=
  pidx_add_run_toNat fits

/-- OPOS counts the bytes of a packet, and R134's bound keeps it from wrapping. -/
theorem EncInv.emitted_opos (h : EncInv u) (he : u.estate ≠ .emitPix) :
    (emitted u).opos.toNat = u.opos.toNat + (1 + u.bpp) := by
  have bpp := h.bpp
  have pidx := h.pidx
  have image := npix_lt u
  have bound : u.opos.toNat ≤ 2 ^ 32 * 5 := (h.made.1 he).trans (Nat.mul_le_mul (by omega) (by omega))
  calc (emitted u).opos.toNat = (u.opos + BitVec.ofNat 35 (1 + u.bpp)).toNat := by rw [← bv_add_ofNat]; rfl
    _ = u.opos.toNat + (1 + u.bpp) := toNat_add_ofNat _ _ (by omega)

/-- After a packet the bytes pushed are those of `enc` up to the packet's last pixel. -/
theorem Encoding.after_packet (h : Encoding s P made u) (he : u.estate = .emitHdr) :
    EncodedTo s P (made ++ emitHeader u.run :: u.cur.toList.take u.bpp) (emitted u) := by
  have setting := h.setting.of_writes h.writes
  have bpp := h.inv.bpp
  have counted : RunCounted u := h.inv.emit (.inl he)
  have run := counted.eq_runLen setting bpp
  obtain ⟨pos, -, inside, pixels, -⟩ := counted
  have pixel := setting.pixelOf_eq_cur bpp h.inv.pidx (pixels 0 pos)
  have packet := encodeRest_packet (bpp := u.bpp) (P := P) h.inv.pidx
  have rest := h.rest
  rw [run, pixel, BitVec.ofNat_toNat, BitVec.setWidth_eq, h.writes.bpp, h.writes.npix] at packet
  refine ⟨h.writes.trans (emitted_writes u), ?outq, ?opos, ?rest⟩
  case outq => rw [← List.append_assoc, ← h.outq]; rfl
  case opos =>
    rw [h.inv.emitted_opos h.whole, h.opos, List.length_append, List.length_cons, List.length_take, Vector.length_toList]
    omega
  case rest =>
    rw [packet] at rest
    rw [emitted_pidx inside, h.writes.bpp, List.append_assoc]
    exact rest

/-- An encoder that has emitted a packet before the last pixel of the image keeps its invariant. -/
theorem EncInv.emitted_keeps (h : EncInv u) (he : u.estate = .emitHdr) (more : lastPacket u = false) : EncInv (emitted u) := by
  obtain ⟨pos, -, inside, -⟩ := h.emit (.inl he)
  have notLast : u.pidx.toNat + u.run.toNat ≠ u.npix := of_decide_eq_false more
  have pidx : (emitted u).pidx.toNat < u.npix := by rw [emitted_pidx inside]; omega
  have estate : (emitted u).estate = .load := by simp [emitted, more]
  have bpp := h.bpp
  have made : (emitted u).opos.toNat ≤ (emitted u).pidx.toNat * (1 + u.bpp) :=
    calc (emitted u).opos.toNat = u.opos.toNat + (1 + u.bpp) := h.emitted_opos (by simp [he])
      _ ≤ (u.pidx.toNat + 1) * (1 + u.bpp) := by rw [Nat.succ_mul]; exact Nat.add_le_add_right (h.made.1 (by simp [he])) _
      _ ≤ (emitted u).pidx.toNat * (1 + u.bpp) := Nat.mul_le_mul_right _ (by rw [emitted_pidx inside]; omega)
  exact EncInv.of_load estate bpp pidx (show 0 < u.bpp by omega) (pixelStartsCur_of_ebi_zero rfl) made

/-- A packet leaves fewer steps, as it covers a pixel. -/
theorem encodeStepsLeft_emitted_lt (h : EncInv u) (he : u.estate = .emitHdr) : encodeStepsLeft (emitted u) < encodeStepsLeft u := by
  obtain ⟨pos, -, inside, -⟩ := h.emit (.inl he)
  rw [encodeStepsLeft, encodeStepsLeft, packetProgress_emitHdr he, emitted_pidx inside]
  show (u.npix - _) * 513 - _ < _
  omega

/-- Every step that emits a packet completes the encode or goes on with it. -/
theorem Encoding.step_packet (h : Encoding s P made u) (he : u.estate = .emitHdr) :
    EncodeDone s P (emitted u) ∨ EncodeAdvances s P u (.next (emitted u)) := by
  have after := h.after_packet he
  cases last : lastPacket u with
  | true =>
    obtain ⟨-, -, inside, -⟩ := h.inv.emit (.inl he)
    have all : u.pidx.toNat + u.run.toNat = u.npix := of_decide_eq_true last
    exact .inl (after.done (by simp [emitted, last]) (by simp [emitted, last])
      (by rw [emitted_pidx inside, all, h.writes.npix]))
  | false =>
    exact .inr ⟨_, _, rfl, ⟨after, h.setting, by simp [emitted, last], by simp [emitted, last], h.inv.emitted_keeps he last⟩,
      encodeStepsLeft_emitted_lt h.inv he⟩

/-! ## An encode from its command to its end (42 R130) -/

/-- Every encode under way completes. -/
theorem Encoding.reaches_done (u : State) {made : List Byte} (h : Encoding s P made u) :
    ∃ k t, steps k u = .next t ∧ EncodeDone s P t := by
  have goesOn (advances : EncodeAdvances s P u (step u)) : ∃ k t, steps k u = .next t ∧ EncodeDone s P t := by
    obtain ⟨v, made', hs, encoding, less⟩ := advances
    obtain ⟨k, t, run, done⟩ := Encoding.reaches_done v encoding
    exact ⟨k + 1, t, steps_succ hs run, done⟩
  cases he : u.estate with
  | load => exact goesOn (h.step_quiet (.inl he))
  | scan => exact goesOn (h.step_quiet (.inr he))
  | emitHdr =>
    have hs := h.step_emit he
    rcases h.step_packet he with done | advances
    · exact ⟨1, _, steps_succ hs rfl, done⟩
    · exact goesOn (hs ▸ advances)
  | emitPix => exact absurd he h.whole
termination_by encodeStepsLeft u

theorem exec_cmdEncode_idle (hm : s.mode = .idle) (hb : s.bpp = 3 ∨ s.bpp = 4) : exec .cmdEncode s = .next (startEncode s) := by
  have legal : Config.legalBpp s.bpp = true := by simpa [Config.legalBpp] using hb
  show Host.Outcome.next (cmdSlot 4 (needLegalBpp startEncode) s) = _
  rw [cmdSlot_idle hm, needLegalBpp, if_pos legal]

/-- An encode of no pixels is complete at once (42 R121, R137). -/
theorem startEncode_empty (h : s.npix = 0) : startEncode s = finish (acceptCommand 4 s) := if_pos h

/-- An encode of some pixels loads its first (43 R150). -/
theorem startEncode_some (h : s.npix ≠ 0) :
    startEncode s = { acceptCommand 4 s with mode := .enc, estate := .load, ebi := 0 } := if_neg h

/-- What has come of an encode with its command: no byte is pushed, and all of `encode` is left. -/
theorem EncodedTo.start (s : State) (P : List Byte) : EncodedTo (acceptCommand 4 s) P [] (startEncode s) where
  writes := by unfold startEncode; split <;> rfl
  outq := by unfold startEncode; split <;> exact (List.append_nil _).symm
  opos := by unfold startEncode; split <;> rfl
  rest := by unfold startEncode; split <;> rfl

/-- An encode of some pixels begins with its command. -/
theorem Encoding.start (h : EncodeSetting s P) (hb : s.bpp = 3 ∨ s.bpp = 4) (hn : s.npix ≠ 0) :
    Encoding (acceptCommand 4 s) P [] (startEncode s) := by
  have pidx : 0 < s.npix := Nat.pos_of_ne_zero hn
  have bpp : 0 < s.bpp := by omega
  have started := startEncode_some hn
  exact { EncodedTo.start s P with
    setting := ⟨h.turns, h.rst, h.ready, h.size, h.holds⟩
    mode := by rw [started]
    whole := by simp [started]
    inv := by rw [started]; exact .of_load rfl hb pidx bpp (pixelStartsCur_of_ebi_zero rfl) (Nat.zero_le _) }

/-- The encode that 4 written to CMD begins completes. -/
theorem startEncode_reaches_done (h : EncodeSetting s P) (hb : s.bpp = 3 ∨ s.bpp = 4) :
    ∃ k t, steps k (startEncode s) = .next t ∧ EncodeDone (acceptCommand 4 s) P t := by
  by_cases hn : s.npix = 0
  · have begun := EncodedTo.start s P
    rw [startEncode_empty hn] at begun ⊢
    exact ⟨0, _, rfl, begun.done rfl rfl hn.symm⟩
  · exact (Encoding.start h hb hn).reaches_done

/-- Settles O46: the command starts `enc(0)`, which the encode follows packet by packet; each of its steps leaves fewer. -/
theorem encodeAgreesWithTheFunction : Obligations.EncodeAgreesWithTheFunction := by
  intro s P hm hr ho hb hP hpb ht
  have command : step s = .next (startEncode { s with turns := [] }) := by
    rw [step_turn ht]
    show (if s.rst then _ else _) = _
    rw [hr]
    exact exec_cmdEncode_idle hm hb
  have setting : EncodeSetting { s with turns := [] } P := ⟨rfl, hr, ho, hP, hpb⟩
  obtain ⟨k, t, run, done⟩ := startEncode_reaches_done setting hb
  have writes := done.writes
  exact ⟨k + 1, t, steps_succ command run, done.mode, done.done, (congrArg State.ovr writes :), done.pidx, done.opos,
    (congrArg State.ipos writes :), (congrArg State.prod writes :), done.outq, writes.pb, (congrArg State.inq writes :),
    (congrArg State.hdr writes :)⟩

end Sys2Proof.Machine

/-! PROOF. The host's commands and the register port (43_commands R140 to R152; 30_encoding R72): O10, O15, O16, O20, O22, O25, O26 and O27. -/

namespace Sys2Proof.Machine

variable {s : State}

/-! ## The turns of the register port -/

/-- A register write that comes next is what the step does, while `rst` is released (70 R185). -/
theorem step_regWrite {n : Nat} {v : Word} {rest : List Turn} (ht : s.turns = .regWrite n v :: rest) (hr : s.rst = false) :
    step s = regWrite n v { s with turns := rest } := by
  simp [step_turn ht, takeTurn, hr]

/-- A write to CMD (43 R143). -/
theorem step_command {v : Word} {rest : List Turn} (ht : s.turns = .regWrite 0 v :: rest) (hr : s.rst = false) :
    step s = cmdWrite v { s with turns := rest } := by
  rw [step_regWrite ht hr, regWrite, if_pos rfl]

/-- The coming turns are in no register. -/
theorem regValue_turns (q : Reg) (s : State) (ts : List Turn) : regValue q { s with turns := ts } = regValue q s := by
  cases q <;> rfl

theorem regRead_turns (n : Nat) (s : State) (ts : List Turn) : regRead n { s with turns := ts } = regRead n s := by
  unfold regRead
  cases regOfNumber n with
  | none => rfl
  | some q => exact regValue_turns q s ts

/-- A register read that comes next changes only what the host holds (43 R140). -/
theorem step_regRead {n : Nat} {rest : List Turn} (ht : s.turns = .regRead n :: rest) (hr : s.rst = false) :
    step s = .next { s with turns := rest, hostData := regRead n s } := by
  rw [← regRead_turns n s rest, step_turn ht]
  simp [takeTurn, hr]

/-! ## What a value written to CMD does (43 R143) -/

/-- A CMD value that decodes is the instruction it selects. -/
theorem cmdWrite_of_decode {v : Word} {i : Instr} (h : decode (.command v) = .ok i) (s : State) : cmdWrite v s = exec i s := by
  rw [cmdWrite, h]

theorem cmdWrite_reserved {v : Word} (h : 5 ≤ v.toNat) (s : State) :
    cmdWrite v s = .next (cmdSlot v (raise .cmdIllegal v) s) := by
  rw [cmdWrite, decode_command_reserved h, cmdReserved]

/-- Everything a value written to CMD can do, by the value. -/
theorem cmdWrite_cases (v : Word) (s : State) :
    (v.toNat = 0 ∧ cmdWrite v s = .next s) ∨
    (v.toNat = 1 ∧ cmdWrite v s = .next (cmdSlot v startParse s)) ∨
    (v.toNat = 2 ∧ cmdWrite v s = .next (cmdSlot v startSerialize s)) ∨
    (v.toNat = 3 ∧ cmdWrite v s = .next (cmdSlot v (needLegalBpp startDecode) s)) ∨
    (v.toNat = 4 ∧ cmdWrite v s = .next (cmdSlot v (needLegalBpp startEncode) s)) ∨
    (5 ≤ v.toNat ∧ cmdWrite v s = .next (cmdSlot v (raise .cmdIllegal v) s)) := by
  have codes : v = 0 ∨ v = 1 ∨ v = 2 ∨ v = 3 ∨ v = 4 ∨ 5 ≤ v.toNat := by bv_omega
  rcases codes with rfl | rfl | rfl | rfl | rfl | h
  · exact .inl ⟨rfl, rfl⟩
  · exact .inr (.inl ⟨rfl, rfl⟩)
  · exact .inr (.inr (.inl ⟨rfl, rfl⟩))
  · exact .inr (.inr (.inr (.inl ⟨rfl, rfl⟩)))
  · exact .inr (.inr (.inr (.inr (.inl ⟨rfl, rfl⟩))))
  · exact .inr (.inr (.inr (.inr (.inr ⟨h, cmdWrite_reserved h s⟩))))

/-- In M_FAULT a value written to CMD is ignored (43 R152). -/
theorem cmdWrite_fault (hm : s.mode = .fault) (v : Word) : cmdWrite v s = .next s := by
  have ignored (act : State → State) : cmdSlot v act s = s := if_pos hm
  rcases cmdWrite_cases v s with ⟨-, e⟩ | ⟨-, e⟩ | ⟨-, e⟩ | ⟨-, e⟩ | ⟨-, e⟩ | ⟨-, e⟩
  · exact e
  all_goals rw [e, ignored]

/-- Test 2 of R143: outside M_FAULT a block that is not idle is busy. -/
theorem cmdSlot_of_not_fault (hf : s.mode ≠ .fault) (v : Word) (act : State → State) :
    cmdSlot v act s = if s.mode ≠ .idle then raise .cmdWhileBusy v s else act s := by
  rcases cmdSlot_cases v act s with ⟨fault, -⟩ | ⟨busy, e⟩ | ⟨idle, e⟩
  · exact absurd fault hf
  · have running : s.mode ≠ .idle := fun idle => by simp [busy_iff, idle] at busy
    rw [e, if_pos running]
  · rw [e, if_neg (not_not.2 idle)]

/-- Test 4 of R143, as the test that fails. -/
theorem needLegalBpp_eq (start : State → State) (s : State) :
    needLegalBpp start s = if ¬ (s.bpp = 3 ∨ s.bpp = 4) then raise .configError (BitVec.ofNat 64 s.bpp) s else start s := by
  have legal : Config.legalBpp s.bpp = true ↔ s.bpp = 3 ∨ s.bpp = 4 := by simp [Config.legalBpp]
  have arg : s.geomBpp.zeroExtend 64 = BitVec.ofNat 64 s.bpp := (BitVec.ofNat_toNat ..).symm
  simp only [needLegalBpp, legal, arg, ite_not]

/-- Settles O20: by the value written; the tests before the start are those of the slot, and of `needLegalBpp` for 3 and 4. -/
theorem commandTestsInTheirOrder : Obligations.CommandTestsInTheirOrder := by
  intro s v rest hr hf ht s'
  have slot (act : State → State) : cmdSlot v act s' = if s.mode ≠ .idle then raise .cmdWhileBusy v s' else act s' :=
    cmdSlot_of_not_fault (s := s') hf v act
  have bpp (start : State → State) : needLegalBpp start s' =
      if ¬ (s.bpp = 3 ∨ s.bpp = 4) then raise .configError (BitVec.ofNat 64 s.bpp) s' else start s' := needLegalBpp_eq start s'
  rw [show step s = cmdWrite v s' from step_command ht hr]
  rcases cmdWrite_cases v s' with ⟨code, e⟩ | ⟨code, e⟩ | ⟨code, e⟩ | ⟨code, e⟩ | ⟨code, e⟩ | ⟨code, e⟩ <;> rw [e]
  · simp [code]
  · simp [slot, code]
  · simp [slot, code]
  · simp [slot, code, bpp]
  · simp [slot, code, bpp]
  · have nonzero : v.toNat ≠ 0 := by omega
    simp [slot, nonzero, code]

/-- Settles O15: 0 is the code of CMD.NOP, and while `rst` is asserted the port is ignored. -/
theorem nopChangesNothing : Obligations.NopChangesNothing := by
  intro s
  refine ⟨rfl, fun rest ht => ?_⟩
  rcases Bool.eq_false_or_eq_true s.rst with hr | hr
  · simp [step_turn ht, takeTurn, hr]
  · exact (step_command ht hr).trans (cmdWrite_of_decode (i := .cmdNop) rfl _)

/-- A command without work is complete in its own step, and the idle block stays idle (43 R149, R150). -/
theorem finish_acceptCommand (hm : s.mode = .idle) (c : BitVec 3) :
    finish (acceptCommand c s) =
      { s with done := true, ovr := false, lastCmd := c, ipos := 0, opos := 0, prod := 0, pidx := 0 } := by
  rw [finish, ← hm]; rfl

/-- Settles O16: with the tests passed a command is its start. -/
theorem idleBlockStartsTheCommand : Obligations.IdleBlockStartsTheCommand := by
  intro s hm
  refine ⟨exec_cmdHdrParse_idle hm, exec_cmdHdrSerialize_idle hm, fun hb => ⟨fun h => ?_, fun h => ?_, fun h => ?_, fun h => ?_⟩⟩
  · rw [exec_cmdDecode_idle hm hb, startDecode_empty h, finish_acceptCommand hm]
  · rw [exec_cmdDecode_idle hm hb, startDecode_some h]; rfl
  · rw [exec_cmdEncode_idle hm hb, startEncode_empty h, finish_acceptCommand hm]
  · rw [exec_cmdEncode_idle hm hb, startEncode_some h]; rfl

/-! ## The instruction a step runs (43 R143; 30 R72; 70 R202) -/

/-- In each of the cases of `FetchCase` the instruction is fetched. -/
theorem FetchCase.fetchUnit_eq {i : Instr} {t : State} (h : FetchCase s i t) : fetchUnit s = some (i, t) := by
  cases h with
  | parse hm | serialize hm => simp only [fetchUnit, hm]
  | packet hm hd hq => simp only [fetchUnit, hm, hd, hq, decode]
  | emit hm he hi => simp only [fetchUnit, hm, he, hi]

/-- Settles O10: a CMD write by what it decodes to, the block's own instructions by the cases of the fetch. -/
theorem stepRunsTheDecodedInstruction : Obligations.StepRunsTheDecodedInstruction := by
  intro s hr
  have fetched {i : Instr} {t : State} (ht : s.turns = []) (h : FetchCase s i t) : step s = exec i t :=
    step_fetched ht hr h.fetchUnit_eq
  refine ⟨fun v rest i ht hi => ?command, fun p q i ht hm hd hq hi => ?packet, fun i ht hm he hi => fetched ht (.emit hm he hi),
    fun ht hm => fetched ht (.parse hm), fun ht hm => fetched ht (.serialize hm)⟩
  case command => rw [step_command ht hr, cmdWrite_of_decode hi]
  case packet => cases hi; exact fetched ht (.packet hm hd hq)

/-! ## Register reads (43 R140) -/

/-- Settles O27: an unmapped number reads 0, and a register of at most 64 bits keeps its value when it is zero-extended. -/
theorem readReturnsTheRegisterAndChangesNothing : Obligations.ReadReturnsTheRegisterAndChangesNothing := by
  intro s
  refine ⟨fun n rest hr ht => step_regRead ht hr, rfl, fun n hn => ?unmapped, rfl, rfl, rfl, ?registers⟩
  case unmapped => rw [regRead, regOfNumber_unmapped hn]
  case registers => and_intros <;> exact BitVec.toNat_setWidth_of_le (by decide)

/-! ## Writes without effect (43 R142, R152) -/

/-- Settles O25: a number that is neither CMD's nor writable is ignored in every MODE. -/
theorem writeElsewhereHasNoEffect : Obligations.WriteElsewhereHasNoEffect :=
  fun _ _ _ _ h0 hw ht => step_regWrite_ignored ht h0 hw

/-- In M_FAULT every register write is ignored (43 R152). -/
theorem regWrite_fault (hm : s.mode = .fault) (n : Nat) (v : Word) : regWrite n v s = .next s := by
  unfold regWrite
  split
  · exact cmdWrite_fault hm v
  · rw [regWriteOther_fault hm]

/-- In M_FAULT, FAULT is 1 and BUSY is 0 (10 R18). -/
theorem statusWord_fault_busy (hm : s.mode = .fault) : statusWord s &&& 5 = 4 := by
  have faulted : s.faulted = true := (faulted_iff s).2 hm
  have busy : s.busy = false := by rw [State.busy, hm, Mode.busy]
  rw [statusWord, faulted, busy]
  generalize s.lastCmd = l, s.ovr = o, s.done = d
  revert l o d; decide

/-- Settles O22: turn by turn; a block in M_FAULT is quiescent. -/
theorem faultStateIgnoresWritesAndSteps : Obligations.FaultStateIgnoresWritesAndSteps := by
  intro s hr hm
  refine ⟨fun n v rest ht => ?write, fun rest ht => ?block, fun n rest ht => step_regRead ht hr,
    fun ht => step_of_quiescent (.inr hm) ht hr, statusWord_fault_busy hm⟩
  case write => exact (step_regWrite ht hr).trans (regWrite_fault (by exact hm) n v)
  case block => exact ((step_turn ht).trans (takeTurn_blockStep (by exact hr))).trans (tick_of_quiescent (.inr hm))

/-! ## An idle block's register writes (10 R25; 43 R141, R142) -/

/-- The number of a register (10 R25). -/
def Reg.number : Reg → Nat
  | .cmd => 0x00 | .status => 0x01 | .err => 0x02 | .errarg => 0x03
  | .geomW => 0x04 | .geomH => 0x05 | .geomBpp => 0x06
  | .ipos => 0x07 | .opos => 0x08 | .prod => 0x09 | .pidx => 0x0A
  | .hdrIdLength => 0x10 | .hdrColorMapType => 0x11 | .hdrImageType => 0x12
  | .hdrCmapOrigin => 0x13 | .hdrCmapLength => 0x14 | .hdrCmapDepth => 0x15
  | .hdrXOrigin => 0x16 | .hdrYOrigin => 0x17 | .hdrWidth => 0x18 | .hdrHeight => 0x19
  | .hdrBitsPerPixel => 0x1A | .hdrImageDescriptor => 0x1B
  | .hdrBppView => 0x1C | .hdrOriginView => 0x1D

/-- Each register has one number. -/
theorem regOfNumber_eq_some_iff {n : Nat} {r : Reg} : regOfNumber n = some r ↔ n = r.number := by
  constructor
  · intro h
    unfold regOfNumber at h
    split at h <;> cases h <;> rfl
  · rintro rfl
    cases r <;> rfl

/-- What is stored is read back: the low bits of the value (43 R142). -/
theorem regValue_regStore_same {r : Reg} (hw : regWritable r = true) (v : Word) (s : State) :
    (regValue r (regStore r v s)).toNat = v.toNat % 2 ^ regWidth r := by
  have low {w : Nat} (hw : w ≤ 64) : ((v.setWidth w).zeroExtend 64).toNat = v.toNat % 2 ^ w := by
    rw [BitVec.toNat_setWidth_of_le hw, BitVec.toNat_setWidth]
  cases r with
  | cmd | status | err | errarg | ipos | opos | prod | pidx | hdrBppView | hdrOriginView => cases hw
  | _ => exact low (by decide)

/-- A register other than the one stored reads as before, unless it is a view of a header register. -/
theorem regValue_regStore_of_ne {q r : Reg} (hne : q ≠ r) (hb : q ≠ .hdrBppView) (ho : q ≠ .hdrOriginView) (v : Word)
    (s : State) : regValue q (regStore r v s) = regValue q s := by
  cases q with
  | hdrBppView => exact absurd rfl hb
  | hdrOriginView => exact absurd rfl ho
  | cmd | status | err | errarg | ipos | opos | prod | pidx => rw [regStore_frame]; rfl
  | _ => cases r <;> simp [regStore, regValue] at hne ⊢

/-- Settles O26: an idle block stores a writable register, and no two registers share a number. -/
theorem idleWriteStoresTheLowBits : Obligations.IdleWriteStoresTheLowBits := by
  intro s n v rest hr hm hn ht
  obtain ⟨r, hreg, hw⟩ := regOfNumber_writable hn
  have h0 : n ≠ 0 := by rintro rfl; simp [WritableNumber] at hn
  have stored : step s = .next (regStore r v { s with turns := rest }) := by
    rw [step_regWrite ht hr, regWrite, if_neg h0, regWriteOther_idle (by exact hm) hreg hw]
  refine ⟨r, _, hreg, stored, ?same, fun k hk hb ho => ?other, regStore_frame r v { s with turns := rest }⟩
  case same => rw [regRead, hreg]; exact regValue_regStore_same hw v _
  case other =>
    rw [← regRead_turns k s rest]
    unfold regRead
    cases hq : regOfNumber k with
    | none => rfl
    | some q =>
      have hkq : k = q.number := regOfNumber_eq_some_iff.1 hq
      have hnr : n = r.number := regOfNumber_eq_some_iff.1 hreg
      have other : q ≠ r := by rintro rfl; exact hk (hkq.trans hnr.symm)
      have notBpp : q ≠ .hdrBppView := by rintro rfl; exact hb hkq
      have notOrigin : q ≠ .hdrOriginView := by rintro rfl; exact ho hkq
      exact regValue_regStore_of_ne other notBpp notOrigin v _

end Sys2Proof.Machine

/-! PROOF. The faults of the command and register port, and M_FAULT, which only reset leaves (60_exceptions R160 to R174): O17, O18, O19,
O21, O23 and O24. -/

namespace Sys2Proof.Machine

variable {s t : State}

/-! ## M_FAULT (60 R174) -/

/-- From `s` to `t` only what the host owns has changed: PB, the channels, what its reads return, and the coming turns. -/
def OnlyHostWrites (s t : State) : Prop :=
  t = { s with
    pb := t.pb, inq := t.inq, outq := t.outq, outReady := t.outReady, hostData := t.hostData, turns := t.turns }

theorem OnlyHostWrites.regRead_err (h : OnlyHostWrites s t) : regRead 0x02 t = regRead 0x02 s := by rw [h]; rfl

theorem OnlyHostWrites.regRead_errarg (h : OnlyHostWrites s t) : regRead 0x03 t = regRead 0x03 s := by rw [h]; rfl

theorem supplyIn_writes {item : InItem} (ht : supplyIn item s = .next t) : OnlyHostWrites s t := by
  unfold supplyIn at ht
  split at ht <;> cases ht
  rfl

theorem takeIn_writes (ht : takeIn s = .next t) : OnlyHostWrites s t := by
  unfold takeIn at ht
  split at ht
  next => cases ht
  next => split at ht <;> cases ht <;> rfl

theorem clearIn_writes (ht : clearIn s = .next t) : OnlyHostWrites s t := by
  unfold clearIn at ht
  split at ht <;> cases ht
  rfl

theorem takeOut_writes (ht : takeOut s = .next t) : OnlyHostWrites s t := by
  unfold takeOut at ht
  split at ht <;> cases ht <;> rfl

theorem hostPbWrite_writes {a : BitVec 34} {v : Byte} (ht : hostPbWrite a v s = .next t) : OnlyHostWrites s t := by
  rcases hostPbWrite_cases s a v with ⟨-, e⟩ | ⟨-, e⟩ <;> rw [e] at ht <;> cases ht
  rfl

theorem hostPbRead_writes {a : BitVec 34} (ht : hostPbRead a s = .next t) : OnlyHostWrites s t := by
  rcases hostPbRead_cases s a with ⟨-, e⟩ | ⟨-, e⟩ <;> rw [e] at ht <;> cases ht
  rfl

/-- In M_FAULT the block is quiescent and ignores the register port, so every turn but the assertion of `rst` is the host's own. -/
theorem takeTurn_fault (hm : s.mode = .fault) (hr : s.rst = false) {u : Turn} (hu : u ≠ .rst true)
    (ht : takeTurn u s = .next t) : OnlyHostWrites s t := by
  have released : ¬ s.rst = true := by simp [hr]
  cases u with
  | blockStep =>
    rw [takeTurn_blockStep hr, tick_of_quiescent (.inr hm)] at ht
    cases ht; rfl
  | regWrite n v =>
    rw [takeTurn, if_neg released, regWrite_fault hm] at ht
    cases ht; rfl
  | regRead n =>
    rw [takeTurn, if_neg released] at ht
    cases ht; rfl
  | supply item => exact supplyIn_writes ht
  | takeIn => exact takeIn_writes ht
  | clearIn => exact clearIn_writes ht
  | acceptOut ready => cases ht; rfl
  | takeOut => exact takeOut_writes ht
  | pbWrite a v => exact hostPbWrite_writes ht
  | pbRead a => exact hostPbRead_writes ht
  | rst level =>
    cases level with
    | true => exact absurd rfl hu
    | false =>
      have stays : setRst false s = s := by simp [setRst, hr]
      rw [takeTurn, stays] at ht
      cases ht; rfl

/-- In M_FAULT every step but the assertion of `rst` changes nothing of the block. -/
theorem step_fault (hm : s.mode = .fault) (hr : s.rst = false) (hu : ∀ rest, s.turns ≠ .rst true :: rest)
    (ht : step s = .next t) : OnlyHostWrites s t := by
  cases hs : s.turns with
  | nil =>
    rw [step_of_quiescent (.inr hm) hs hr] at ht
    cases ht; rfl
  | cons u rest =>
    rw [step_turn hs] at ht
    have notReset : u ≠ .rst true := by rintro rfl; exact hu rest hs
    exact takeTurn_fault (s := { s with turns := rest }) hm hr notReset ht

/-- The reset input asserted and released at once leaves the block in its reset state (70 R185, R186). -/
theorem steps_rst_pulse {rest : List Turn} (ht : s.turns = .rst true :: .rst false :: rest) :
    steps 2 s = .next { resetBlock s with rst := false, turns := rest } := by
  have assert : step s = .next { resetBlock s with rst := true, turns := .rst false :: rest } := step_turn ht
  have release : step { resetBlock s with rst := true, turns := .rst false :: rest } =
      .next { resetBlock s with rst := false, turns := rest } := rfl
  exact steps_succ assert (steps_succ release rfl)

/-- Settles O23: in M_FAULT only the host's own state changes until `rst` is asserted, and its release leaves the reset state. -/
theorem onlyResetLeavesTheFaultState : Obligations.OnlyResetLeavesTheFaultState := by
  intro s hm hr
  refine ⟨fun t ht hu => ?stays, fun rest ht => ?reset⟩
  case stays =>
    have host : OnlyHostWrites s t := step_fault hm hr hu ht
    refine ⟨?_, ?_, ?_, ?_, ?_, host.regRead_err, host.regRead_errarg⟩ <;> rw [host]
    · exact hm
    · exact hr
  case reset => exact ⟨_, steps_rst_pulse ht, rfl, rfl, regRead_resetBlock 0x02 s, regRead_resetBlock 0x03 s⟩

/-! ## Taking a fault (60 R160, R173) -/

/-- Settles O21: the frame is the definition of `raise`, and the state it answers is in M_FAULT. -/
theorem takingAFaultRecordsItAndStops : Obligations.TakingAFaultRecordsItAndStops :=
  fun s f arg => ⟨rfl, statusWord_fault_busy (raise_mode s f arg), rfl, rfl, rfl, rfl, rfl, rfl⟩

/-- A fault an idle block takes is recorded under the code of M_IDLE. -/
theorem raise_idle (hm : s.mode = .idle) (f : BlockFault) (arg : Word) :
    raise f arg s = { s with errFmode := 0, errCode := f.code, errarg := arg, mode := .fault } := by
  rw [raise, hm, Mode.code]

/-! ## The faults of a busy block (60 R165, R166) -/

/-- A busy block answers a CMD write by CmdWhileBusy, before what the value selects is looked at (43 R143). -/
theorem cmdSlot_busy (hb : s.busy = true) (v : Word) (act : State → State) : cmdSlot v act s = raise .cmdWhileBusy v s := by
  have notFault : s.mode ≠ .fault := fun hm => by simp [busy_iff, hm] at hb
  rw [cmdSlot, if_neg notFault, if_pos hb]

theorem cmdWrite_busy (hb : s.busy = true) {v : Word} (hv : v ≠ 0) : cmdWrite v s = .next (raise .cmdWhileBusy v s) := by
  rcases cmdWrite_cases v s with ⟨zero, -⟩ | ⟨-, e⟩ | ⟨-, e⟩ | ⟨-, e⟩ | ⟨-, e⟩ | ⟨-, e⟩
  · exact absurd (BitVec.eq_of_toNat_eq zero) hv
  all_goals rw [e, cmdSlot_busy hb]

/-- Settles O17: every value but 0 meets the test for BUSY. -/
theorem commandWhileBusyFaults : Obligations.CommandWhileBusyFaults := by
  intro s v rest hr hb hv ht
  rw [step_command ht hr, cmdWrite_busy (by exact hb) hv]
  rfl

/-- Settles O24: a writable number is not CMD's, and a busy block raises WriteWhileBusy for it. -/
theorem registerWriteWhileBusyFaults : Obligations.RegisterWriteWhileBusyFaults := by
  intro s n v rest hr hb hn ht
  have notCmd : n ≠ 0 := by rintro rfl; simp [WritableNumber] at hn
  rw [step_regWrite ht hr, regWrite, if_neg notCmd, regWriteOther_busy (by exact hb) hn]
  rfl

/-! ## The faults of an idle block (60 R163, R164) -/

/-- Settles O18: an idle block compares the whole value, which no command has as its code. -/
theorem reservedCommandFaults : Obligations.ReservedCommandFaults := by
  intro s v rest hr hm hv ht
  rw [step_command ht hr, cmdWrite_reserved hv, cmdSlot_idle (by exact hm), raise_idle (by exact hm), BlockFault.code]

/-- With another GEOM_BPP than 3 or 4 an idle block raises ConfigError, whichever of the two commands is written. -/
theorem cmdSlot_needLegalBpp_illegal (hm : s.mode = .idle) (h3 : s.bpp ≠ 3) (h4 : s.bpp ≠ 4) (v : Word) (start : State → State) :
    cmdSlot v (needLegalBpp start) s =
      { s with errFmode := 0, errCode := 3, errarg := BitVec.ofNat 64 s.bpp, mode := .fault } := by
  have illegal : ¬ (s.bpp = 3 ∨ s.bpp = 4) := not_or.2 ⟨h3, h4⟩
  rw [cmdSlot_idle hm, needLegalBpp_eq, if_pos illegal, raise_idle hm, BlockFault.code]

/-- A decode starts or is complete at once; neither is a fault (43 R150). -/
theorem startDecode_no_fault (s : State) : (startDecode s).mode ≠ .fault ∧ (startDecode s).errCode = s.errCode := by
  unfold startDecode
  split <;> exact ⟨nofun, rfl⟩

/-- An encode starts or is complete at once; neither is a fault (43 R150). -/
theorem startEncode_no_fault (s : State) : (startEncode s).mode ≠ .fault ∧ (startEncode s).errCode = s.errCode := by
  unfold startEncode
  split <;> exact ⟨nofun, rfl⟩

/-- Settles O19: by the test of GEOM_BPP, before which an idle block makes no other and after which it only starts. -/
theorem illegalBytesPerPixelFaults : Obligations.IllegalBytesPerPixelFaults := by
  intro s hm
  refine ⟨fun h3 h4 => ?illegal, fun hb => ?legal⟩
  case illegal =>
    exact ⟨congrArg Host.Outcome.next (cmdSlot_needLegalBpp_illegal hm h3 h4 3 startDecode),
      congrArg Host.Outcome.next (cmdSlot_needLegalBpp_illegal hm h3 h4 4 startEncode)⟩
  case legal =>
    exact ⟨⟨_, exec_cmdDecode_idle hm hb, startDecode_no_fault s⟩, ⟨_, exec_cmdEncode_idle hm hb, startEncode_no_fault s⟩⟩

end Sys2Proof.Machine

/-! PROOF. The undisturbed step as atomic steps of the block, and the reset input asserted over whatever runs (00 R6; 70 R185 to R188,
R202): O12 and O14. -/

namespace Sys2Proof.Machine

variable {s t : State}

/-! ## An instruction as atomic steps (70 R202) -/

/-- The outcome `o` is what 1 to `n` atomic steps of the block make of `s`. -/
def IsAtomicSteps (n : Nat) (s : State) (o : Host.Outcome State Fault Refusal) : Prop := ∃ k, 1 ≤ k ∧ k ≤ n ∧ o = ticks k s

theorem ticks_one (s : State) : ticks 1 s = tick s := by
  simp only [ticks]
  cases tick s <;> rfl

theorem ticks_succ (h : tick s = .next t) (k : Nat) : ticks (k + 1) s = ticks k t := by simp only [ticks, h]

theorem IsAtomicSteps.one_tick {n : Nat} (hn : 1 ≤ n) : IsAtomicSteps n s (tick s) := ⟨1, Nat.le_refl 1, hn, (ticks_one s).symm⟩

theorem IsAtomicSteps.mono {n m : Nat} {o : Host.Outcome State Fault Refusal} (h : IsAtomicSteps n s o) (hnm : n ≤ m) :
    IsAtomicSteps m s o := by
  obtain ⟨k, h1, hk, e⟩ := h
  exact ⟨k, h1, hk.trans hnm, e⟩

section unit
variable {st : State → Attempt} {going : State → Bool} (hst : ∀ u, going u = true → blockStep u = st u)
include hst

/-- One atomic step, then the run of a unit. -/
theorem IsAtomicSteps.tick_runUnit (h : tick s = .next t) (k : Nat) : IsAtomicSteps (k + 1) s (runUnit st going k t) := by
  obtain ⟨j, hj, e⟩ := runUnit_eq_ticks hst k t
  exact ⟨j + 1, by omega, by omega, e.trans (ticks_succ h j).symm⟩

/-- A unit that is going makes at least one atomic step: it goes on behind a step, and everything else ends its run with it. -/
theorem IsAtomicSteps.runUnit_going (hg : going s = true) (k : Nat) : IsAtomicSteps (k + 1) s (runUnit st going (k + 1) s) := by
  have attempt : tick s = (st s).outcome s := by rw [tick, hst s hg]
  cases hs : st s with
  | stepped t =>
    rw [runUnit_stepped hg hs]
    exact .tick_runUnit hst (by rw [attempt, hs, Attempt.outcome]) k
  | held | faulted | quiescent | stop =>
    have ends : runUnit st going (k + 1) s = tick s := by simp only [runUnit, hg, if_true, attempt, hs, Attempt.outcome]
    exact ends ▸ .one_tick (by omega)

end unit

/-- Behind its header byte a packet of either kind is at most as many steps of the decoder as the longer one, the run packet. -/
theorem exec_decodePacketIn_bounded {p : Byte} (hm : s.mode = .dec) (hd : s.dstate = .hdr) :
    ∃ k, k ≤ Config.runPacketSteps ∧
      exec (decodePacketIn p) s = runUnit decoderStep packetGoing k (dispatchPacket (packetIsRun p) (packetCountField p) s) := by
  unfold decodePacketIn
  cases packetIsRun p with
  | true => exact ⟨_, Nat.le_refl _, exec_decRun hm hd rfl⟩
  | false => exact ⟨_, by decide, exec_decRaw hm hd rfl⟩

/-- The instruction at hand, its fetch included, is atomic steps of the block: a header record at most 18, an emitted packet at
most 5, a packet read one for its header byte and at most 516 behind it. -/
theorem MachineInv.fetched_isAtomicSteps (h : MachineInv s) {i : Instr} (hf : FetchCase s i t) :
    IsAtomicSteps 517 s (exec i t) := by
  cases hf with
  | parse hm =>
    have going : (s.mode == .hparse) = true := beq_iff_eq.2 hm
    exact (IsAtomicSteps.runUnit_going blockStep_of_hparse going 17).mono (by decide)
  | serialize hm =>
    have going : (s.mode == .hser) = true := beq_iff_eq.2 hm
    exact (IsAtomicSteps.runUnit_going blockStep_of_hser going 17).mono (by decide)
  | @packet p q hm hd hq =>
    have header := tick_of_decoderStep hm (decoderStep_hdr hd hq)
    obtain ⟨k, hk, e⟩ := exec_decodePacketIn_bounded (s := { s with inq := q, ipos := s.ipos + 1 }) (p := p) hm hd
    rw [e]
    exact (IsAtomicSteps.tick_runUnit blockStep_of_packetGoing header k).mono (Nat.succ_le_succ hk)
  | emit hm he hi =>
    obtain ⟨h1, h128, -⟩ := (h.enc hm).emit (.inl he)
    rw [exec_emit hm he h1 h128 hi]
    exact (IsAtomicSteps.runUnit_going blockStep_of_emitGoing (emitGoing_hdr hm he) 4).mono (by decide)

/-- Settles O12: the block is at an instruction, which is atomic steps of its unit, or it takes one atomic step. -/
theorem undisturbedStepIsAtomicSteps : Obligations.UndisturbedStepIsAtomicSteps := by
  intro s h ht hr
  cases hf : fetchUnit s with
  | none =>
    rw [step_undisturbed ht hr, runBlock_of_fetchUnit_none hf]
    exact IsAtomicSteps.one_tick (by omega)
  | some instr =>
    rw [step_fetched ht hr hf]
    exact h.fetched_isAtomicSteps (fetchUnit_cases hf)

/-! ## The reset input (70 R185 to R188) -/

/-- Asserting `rst` resets the block, whatever it was doing. -/
theorem step_rst_assert {rest : List Turn} (ht : s.turns = .rst true :: rest) :
    step s = .next { resetBlock s with rst := true, turns := rest } := step_turn ht

/-- While `rst` is asserted a block step and a register write change nothing. -/
theorem step_ignored_in_reset {u : Turn} {rest : List Turn} (ht : s.turns = u :: rest) (hr : s.rst = true)
    (hu : u = .blockStep ∨ ∃ n v, u = .regWrite n v) : step s = .next { s with turns := rest } := by
  rw [step_turn ht]
  rcases hu with rfl | ⟨n, v, rfl⟩ <;> exact if_pos hr

/-- At its release the block is in its reset state. -/
theorem step_rst_release {rest : List Turn} (ht : s.turns = .rst false :: rest) (hr : s.rst = true) :
    step s = .next { resetBlock s with rst := false, turns := rest } := by
  have release : setRst false { s with turns := rest } = { resetBlock s with rst := false, turns := rest } := if_pos hr
  rw [step_turn ht, takeTurn, release]

/-- Settles O14: the assertion resets the block, the turn in between is ignored, and the release resets what is reset already. -/
theorem resetLineAbandonsWhateverRuns : Obligations.ResetLineAbandonsWhateverRuns := by
  intro s u rest hu
  have assert := step_rst_assert (s := { s with turns := .rst true :: u :: .rst false :: rest }) rfl
  have ignored := step_ignored_in_reset
    (s := { resetBlock s with rst := true, turns := u :: .rst false :: rest }) rfl rfl hu
  have release := step_rst_release (s := { resetBlock s with rst := true, turns := .rst false :: rest }) rfl rfl
  exact steps_succ assert (steps_succ ignored (steps_succ release rfl))

end Sys2Proof.Machine
